-- ==== Sys2Proof/Word.lean ====
section
/-!
DEFINITION. The two word types of RSCORE: the byte (00_scope R8) and the 32-bit command word (30_encoding R80).
-/

namespace Sys2Proof

/-- A byte, `0..255`: a field element of GF(2^8), a data byte, an 8-bit register (00_scope R6, R8).
`a ^^^ b` is the field's addition and subtraction (40_gf_arithmetic R100). -/
abbrev Byte := BitVec 8

/-- The command word, 32 bits (30_encoding R80). -/
abbrev Word := BitVec 32

end Sys2Proof
end

