-- ==== Sys2Proof/Config.lean ====
section
/-!
DEFINITION. The constants of the hardware (00_scope R6, R7). The two parameters the spec leaves OPEN are no
constants: `PORT_MAP` is an argument of `Machine.State.busRead`, `N_ENGINES` of `Machine.Platform.reset`.
-/

namespace Sys2Proof.Config

/-- The reduction polynomial `0x11D` = x^8 + x^4 + x^3 + x^2 + 1 (R6). -/
def reductionPoly : Nat := 0x11D

/-- The generator g = α = 2 of the multiplicative group (R6). -/
def generator : Nat := 2

/-- The multiplicative order, 255: all index arithmetic of the exponent table is mod 255 (R6). -/
def order : Nat := 255

/-- NSYM_MIN (R6). -/
def nsymMin : Nat := 1

/-- NSYM_MAX (R6). -/
def nsymMax : Nat := 254

/-- N_MAX, the largest codeword length (R7). -/
def nMax : Nat := 255

/-- T_MAX, the largest number of corrected errors and the size of POS and MAG (R7). -/
def tMax : Nat := 127

/-- EXP_LEN, the number of entries of the exponent table (R7, 10_state R30). -/
def expLen : Nat := 512

/-- The number of entries of the log table, entry 0 (which has no value) counted (10_state R32). -/
def logLen : Nat := 256

end Sys2Proof.Config
end

