-- ==== Sys2Proof/Syntax.lean ====
section
/-!
DEFINITION. The commands of RSCORE as terms: one constructor per row of spec/opcode_table.json (30_encoding R84).
-/

namespace Sys2Proof

/-- The twenty commands of 30_encoding R84 with their operands as R83 and R96 assemble them. A field element or a data
byte is a `Byte`; a count, length, index, buffer id or the exponent of GF.POW is a number (00_scope R8), whose range
`Instr.wf` checks. -/
inductive Instr where
  /-- NOP (R190) -/
  | nop
  /-- BUF.RD buf, idx (R191): `idx = 256 * b + a` -/
  | bufRd (buf idx : Nat)
  /-- BUF.WR buf, idx, val (R192) -/
  | bufWr (buf idx : Nat) (val : Byte)
  /-- SET.NPOS count (R193) -/
  | setNpos (count : Nat)
  /-- GF.MUL a, b (R105) -/
  | gfMul (a b : Byte)
  /-- GF.DIV a, b (R106): dividend, divisor -/
  | gfDiv (a b : Byte)
  /-- GF.INV a (R107) -/
  | gfInv (a : Byte)
  /-- GF.POW base, exp (R108) -/
  | gfPow (base : Byte) (exp : Nat)
  /-- POLY.EVAL buf, x, len (R122) -/
  | polyEval (buf : Nat) (x : Byte) (len : Nat)
  /-- POLY.EVALD buf, x, len (R123) -/
  | polyEvald (buf : Nat) (x : Byte) (len : Nat)
  /-- RS.GEN nsym (R131) -/
  | rsGen (nsym : Nat)
  /-- RS.ENCODE nsym, k (R133) -/
  | rsEncode (nsym k : Nat)
  /-- RS.SYND nsym, n (R141) -/
  | rsSynd (nsym n : Nat)
  /-- RS.KEYEQ nsym (R153) -/
  | rsKeyeq (nsym : Nat)
  /-- RS.CHIEN nsym, n (R155) -/
  | rsChien (nsym n : Nat)
  /-- RS.LOCATE nsym, n (R157) -/
  | rsLocate (nsym n : Nat)
  /-- RS.FORNEY nsym, n (R172) -/
  | rsForney (nsym n : Nat)
  /-- RS.APPLY n (R173) -/
  | rsApply (n : Nat)
  /-- RS.CORRECT nsym, n (R174) -/
  | rsCorrect (nsym n : Nat)
  /-- RS.DECODE nsym, n (R175) -/
  | rsDecode (nsym n : Nat)
  deriving DecidableEq, Repr

/-- The five formats of 30_encoding R81: which of the fields `a`, `b`, `c` a command uses. -/
inductive Format where
  | f0 | fa | fb | fab | fabc
  deriving DecidableEq, Repr

/-- The twenty defined opcodes (30_encoding R84). -/
inductive Opcode where
  | nop | bufRd | bufWr | setNpos
  | gfMul | gfDiv | gfInv | gfPow
  | polyEval | polyEvald
  | rsGen | rsEncode | rsSynd | rsKeyeq | rsChien | rsLocate | rsForney | rsApply | rsCorrect | rsDecode
  deriving DecidableEq, Repr

end Sys2Proof
end

