-- ==== Sys2Proof/WellFormed.lean ====
section
/-!
DEFINITION. Which terms of `Instr` are commands the 32-bit word can carry (30_encoding R80, R83).
-/

namespace Sys2Proof

/-- The value fits one operand field, an unsigned byte (30_encoding R83). -/
def fitsField (v : Nat) : Bool := decide (v < 256)

/-- Every numeric operand fits its field; BUF.RD's assembled index fits its two (30_encoding R83). Field elements and
data bytes are bytes by their type. -/
def Instr.wf : Instr → Bool
  | .nop => true
  | .bufRd buf idx => fitsField buf && decide (idx < 65536)
  | .bufWr buf idx _ => fitsField buf && fitsField idx
  | .setNpos count => fitsField count
  | .gfMul _ _ => true
  | .gfDiv _ _ => true
  | .gfInv _ => true
  | .gfPow _ exp => fitsField exp
  | .polyEval buf _ len => fitsField buf && fitsField len
  | .polyEvald buf _ len => fitsField buf && fitsField len
  | .rsGen nsym => fitsField nsym
  | .rsEncode nsym k => fitsField nsym && fitsField k
  | .rsSynd nsym n => fitsField nsym && fitsField n
  | .rsKeyeq nsym => fitsField nsym
  | .rsChien nsym n => fitsField nsym && fitsField n
  | .rsLocate nsym n => fitsField nsym && fitsField n
  | .rsForney nsym n => fitsField nsym && fitsField n
  | .rsApply n => fitsField n
  | .rsCorrect nsym n => fitsField nsym && fitsField n
  | .rsDecode nsym n => fitsField nsym && fitsField n

end Sys2Proof
end

