-- ==== Sys2Proof/Decode.lean ====
section
/-!
DEFINITION. Reading a command word and writing one, both from the tables of 30_encoding R80 to R84. Decoding is total:
a word that is no command is rejected by the name of what is wrong with it (R85, R86).
-/

namespace Sys2Proof

/-- Field `op`, bits 7..0 (R80). -/
def opField (w : Word) : Byte := w.extractLsb' 0 8

/-- Field `a`, bits 15..8 (R80). -/
def aField (w : Word) : Byte := w.extractLsb' 8 8

/-- Field `b`, bits 23..16 (R80). -/
def bField (w : Word) : Byte := w.extractLsb' 16 8

/-- Field `c`, bits 31..24 (R80). -/
def cField (w : Word) : Byte := w.extractLsb' 24 8

/-- `word = {c, b, a, op}`, most significant first (R80). -/
def mkWord (op a b c : Byte) : Word := c ++ b ++ a ++ op

/-- The bits the decoder compares: the opcode byte and every reserved field (R81). -/
def Format.mask : Format → Word
  | .f0 => 0xFFFFFFFF
  | .fa => 0xFFFF00FF
  | .fb => 0xFF00FFFF
  | .fab => 0xFF0000FF
  | .fabc => 0x000000FF

/-- The opcode column of R84. -/
def Opcode.code : Opcode → Byte
  | .nop => 0x00
  | .bufRd => 0x01
  | .bufWr => 0x02
  | .setNpos => 0x03
  | .gfMul => 0x10
  | .gfDiv => 0x11
  | .gfInv => 0x12
  | .gfPow => 0x13
  | .polyEval => 0x20
  | .polyEvald => 0x21
  | .rsGen => 0x30
  | .rsEncode => 0x31
  | .rsSynd => 0x32
  | .rsKeyeq => 0x33
  | .rsChien => 0x34
  | .rsLocate => 0x35
  | .rsForney => 0x36
  | .rsApply => 0x37
  | .rsCorrect => 0x38
  | .rsDecode => 0x39

/-- The format column of R84. -/
def Opcode.format : Opcode → Format
  | .nop => .f0
  | .bufRd => .fabc
  | .bufWr => .fabc
  | .setNpos => .fa
  | .gfMul => .fab
  | .gfDiv => .fab
  | .gfInv => .fa
  | .gfPow => .fab
  | .polyEval => .fabc
  | .polyEvald => .fabc
  | .rsGen => .fa
  | .rsEncode => .fab
  | .rsSynd => .fab
  | .rsKeyeq => .fa
  | .rsChien => .fab
  | .rsLocate => .fab
  | .rsForney => .fab
  | .rsApply => .fb
  | .rsCorrect => .fab
  | .rsDecode => .fab

/-- The rows of R84, in its order. -/
def Opcode.all : List Opcode :=
  [.nop, .bufRd, .bufWr, .setNpos, .gfMul, .gfDiv, .gfInv, .gfPow, .polyEval, .polyEvald,
   .rsGen, .rsEncode, .rsSynd, .rsKeyeq, .rsChien, .rsLocate, .rsForney, .rsApply, .rsCorrect, .rsDecode]

/-- The row an opcode byte names; `none` for a reserved opcode (R84, R85). -/
def Opcode.ofByte (op : Byte) : Option Opcode := Opcode.all.find? fun o => o.code == op

/-- What the fields mean, per row of R84 (and R83 for BUF.RD's index). -/
def Opcode.build (o : Opcode) (a b c : Byte) : Instr :=
  match o with
  | .nop => .nop
  | .bufRd => .bufRd c.toNat (256 * b.toNat + a.toNat)
  | .bufWr => .bufWr c.toNat a.toNat b
  | .setNpos => .setNpos a.toNat
  | .gfMul => .gfMul a b
  | .gfDiv => .gfDiv a b
  | .gfInv => .gfInv a
  | .gfPow => .gfPow a b.toNat
  | .polyEval => .polyEval c.toNat a b.toNat
  | .polyEvald => .polyEvald c.toNat a b.toNat
  | .rsGen => .rsGen a.toNat
  | .rsEncode => .rsEncode a.toNat b.toNat
  | .rsSynd => .rsSynd a.toNat b.toNat
  | .rsKeyeq => .rsKeyeq a.toNat
  | .rsChien => .rsChien a.toNat b.toNat
  | .rsLocate => .rsLocate a.toNat b.toNat
  | .rsForney => .rsForney a.toNat b.toNat
  | .rsApply => .rsApply b.toNat
  | .rsCorrect => .rsCorrect a.toNat b.toNat
  | .rsDecode => .rsDecode a.toNat b.toNat

/-- Why a word is no command: its opcode is reserved (R85), or a field its format reserves is nonzero (R86). -/
inductive IllegalWord where
  | reservedOpcode
  | reservedField
  deriving DecidableEq, Repr

/-- Reading a command word, as R84 says: the opcode first; then the word ANDed with the format's mask must equal the
opcode; otherwise a reserved field is nonzero. -/
def decodeWord (w : Word) : Except IllegalWord Instr :=
  match Opcode.ofByte (opField w) with
  | none => .error .reservedOpcode
  | some o =>
    if w &&& o.format.mask = o.code.setWidth 32 then .ok (o.build (aField w) (bField w) (cField w))
    else .error .reservedField

/-- The command word carried as four bytes, little-endian, `op` first (R82). -/
def wordOfBytes (b0 b1 b2 b3 : Byte) : Word := mkWord b0 b1 b2 b3

/-- The four bytes of a command word in the order R82 gives. -/
def bytesOfWord (w : Word) : List Byte := [opField w, aField w, bField w, cField w]

/-- Why a byte sequence does not begin with a command. -/
inductive DecodeError where
  /-- fewer than four bytes are left: no command word (there is one length, R80, R88) -/
  | truncated
  /-- the four bytes are a word that is no command -/
  | illegal (why : IllegalWord)
  deriving DecidableEq, Repr

/-- Reading a command from a sequence of bytes (R82): the command and the bytes after it. -/
def decodeBytes : List Byte → Except DecodeError (Instr × List Byte)
  | b0 :: b1 :: b2 :: b3 :: rest =>
    match decodeWord (wordOfBytes b0 b1 b2 b3) with
    | .ok i => .ok (i, rest)
    | .error e => .error (.illegal e)
  | _ => .error .truncated

/-- The row of R84 a command belongs to. -/
def Instr.opcode : Instr → Opcode
  | .nop => .nop
  | .bufRd _ _ => .bufRd
  | .bufWr _ _ _ => .bufWr
  | .setNpos _ => .setNpos
  | .gfMul _ _ => .gfMul
  | .gfDiv _ _ => .gfDiv
  | .gfInv _ => .gfInv
  | .gfPow _ _ => .gfPow
  | .polyEval _ _ _ => .polyEval
  | .polyEvald _ _ _ => .polyEvald
  | .rsGen _ => .rsGen
  | .rsEncode _ _ => .rsEncode
  | .rsSynd _ _ => .rsSynd
  | .rsKeyeq _ => .rsKeyeq
  | .rsChien _ _ => .rsChien
  | .rsLocate _ _ => .rsLocate
  | .rsForney _ _ => .rsForney
  | .rsApply _ => .rsApply
  | .rsCorrect _ _ => .rsCorrect
  | .rsDecode _ _ => .rsDecode

/-- A numeric operand as a field byte. -/
def fieldByte (v : Nat) : Byte := BitVec.ofNat 8 v

/-- The word of a command from its operand fields, by R84's columns `a`, `b`, `c` and R96's `fields` column; a field
the format reserves is zero (R81). -/
def encode : Instr → Word
  | .nop => mkWord 0x00 0 0 0
  | .bufRd buf idx => mkWord 0x01 (fieldByte (idx % 256)) (fieldByte (idx / 256)) (fieldByte buf)
  | .bufWr buf idx val => mkWord 0x02 (fieldByte idx) val (fieldByte buf)
  | .setNpos count => mkWord 0x03 (fieldByte count) 0 0
  | .gfMul a b => mkWord 0x10 a b 0
  | .gfDiv a b => mkWord 0x11 a b 0
  | .gfInv a => mkWord 0x12 a 0 0
  | .gfPow base exp => mkWord 0x13 base (fieldByte exp) 0
  | .polyEval buf x len => mkWord 0x20 x (fieldByte len) (fieldByte buf)
  | .polyEvald buf x len => mkWord 0x21 x (fieldByte len) (fieldByte buf)
  | .rsGen nsym => mkWord 0x30 (fieldByte nsym) 0 0
  | .rsEncode nsym k => mkWord 0x31 (fieldByte nsym) (fieldByte k) 0
  | .rsSynd nsym n => mkWord 0x32 (fieldByte nsym) (fieldByte n) 0
  | .rsKeyeq nsym => mkWord 0x33 (fieldByte nsym) 0 0
  | .rsChien nsym n => mkWord 0x34 (fieldByte nsym) (fieldByte n) 0
  | .rsLocate nsym n => mkWord 0x35 (fieldByte nsym) (fieldByte n) 0
  | .rsForney nsym n => mkWord 0x36 (fieldByte nsym) (fieldByte n) 0
  | .rsApply n => mkWord 0x37 0 (fieldByte n) 0
  | .rsCorrect nsym n => mkWord 0x38 (fieldByte nsym) (fieldByte n) 0
  | .rsDecode nsym n => mkWord 0x39 (fieldByte nsym) (fieldByte n) 0

/-- The instruction the decoder reads from the word whose low `nbits` bits are `w`, the bits above being zero: the
word is laid out as four bytes in the order of R82 and those bytes are decoded. -/
def decodeTableWord (nbits w : Nat) : Option Instr :=
  match decodeBytes (bytesOfWord (BitVec.ofNat 32 (w % 2 ^ nbits))) with
  | .ok (i, _) => some i
  | .error _ => none

end Sys2Proof
end

