-- ==== Sys2Proof/Machine/State.lean ====
section
/-!
DEFINITION. The state of one RSCORE engine (10_state), as plain data, and its value after reset (R42). The tables EXP
and LOG are constants of the model (`Machine/Tables.lean`), as R34 allows: log entry 1.
-/

namespace Sys2Proof.Machine

/-- The value of register STATUS: success or one of the four failure kinds (10_state R24, 60_exceptions R200). The
values 5..255 never occur, so the type has five values (93 U15). `Status.code` is the byte the host reads. -/
inductive Status where
  | ok
  | invalidParameter
  | divisionByZero
  | uncorrectableError
  | illegalCommand
  deriving DecidableEq, Repr

/-- Register FLAGS (10_state R27): bit 0 `SZ`, bit 1 `RDY`; bits 7..2 read as 0 and nothing writes them. -/
structure Flags where
  sz : Bool
  rdy : Bool
  deriving DecidableEq, Repr

/-- The seven data buffers (10_state R36), ids 0 to 6 in this order. -/
inductive Buf where
  | cw | syn | loc | omg | pos | mag | gen
  deriving DecidableEq, Repr

/-- A data buffer: the (index, byte) cells that do not read as the reset byte 0 (R42), in rising order of index. The
form is `Memory.wf`; every access goes through the operations of `Machine/Ops.lean`. -/
abbrev Memory := List Host.Cell

/-- What acts on the engine from outside (10_state R20, R28): the host issues a command word; the RESET input is
asserted; the reset sequence reaches its end (70_reset R230). Log entries 2 and 4. No input accesses a buffer directly
(20_memory R64, log entry 24). -/
inductive HostInput where
  | issue (word : Word)
  | assertReset
  | finishReset
  deriving DecidableEq, Repr

/-- The state of one engine: the five registers (10_state R23 to R27), the seven data buffers (R36), and the model's own
list of host inputs still to be served, the next one first (log entry 2). -/
structure State where
  /-- R, the result register (R23) -/
  r : Byte
  /-- STATUS, the outcome of the last command (R24) -/
  status : Status
  /-- INFO, the sub-cause of that outcome (R25) -/
  info : Byte
  /-- NPOS, the number of valid entries of POS and MAG (R26) -/
  npos : Byte
  /-- FLAGS (R27) -/
  flags : Flags
  /-- CW, 255 bytes: message, then codeword -/
  cw : Memory
  /-- SYN, 254 bytes: syndromes -/
  syn : Memory
  /-- LOC, 128 bytes: locator coefficients -/
  loc : Memory
  /-- OMG, 254 bytes: evaluator coefficients -/
  omg : Memory
  /-- POS, 127 bytes: error positions -/
  pos : Memory
  /-- MAG, 127 bytes: error magnitudes -/
  mag : Memory
  /-- GEN, 255 bytes: generator coefficients -/
  gen : Memory
  /-- the host inputs not yet served (the model's own field) -/
  port : List HostInput
  deriving DecidableEq, Repr

/-- The reasons an engine can stop: none. Every command word in every state ends with a defined STATUS and INFO and a
defined next state (60_exceptions R206), so no constructor stands here and no step answers a fault (log entry 17). -/
inductive Fault where
  deriving DecidableEq, Repr

/-- The reasons the model gives no meaning. -/
inductive Refusal where
  /-- Raised by an arm of `exec` whose instruction has no meaning yet; safe (the model stops). No arm raises it. -/
  | notModelled (mnemonic : String)
  deriving DecidableEq, Repr

/-- The state when the reset sequence has ended (10_state R42): R, STATUS, INFO, NPOS 0, FLAGS = 2, every byte of every
data buffer 0; no host input is waiting. -/
def State.reset : State :=
  { r := 0, status := .ok, info := 0, npos := 0, flags := { sz := false, rdy := true },
    cw := [], syn := [], loc := [], omg := [], pos := [], mag := [], gen := [], port := [] }

end Sys2Proof.Machine
end

