-- ==== Sys2Proof/Machine/Ops.lean ====
section
/-!
DEFINITION. The named operations on buffers and registers: byte reads and writes, the whole-buffer write with zero fill
(10_state R38), the failure causes (60_exceptions R201), and ending a command by a raise or a success (00_scope R10).
-/

namespace Sys2Proof.Machine

/-- What a step and a meaning answer. -/
abbrev Result := Host.Outcome State Fault Refusal

/-! ### One data buffer -/

/-- The byte at index `i`: an unlisted byte is 0 (10_state R42). -/
def Memory.read : Memory → Nat → Byte
  | [], _ => 0
  | (k, v) :: m, i => if i = k then v else Memory.read m i

/-- Put a cell in front, unless its byte is the one an unlisted index reads as. -/
def Memory.cell (i : Nat) (v : Byte) (m : Memory) : Memory := if v = 0 then m else (i, v) :: m

/-- Write byte `v` at index `i`. -/
def Memory.write : Memory → Nat → Byte → Memory
  | [], i, v => Memory.cell i v []
  | (k, w) :: m, i, v =>
    if i < k then Memory.cell i v ((k, w) :: m)
    else if i = k then Memory.cell i v m
    else (k, w) :: Memory.write m i v

/-- Write the bytes of a list at indices `i`, `i + 1`, ... -/
def Memory.writeFrom : Memory → Nat → List Byte → Memory
  | m, _, [] => m
  | m, i, v :: vs => Memory.writeFrom (m.write i v) (i + 1) vs

/-- The buffer that holds the bytes of a list from index `i` on and 0 everywhere else. -/
def Memory.ofBytesFrom : Nat → List Byte → Memory
  | _, [] => []
  | i, v :: vs => Memory.cell i v (Memory.ofBytesFrom (i + 1) vs)

/-- The bytes `0..n-1` as a list: `B[0..n-1]` of 00_scope R9. -/
def Memory.slice (m : Memory) (n : Nat) : List Byte := (List.range n).map m.read

/-- The canonical form of a buffer of `size` bytes: indices strictly rising and below the size, no byte equal to the 0
an unlisted index reads as. -/
def Memory.wf (size : Nat) : Memory → Bool
  | [] => true
  | [(k, v)] => decide (k < size) && decide (v ≠ 0)
  | (k, v) :: (k', v') :: m =>
    decide (k < size) && decide (v ≠ 0) && decide (k < k') && Memory.wf size ((k', v') :: m)

/-! ### The buffers of a state -/

/-- The number of bytes of a data buffer (10_state R36). -/
def Buf.size : Buf → Nat
  | .cw => 255
  | .syn => 254
  | .loc => 128
  | .omg => 254
  | .pos => 127
  | .mag => 127
  | .gen => 255

/-- The seven data buffers. -/
def Buf.all : List Buf := [.cw, .syn, .loc, .omg, .pos, .mag, .gen]

/-- One data buffer of a state. -/
def State.buf (s : State) : Buf → Memory
  | .cw => s.cw
  | .syn => s.syn
  | .loc => s.loc
  | .omg => s.omg
  | .pos => s.pos
  | .mag => s.mag
  | .gen => s.gen

/-- The state with one data buffer replaced. -/
def State.setBuf (s : State) (b : Buf) (m : Memory) : State :=
  match b with
  | .cw => { s with cw := m }
  | .syn => { s with syn := m }
  | .loc => { s with loc := m }
  | .omg => { s with omg := m }
  | .pos => { s with pos := m }
  | .mag => { s with mag := m }
  | .gen => { s with gen := m }

/-- `MemRead(B:i, 1)` (00_scope R9, 20_memory R61). -/
def State.readByte (s : State) (b : Buf) (i : Nat) : Byte := (s.buf b).read i

/-- `MemWrite(B:i, 1, v)` (00_scope R9, 20_memory R61). -/
def State.writeByte (s : State) (b : Buf) (i : Nat) (v : Byte) : State := s.setBuf b ((s.buf b).write i v)

/-- The contents of a buffer a command produces: the meaningful entries, then 0 in every entry above them, the whole
buffer (10_state R38). -/
def zeroFilled (b : Buf) (entries : List Byte) : Memory := Memory.ofBytesFrom 0 (entries.take b.size)

/-! ### The end of a command -/

/-- The sub-causes of a failure, by the names of 60_exceptions R201. -/
inductive Cause where
  | nsymRange | lenRange | bufId | bufIndex | logZero | bufReadonly | posRange | countRange
  | operand | forneyDen
  | locatorConstZero | rootOutside | rootCount | tooMany | residual
  | reservedOpcode | reservedFieldNonzero
  deriving DecidableEq, Repr

/-- The STATUS column of R201. -/
def Cause.status : Cause → Status
  | .nsymRange => .invalidParameter
  | .lenRange => .invalidParameter
  | .bufId => .invalidParameter
  | .bufIndex => .invalidParameter
  | .logZero => .invalidParameter
  | .bufReadonly => .invalidParameter
  | .posRange => .invalidParameter
  | .countRange => .invalidParameter
  | .operand => .divisionByZero
  | .forneyDen => .divisionByZero
  | .locatorConstZero => .uncorrectableError
  | .rootOutside => .uncorrectableError
  | .rootCount => .uncorrectableError
  | .tooMany => .uncorrectableError
  | .residual => .uncorrectableError
  | .reservedOpcode => .illegalCommand
  | .reservedFieldNonzero => .illegalCommand

/-- The INFO column of R201. -/
def Cause.info : Cause → Byte
  | .nsymRange => 1
  | .lenRange => 2
  | .bufId => 3
  | .bufIndex => 4
  | .logZero => 5
  | .bufReadonly => 6
  | .posRange => 7
  | .countRange => 8
  | .operand => 1
  | .forneyDen => 2
  | .locatorConstZero => 1
  | .rootOutside => 2
  | .rootCount => 3
  | .tooMany => 4
  | .residual => 5
  | .reservedOpcode => 1
  | .reservedFieldNonzero => 2

/-- The rows of R201. -/
def Cause.all : List Cause :=
  [.nsymRange, .lenRange, .bufId, .bufIndex, .logZero, .bufReadonly, .posRange, .countRange, .operand, .forneyDen,
   .locatorConstZero, .rootOutside, .rootCount, .tooMany, .residual, .reservedOpcode, .reservedFieldNonzero]

/-- The byte of STATUS (60_exceptions R200). -/
def Status.code : Status → Byte
  | .ok => 0
  | .invalidParameter => 1
  | .divisionByZero => 2
  | .uncorrectableError => 3
  | .illegalCommand => 4

/-- Taking a failure (00_scope R10, 60_exceptions R202): STATUS and INFO are written and nothing else. Nothing is saved,
no handler is entered, and there is no return from it: the next command overwrites both (R203). -/
def State.raise (s : State) (c : Cause) : State := { s with status := c.status, info := c.info }

/-- Ending without a raise: `STATUS <- 0; INFO <- 0` (00_scope R10). -/
def State.succeed (s : State) : State := { s with status := .ok, info := 0 }

/-- The end of every command (00_scope R10): its body either gives the state with the effects of its pseudocode, which
are committed with a success, or raises, and then every effect of an earlier stage is dropped. -/
def State.commit (s : State) : Except Cause State → Result
  | .ok t => .next t.succeed
  | .error c => .next (s.raise c)

/-- The cause of rejecting a word that is no command (30_encoding R85, R86). -/
def causeOfIllegal : IllegalWord → Cause
  | .reservedOpcode => .reservedOpcode
  | .reservedField => .reservedFieldNonzero

/-! ### The command port and reset -/

/-- The next host input, and the state with it taken off the port. -/
def State.nextInput (s : State) : Option (HostInput × State) :=
  match s.port with
  | [] => none
  | h :: rest => some (h, { s with port := rest })

/-- RESET asserted: the writes of the reset sequence up to the table build (70_reset R230). FLAGS <- 0 (SZ = 0,
RDY = 0); every register and every buffer byte 0. -/
def State.beginReset (s : State) : State :=
  { r := 0, status := .ok, info := 0, npos := 0, flags := { sz := false, rdy := false },
    cw := [], syn := [], loc := [], omg := [], pos := [], mag := [], gen := [], port := s.port }

/-- The end of the reset sequence: the tables are built, `FLAGS.RDY <- 1` (70_reset R230). -/
def State.endReset (s : State) : State := { s with flags := { s.flags with rdy := true } }

end Sys2Proof.Machine
end

