-- ==== Sys2Proof/Machine/Tables.lean ====
section
/-!
DEFINITION. The exponent and log tables (10_state R30 to R34): the printed values of R31 and R33, and the procedure of
70_reset R231 that builds them. The printed values are the model's tables; that the procedure builds the same is an
obligation.
-/

namespace Sys2Proof.Machine

/-- The rows of the table of R31: `EXP[16 * row + column]`, row by row; entry 255 begins the second period. -/
def expRows : List (List Nat) :=
  [[1, 2, 4, 8, 16, 32, 64, 128, 29, 58, 116, 232, 205, 135, 19, 38],
   [76, 152, 45, 90, 180, 117, 234, 201, 143, 3, 6, 12, 24, 48, 96, 192],
   [157, 39, 78, 156, 37, 74, 148, 53, 106, 212, 181, 119, 238, 193, 159, 35],
   [70, 140, 5, 10, 20, 40, 80, 160, 93, 186, 105, 210, 185, 111, 222, 161]] ++
  [[95, 190, 97, 194, 153, 47, 94, 188, 101, 202, 137, 15, 30, 60, 120, 240],
   [253, 231, 211, 187, 107, 214, 177, 127, 254, 225, 223, 163, 91, 182, 113, 226],
   [217, 175, 67, 134, 17, 34, 68, 136, 13, 26, 52, 104, 208, 189, 103, 206],
   [129, 31, 62, 124, 248, 237, 199, 147, 59, 118, 236, 197, 151, 51, 102, 204]] ++
  [[133, 23, 46, 92, 184, 109, 218, 169, 79, 158, 33, 66, 132, 21, 42, 84],
   [168, 77, 154, 41, 82, 164, 85, 170, 73, 146, 57, 114, 228, 213, 183, 115],
   [230, 209, 191, 99, 198, 145, 63, 126, 252, 229, 215, 179, 123, 246, 241, 255],
   [227, 219, 171, 75, 150, 49, 98, 196, 149, 55, 110, 220, 165, 87, 174, 65]] ++
  [[130, 25, 50, 100, 200, 141, 7, 14, 28, 56, 112, 224, 221, 167, 83, 166],
   [81, 162, 89, 178, 121, 242, 249, 239, 195, 155, 43, 86, 172, 69, 138, 9],
   [18, 36, 72, 144, 61, 122, 244, 245, 247, 243, 251, 235, 203, 139, 11, 22],
   [44, 88, 176, 125, 250, 233, 207, 131, 27, 54, 108, 216, 173, 71, 142, 1]]

/-- The rows of the table of R33: `LOG[16 * row + column]`, row by row; entry 0 has no value (R32). -/
def logRows : List (List (Option Nat)) :=
  [none :: [0, 1, 25, 2, 50, 26, 198, 3, 223, 51, 238, 27, 104, 199, 75].map some,
   [4, 100, 224, 14, 52, 141, 239, 129, 28, 193, 105, 248, 200, 8, 76, 113].map some,
   [5, 138, 101, 47, 225, 36, 15, 33, 53, 147, 142, 218, 240, 18, 130, 69].map some,
   [29, 181, 194, 125, 106, 39, 249, 185, 201, 154, 9, 120, 77, 228, 114, 166].map some] ++
  [[6, 191, 139, 98, 102, 221, 48, 253, 226, 152, 37, 179, 16, 145, 34, 136].map some,
   [54, 208, 148, 206, 143, 150, 219, 189, 241, 210, 19, 92, 131, 56, 70, 64].map some,
   [30, 66, 182, 163, 195, 72, 126, 110, 107, 58, 40, 84, 250, 133, 186, 61].map some,
   [202, 94, 155, 159, 10, 21, 121, 43, 78, 212, 229, 172, 115, 243, 167, 87].map some] ++
  [[7, 112, 192, 247, 140, 128, 99, 13, 103, 74, 222, 237, 49, 197, 254, 24].map some,
   [227, 165, 153, 119, 38, 184, 180, 124, 17, 68, 146, 217, 35, 32, 137, 46].map some,
   [55, 63, 209, 91, 149, 188, 207, 205, 144, 135, 151, 178, 220, 252, 190, 97].map some,
   [242, 86, 211, 171, 20, 42, 93, 158, 132, 60, 57, 83, 71, 109, 65, 162].map some] ++
  [[31, 45, 67, 216, 183, 123, 164, 118, 196, 23, 73, 236, 127, 12, 111, 246].map some,
   [108, 161, 59, 82, 41, 157, 85, 170, 251, 96, 134, 177, 187, 204, 62, 90].map some,
   [203, 89, 95, 176, 156, 169, 160, 81, 11, 245, 22, 235, 122, 117, 44, 215].map some,
   [79, 174, 213, 233, 230, 231, 173, 232, 116, 214, 244, 234, 168, 80, 88, 175].map some]

/-- `EXP[i]` for an index `0..511`: the entry of the first period (10_state R30, R31). -/
def expAt (i : Nat) : Byte :=
  let j := i % Config.order
  BitVec.ofNat 8 ((expRows.getD (j / 16) []).getD (j % 16) 0)

/-- `LOG[v]`; `LOG[0]` has no value (10_state R32, R33; log entry 7). -/
def logAt (v : Nat) : Option Nat := (logRows.getD (v / 16) []).getD (v % 16) none

/-! ### Building the tables (70_reset R231) -/

/-- `x = x << 1; if x >= 256 then x = x ^ 0x11D`. -/
def timesGenerator (x : Nat) : Nat :=
  let y := x * Config.generator
  if 256 ≤ y then y ^^^ Config.reductionPoly else y

/-- The values `x` takes in the first loop of R231, from `x` on. -/
def powersFrom : Nat → Nat → List Nat
  | 0, _ => []
  | n + 1, x => x :: powersFrom n (timesGenerator x)

/-- `EXP[0..254]` as the first loop writes it. -/
def firstPeriod : List Nat := powersFrom Config.order 1

/-- `EXP[0..511]`: the second loop copies the entry 255 places below. -/
def builtExp : List Nat := firstPeriod ++ firstPeriod ++ firstPeriod.take 2

/-- `LOG[v]` as the first loop writes it: the index at which `x` was `v`. -/
def builtLog (v : Nat) : Option Nat := firstPeriod.idxOf? v

end Sys2Proof.Machine
end

