-- ==== Sys2Proof/Machine/Operands.lean ====
section
/-!
DEFINITION. The operand checks (60_exceptions R205) and the addressing of buffers and tables by id and index (20_memory
R60, R64). Each check answers `()` or the cause of the raise; a meaning lists its checks in the order of its pseudocode.
-/

namespace Sys2Proof.Machine

/-- `if a < 1 or a > 254 then raise InvalidParameter(1)` (R131 and every RS rule with an nsym operand). -/
def checkNsym (nsym : Nat) : Except Cause Unit :=
  if nsym < Config.nsymMin ∨ Config.nsymMax < nsym then .error .nsymRange else .ok ()

/-- `if b < a then raise InvalidParameter(2)`: a received word has at least nsym bytes (R141). -/
def checkWordLength (nsym n : Nat) : Except Cause Unit := if n < nsym then .error .lenRange else .ok ()

/-- `if a + b > 255 then raise InvalidParameter(2)`: the codeword limit of RS.ENCODE (R133). -/
def checkCodewordLength (nsym k : Nat) : Except Cause Unit :=
  if Config.nMax < nsym + k then .error .lenRange else .ok ()

/-- `if POS[i] >= b then raise InvalidParameter(7)` for every listed position (R172, R173). -/
def checkPositions (positions : List Byte) (n : Nat) : Except Cause Unit :=
  if positions.any fun p => decide (n ≤ p.toNat) then .error .posRange else .ok ()

/-- `if a > 127 then raise InvalidParameter(8)` (R193). -/
def checkCount (count : Nat) : Except Cause Unit := if Config.tMax < count then .error .countRange else .ok ()

/-- The nine address spaces: seven data buffers and two tables (20_memory R60). -/
inductive Space where
  | data (b : Buf)
  | exp
  | log
  deriving DecidableEq, Repr

/-- The space a buffer id names (10_state R36); ids 9..255 name none (20_memory R64). -/
def Space.ofId : Nat → Option Space
  | 0 => some (.data .cw)
  | 1 => some (.data .syn)
  | 2 => some (.data .loc)
  | 3 => some (.data .omg)
  | 4 => some (.data .pos)
  | 5 => some (.data .mag)
  | 6 => some (.data .gen)
  | 7 => some .exp
  | 8 => some .log
  | _ => none

/-- The number of entries of a space (10_state R36). -/
def Space.size : Space → Nat
  | .data b => b.size
  | .exp => Config.expLen
  | .log => Config.logLen

/-- `if c > 8 then raise InvalidParameter(3)` (R191, R192). -/
def selectSpace (id : Nat) : Except Cause Space :=
  match Space.ofId id with
  | some sp => .ok sp
  | none => .error .bufId

/-- The data buffer to be written: `if c == 7 or c == 8 then raise InvalidParameter(6)` (R192). -/
def writable : Space → Except Cause Buf
  | .data b => .ok b
  | .exp => .error .bufReadonly
  | .log => .error .bufReadonly

/-- The data buffer a POLY command evaluates: `if c > 8 or c == 7 or c == 8 then raise InvalidParameter(3)` (R122). -/
def evaluable (id : Nat) : Except Cause Buf :=
  match Space.ofId id with
  | some (.data b) => .ok b
  | some .exp => .error .bufId
  | some .log => .error .bufId
  | none => .error .bufId

/-- `if idx >= size(c) then raise InvalidParameter(4)` (R191, R192). -/
def checkIndex (size idx : Nat) : Except Cause Unit := if size ≤ idx then .error .bufIndex else .ok ()

/-- `if b > size(c) then raise InvalidParameter(8)` (R122, R123). -/
def checkEvalLength (b : Buf) (len : Nat) : Except Cause Unit := if b.size < len then .error .countRange else .ok ()

/-- The byte at an index of a space; `none` only for `LOG[0]`, which has no value (10_state R32). -/
def State.readSpace (s : State) : Space → Nat → Option Byte
  | .data b, idx => some (s.readByte b idx)
  | .exp, idx => some (expAt idx)
  | .log, idx => (logAt idx).map (BitVec.ofNat 8)

/-- The last check of BUF.RD with the read it guards: `if c == 8 and idx == 0 then raise InvalidParameter(5)` (R191). -/
def State.fetchByte (s : State) (sp : Space) (idx : Nat) : Except Cause Byte :=
  match s.readSpace sp idx with
  | some v => .ok v
  | none => .error .logZero

/-- `POS[0..NPOS-1]`. -/
def State.listedPositions (s : State) : List Byte := s.pos.slice s.npos.toNat

/-- `MAG[0..NPOS-1]`. -/
def State.listedMagnitudes (s : State) : List Byte := s.mag.slice s.npos.toNat

end Sys2Proof.Machine
end

