-- ==== Sys2Proof/Machine/Field.lean ====
section
/-!
DEFINITION. GF(2^8) arithmetic (40_gf_arithmetic): the four functions of R101 to R104 and the commands GF.MUL, GF.DIV,
GF.INV, GF.POW.
-/

namespace Sys2Proof.Machine

/-- `LOG[a]` of a field element; `none` exactly at zero (10_state R32). -/
def gfLog (a : Byte) : Option Nat := logAt a.toNat

/-- `gf_mul(a, b)` (R101): 0 if an operand is 0, which is where LOG has no value; else
`EXP[(LOG[a] + LOG[b]) mod 255]`. -/
def gfMul (a b : Byte) : Byte :=
  match gfLog a, gfLog b with
  | some i, some j => expAt ((i + j) % 255)
  | _, _ => 0

/-- `gf_inv(a)` (R103): `EXP[255 - LOG[a]]`; `none` stands for the DivisionByZero raise at 0, whose INFO the caller
gives (R102). -/
def gfInv (a : Byte) : Option Byte :=
  match gfLog a with
  | some i => some (expAt (255 - i))
  | none => none

/-- `gf_div(a, b)` (R102): the divisor is tested first; `none` stands for the DivisionByZero raise, whose INFO the caller
gives (1 in GF.DIV, 2 in RS.FORNEY). -/
def gfDiv (a b : Byte) : Option Byte :=
  match gfInv b with
  | none => none
  | some ib => if a = 0 then some 0 else some (gfMul a ib)

/-- `gf_pow(a, e)` (R104): 1 if `e = 0`; else 0 if `a = 0`; else `EXP[(LOG[a] * e) mod 255]`. -/
def gfPow (a : Byte) (e : Nat) : Byte :=
  if e = 0 then 1
  else
    match gfLog a with
    | some i => expAt ((i * e) % 255)
    | none => 0

/-- The quotient or inverse, or the raise with INFO 1 (R102, R103). -/
def orDivisionByZero (v : Option Byte) : Except Cause Byte :=
  match v with
  | some x => .ok x
  | none => .error .operand

/-- `R <- v`. -/
def State.setR (s : State) (v : Byte) : State := { s with r := v }

/-- GF.MUL (R105). -/
def execGfMul (a b : Byte) (s : State) : Result := s.commit (.ok (s.setR (gfMul a b)))

/-- GF.DIV (R106). -/
def execGfDiv (a b : Byte) (s : State) : Result :=
  s.commit do
    let q ← orDivisionByZero (gfDiv a b)
    return s.setR q

/-- GF.INV (R107). -/
def execGfInv (a : Byte) (s : State) : Result :=
  s.commit do
    let v ← orDivisionByZero (gfInv a)
    return s.setR v

/-- GF.POW (R108). -/
def execGfPow (base : Byte) (exp : Nat) (s : State) : Result := s.commit (.ok (s.setR (gfPow base exp)))

end Sys2Proof.Machine
end

