-- ==== Sys2Proof/Machine/Poly.lean ====
section
/-!
DEFINITION. The polynomial evaluator (41_polynomial): R120, R121 and the commands POLY.EVAL, POLY.EVALD. A polynomial is
the list of its coefficients, lowest power first (00_scope R11).
-/

namespace Sys2Proof.Machine

/-- `poly_eval(p, L, x)` on the list `p[0..L-1]` (R120): Horner's rule from the highest index down. -/
def polyEval (p : List Byte) (x : Byte) : Byte := p.foldr (fun c r => gfMul r x ^^^ c) 0

/-- The loop of R121 from the highest index down to the one whose parity is `odd`. -/
def derivFrom (x : Byte) : Bool → List Byte → Byte
  | _, [] => 0
  | odd, c :: cs => gfMul (derivFrom x (!odd) cs) x ^^^ (if odd then c else 0)

/-- `poly_evald(p, L, x)` on the list `p[0..L-1]` (R121): the loop stops at index 1, so `p[0]` never contributes. -/
def polyEvald (p : List Byte) (x : Byte) : Byte := derivFrom x true p.tail

/-- `deg(p)` (00_scope R11): the largest index with a nonzero coefficient, -1 for the zero polynomial. -/
def polyDeg : List Byte → Int
  | [] => -1
  | c :: cs => if 0 ≤ polyDeg cs then polyDeg cs + 1 else if c = 0 then -1 else 0

/-- A coefficient array of exactly `n` entries: zero-extended, entries at `n` and above left off. -/
def fitTo (n : Nat) (p : List Byte) : List Byte := (p ++ List.replicate n 0).take n

/-- Field addition of two arrays of one length (00_scope R8, R100). -/
def xorList (p q : List Byte) : List Byte := List.zipWith (fun a b => a ^^^ b) p q

/-- `W[j] = W[j] ^ gf_mul(factor, G[j])` for every `j` with an entry in both arrays; the other entries of `W` stay. -/
def addScaled (factor : Byte) : List Byte → List Byte → List Byte
  | [], _ => []
  | w :: ws, [] => w :: ws
  | w :: ws, g :: gs => (w ^^^ gfMul factor g) :: addScaled factor ws gs

/-- `W[i+j] = W[i+j] ^ gf_mul(factor, G[j])` for every `j`: the inner loop of R130, R132, R150 and R151. -/
def addScaledAt (w : List Byte) (i : Nat) (factor : Byte) (g : List Byte) : List Byte :=
  w.take i ++ addScaled factor (w.drop i) g

/-- POLY.EVAL (R122). -/
def execPolyEval (buf : Nat) (x : Byte) (len : Nat) (s : State) : Result :=
  s.commit do
    let b ← evaluable buf
    checkEvalLength b len
    return s.setR (polyEval ((s.buf b).slice len) x)

/-- POLY.EVALD (R123). -/
def execPolyEvald (buf : Nat) (x : Byte) (len : Nat) (s : State) : Result :=
  s.commit do
    let b ← evaluable buf
    checkEvalLength b len
    return s.setR (polyEvald ((s.buf b).slice len) x)

end Sys2Proof.Machine
end

