-- ==== Sys2Proof/Machine/Encoder.lean ====
section
/-!
DEFINITION. The systematic encoder (42_encoder): the generator R130, the division sweep R132, and the commands RS.GEN,
RS.ENCODE. The source's literal sweep is not the rule (R135, 90_conflicts C5).
-/

namespace Sys2Proof.Machine

/-- One pass of R130: multiply `G` by `1 + r x` in place, `G[j] = G[j] ^ gf_mul(G[j-1], r)` from the top down. -/
def mulLinear (g : List Byte) (r : Byte) : List Byte := addScaledAt g 1 r g

/-- `rs_gen(nsym)` (R130): `G[0..nsym]`, lowest power first. -/
def rsGen (nsym : Nat) : List Byte :=
  (List.range nsym).foldl (fun g i => mulLinear g (expAt ((255 - i) % 255))) (fitTo (nsym + 1) [1])

/-- One pass of the outer loop of R132, at message position `i`. -/
def sweepStep (g : List Byte) (w : List Byte) (i : Nat) : List Byte :=
  let factor := w.getD i 0
  if factor = 0 then w else addScaledAt w i factor g

/-- The working array of R132 after the sweep over the message positions. -/
def sweep (m : List Byte) (g : List Byte) (nsym : Nat) : List Byte :=
  (List.range m.length).foldl (sweepStep g) (m ++ List.replicate nsym 0)

/-- `rs_parity(m, k, G, nsym)` with `k` the length of `m` (R132): `W[k..k+nsym-1]` after the sweep. -/
def rsParity (m : List Byte) (g : List Byte) (nsym : Nat) : List Byte := (sweep m g nsym).drop m.length

/-- `GEN <- G`, zero-filled (R131, R133). -/
def State.storeGenerator (s : State) (g : List Byte) : State := { s with gen := zeroFilled .gen g }

/-- RS.GEN (R131). -/
def execRsGen (nsym : Nat) (s : State) : Result :=
  s.commit do
    checkNsym nsym
    return s.storeGenerator (rsGen nsym)

/-- RS.ENCODE (R133): the parity goes to `CW[k..k+nsym-1]`; the message and the bytes above stay. -/
def execRsEncode (nsym k : Nat) (s : State) : Result :=
  s.commit do
    checkNsym nsym
    checkCodewordLength nsym k
    let g := rsGen nsym
    let t := s.storeGenerator g
    return { t with cw := t.cw.writeFrom k (rsParity (s.cw.slice k) g nsym) }

end Sys2Proof.Machine
end

