-- ==== Sys2Proof/Machine/Flags.lean ====
section
/-!
DEFINITION. The flag register (10_state R27): its byte view and the computation of SZ. There are no carry, overflow, sign
or zero condition codes, and no command writes RDY.
-/

namespace Sys2Proof.Machine

/-- FLAGS as the host reads it: bit 0 SZ, bit 1 RDY, bits 7..2 zero (R27). -/
def Flags.toByte (f : Flags) : Byte := (if f.sz then 1 else 0) ||| (if f.rdy then 2 else 0)

/-- The value a syndrome computation gives SZ: 1 when all the syndromes it computed are zero (R27, R141). -/
def allZero (syndromes : List Byte) : Bool := syndromes.all fun v => decide (v = 0)

/-- `FLAGS.SZ <- v`; RDY is kept (R27). -/
def State.setSz (s : State) (v : Bool) : State := { s with flags := { s.flags with sz := v } }

end Sys2Proof.Machine
end

