-- ==== Sys2Proof/Machine/Syndrome.lean ====
section
/-!
DEFINITION. The syndrome calculator (43_syndrome): R140 and the command RS.SYND.
-/

namespace Sys2Proof.Machine

/-- The inner loop of R140 for syndrome `i`, from word position `j` with the sum `acc` so far:
`s = s ^ gf_mul(c[j], EXP[(i*j) mod 255])`. -/
def syndromeFrom (i : Nat) : Nat → Byte → List Byte → Byte
  | _, acc, [] => acc
  | j, acc, c :: cs => syndromeFrom i (j + 1) (acc ^^^ gfMul c (expAt ((i * j) % 255))) cs

/-- `rs_synd(c, n, nsym)` on the word `c[0..n-1]` (R140): `S[0..nsym-1]`. -/
def rsSynd (c : List Byte) (nsym : Nat) : List Byte := (List.range nsym).map fun i => syndromeFrom i 0 0 c

/-- `SYN <- S`, zero-filled, and `FLAGS.SZ` (R141). -/
def State.storeSyndromes (s : State) (syndromes : List Byte) : State :=
  { s with syn := zeroFilled .syn syndromes }.setSz (allZero syndromes)

/-- RS.SYND (R141). -/
def execRsSynd (nsym n : Nat) (s : State) : Result :=
  s.commit do
    checkNsym nsym
    checkWordLength nsym n
    return s.storeSyndromes (rsSynd (s.cw.slice n) nsym)

end Sys2Proof.Machine
end

