-- ==== Sys2Proof/Machine/Locator.lean ====
section
/-!
DEFINITION. The error locator (44_locator): polynomial division R150 and product R151, the key-equation solver R152, the
Chien search R154, and the commands RS.KEYEQ, RS.CHIEN, RS.LOCATE.
-/

namespace Sys2Proof.Machine

/-- The loop of R150, with the inverse `lb` of the leading coefficient of `b`. Each pass lowers `deg(rem)`, so `deg(a) -
deg(b) + 1` passes are enough; the first argument bounds them (log entry 16). -/
def divmodLoop (b : List Byte) (lb : Byte) : Nat → List Byte → List Byte → List Byte × List Byte
  | 0, q, rem => (q, rem)
  | fuel + 1, q, rem =>
    if polyDeg rem < polyDeg b then (q, rem)
    else
      let dr := (polyDeg rem).toNat
      let db := (polyDeg b).toNat
      let coef := gfMul (rem.getD dr 0) lb
      divmodLoop b lb fuel (q.set (dr - db) coef) (addScaledAt rem (dr - db) coef (b.take (db + 1)))

/-- `poly_divmod(a, b, L)` with `L` the length of `a` and `deg(b) >= 0` (R150): quotient and remainder. -/
def polyDivmod (a b : List Byte) : List Byte × List Byte :=
  match gfInv (b.getD (polyDeg b).toNat 0) with
  | some lb => divmodLoop b lb a.length (List.replicate a.length 0) a
  | none => (List.replicate a.length 0, a)

/-- The outer loop of R151 from index `i` of `a` on, over the array `r` of the low coefficients. -/
def mulTruncFrom (b : List Byte) : Nat → List Byte → List Byte → List Byte
  | _, [], r => r
  | i, c :: cs, r => mulTruncFrom b (i + 1) cs (addScaledAt r i c b)

/-- `poly_mul_trunc(a, La, b, Lb, L)` on the lists `a` and `b` (R151): the low `L` coefficients of the product. -/
def polyMulTrunc (a b : List Byte) (len : Nat) : List Byte := mulTruncFrom b 0 a (List.replicate len 0)

/-- The four arrays of the loop of R152. -/
structure Euclid where
  rp : List Byte
  rc : List Byte
  up : List Byte
  uc : List Byte
  deriving DecidableEq, Repr

/-- The arrays before the loop of R152: `r_prev = x^nsym`, `r_cur = S(x)`, `u_prev = 0`, `u_cur = 1`. -/
def euclidStart (syndromes : List Byte) (nsym : Nat) : Euclid :=
  { rp := List.replicate nsym 0 ++ [1], rc := fitTo (nsym + 1) syndromes,
    up := List.replicate (nsym + 1) 0, uc := fitTo (nsym + 1) [1] }

/-- One pass of the loop of R152. -/
def euclidPass (nsym : Nat) (e : Euclid) : Euclid :=
  let (q, rem) := polyDivmod e.rp e.rc
  { rp := e.rc, rc := rem, up := e.uc, uc := xorList e.up (polyMulTrunc q e.uc (nsym + 1)) }

/-- The loop of R152: `while 2 * deg(rc) >= nsym`. At most `ceil(nsym/2)` passes are made (R156 (c)); the first argument
bounds them (log entry 16). -/
def euclidLoop (nsym : Nat) : Nat → Euclid → Euclid
  | 0, e => e
  | fuel + 1, e => if 2 * polyDeg e.rc < (nsym : Int) then e else euclidLoop nsym fuel (euclidPass nsym e)

/-- `rs_keyeq(S, nsym)` (R152): the locator `LAM[0..nsym]`, scaled to `LAM[0] = 1`, or the raise. -/
def rsKeyeq (syndromes : List Byte) (nsym : Nat) : Except Cause (List Byte) :=
  let uc := (euclidLoop nsym nsym (euclidStart syndromes nsym)).uc
  match gfInv (uc.getD 0 0) with
  | some f => .ok (uc.map fun c => gfMul f c)
  | none => .error .locatorConstZero

/-- The candidate `p` of R154: the position `LOG[p]` when `EXP[(255 - LOG[p]) mod 255]` is a root of the locator. -/
def chienCandidate (lam : List Byte) (p : Nat) : Option Nat :=
  match logAt p with
  | some j => if polyEval lam (expAt ((255 - j) % 255)) = 0 then some j else none
  | none => none

/-- The list `found` of R154: the candidates `p = 1` to `255` in that order. -/
def chienFound (lam : List Byte) : List Nat := (List.range' 1 255).filterMap (chienCandidate lam)

/-- `rs_chien(LAM, nsym, n)` (R154): the error positions, or the first of the three raises that applies. -/
def rsChien (lam : List Byte) (nsym n : Nat) : Except Cause (List Nat) :=
  let found := chienFound lam
  if found.any fun j => decide (n ≤ j) then .error .rootOutside
  else if (found.length : Int) ≠ polyDeg lam then .error .rootCount
  else if nsym / 2 < found.length then .error .tooMany
  else .ok found

/-- `LOC <- LAM`: the first 128 entries, zero-filled (R153, R157). -/
def State.storeLocator (s : State) (lam : List Byte) : State := { s with loc := zeroFilled .loc lam }

/-- `POS <- found`, zero-filled, and `NPOS <- length(found)` (R155). -/
def State.storePositions (s : State) (found : List Nat) : State :=
  { s with pos := zeroFilled .pos (found.map (BitVec.ofNat 8)), npos := BitVec.ofNat 8 found.length }

/-- RS.KEYEQ (R153). -/
def execRsKeyeq (nsym : Nat) (s : State) : Result :=
  s.commit do
    checkNsym nsym
    let lam ← rsKeyeq (s.syn.slice nsym) nsym
    return s.storeLocator lam

/-- RS.CHIEN (R155). -/
def execRsChien (nsym n : Nat) (s : State) : Result :=
  s.commit do
    checkNsym nsym
    checkWordLength nsym n
    let found ← rsChien (s.loc.slice 128) nsym n
    return s.storePositions found

/-- RS.LOCATE (R157): the solver, then the root search, with one commit. -/
def execRsLocate (nsym n : Nat) (s : State) : Result :=
  s.commit do
    checkNsym nsym
    checkWordLength nsym n
    let lam ← rsKeyeq (s.syn.slice nsym) nsym
    let found ← rsChien (fitTo 128 lam) nsym n
    return (s.storeLocator lam).storePositions found

end Sys2Proof.Machine
end

