-- ==== Sys2Proof/Machine/Corrector.lean ====
section
/-!
DEFINITION. The error corrector (45_corrector): the evaluator polynomial R171, the Forney magnitudes R172, the correction
loop R173, the decoder R175 with its fast path R176 and verify stage R177, and the commands RS.FORNEY, RS.APPLY,
RS.CORRECT, RS.DECODE.
-/

namespace Sys2Proof.Machine

/-- `OM[0..nsym-1] = poly_mul_trunc(S, nsym, LAM, 128, nsym)` (R171). -/
def evaluatorPoly (syndromes lam : List Byte) (nsym : Nat) : List Byte := polyMulTrunc syndromes lam nsym

/-- The body of the loop of R172 for position `j`: `gf_div(X * Ω(root), Λ'(root))`, or DivisionByZero(2). -/
def forneyMagnitude (om lam : List Byte) (j : Nat) : Except Cause Byte :=
  let x := expAt j
  let root := expAt ((255 - j) % 255)
  let den := polyEvald lam root
  let num := gfMul x (polyEval om root)
  match gfDiv num den with
  | some m => .ok m
  | none => .error .forneyDen

/-- The loop of R172 over the listed positions, in order; the first zero denominator decides. -/
def forneyMagnitudes (om lam : List Byte) : List Nat → Except Cause (List Byte)
  | [] => .ok []
  | j :: js => do
    let m ← forneyMagnitude om lam j
    let ms ← forneyMagnitudes om lam js
    return m :: ms

/-- The second loop of R173, in sequence: `CW[POS[i]] <- CW[POS[i]] ^ MAG[i]`. -/
def applyMagnitudes : Memory → List Nat → List Byte → Memory
  | cw, j :: js, m :: ms => applyMagnitudes (cw.write j (cw.read j ^^^ m)) js ms
  | cw, [], _ => cw
  | cw, _, [] => cw

/-- `OMG <- OM` and `MAG <- M`, zero-filled (R172). -/
def State.storeMagnitudes (s : State) (om ms : List Byte) : State :=
  { s with omg := zeroFilled .omg om, mag := zeroFilled .mag ms }

/-- The pseudocode of RS.FORNEY up to and including its buffer writes (R172), which RS.CORRECT runs too (R174). -/
def forneyStage (s : State) (nsym n : Nat) : Except Cause State := do
  checkNsym nsym
  checkWordLength nsym n
  checkPositions s.listedPositions n
  let syndromes := rsSynd (s.cw.slice n) nsym
  let lam := s.loc.slice 128
  let om := evaluatorPoly syndromes lam nsym
  let ms ← forneyMagnitudes om lam (s.listedPositions.map BitVec.toNat)
  return (s.storeSyndromes syndromes).storeMagnitudes om ms

/-- The state with the listed magnitudes applied to CW (R173). -/
def State.applyListed (s : State) : State :=
  { s with cw := applyMagnitudes s.cw (s.listedPositions.map BitVec.toNat) s.listedMagnitudes }

/-- RS.FORNEY (R172). -/
def execRsForney (nsym n : Nat) (s : State) : Result := s.commit (forneyStage s nsym n)

/-- RS.APPLY (R173). -/
def execRsApply (n : Nat) (s : State) : Result :=
  s.commit do
    checkPositions s.listedPositions n
    return s.applyListed

/-- RS.CORRECT (R174). -/
def execRsCorrect (nsym n : Nat) (s : State) : Result :=
  s.commit do
    let t ← forneyStage s nsym n
    return t.applyListed

/-- What RS.DECODE commits on its zero-syndrome fast path (R176): SYN, SZ = 1, NPOS = 0. -/
def State.storeClean (s : State) (syndromes : List Byte) : State := { s.storeSyndromes syndromes with npos := 0 }

/-- The stages of RS.DECODE after a nonzero syndrome (R175): key equation, Chien search, Forney, and the verify stage on
the shadow copy `shadow` of CW (R177); then everything is committed. The shadow differs from CW only at found positions,
which are below `n` (log entry 15). -/
def decodeStages (s : State) (nsym n : Nat) (syndromes : List Byte) : Except Cause State := do
  let lam ← rsKeyeq syndromes nsym
  let found ← rsChien (fitTo 128 lam) nsym n
  let om := evaluatorPoly syndromes (fitTo 128 lam) nsym
  let ms ← forneyMagnitudes om (fitTo 128 lam) found
  let shadow := applyMagnitudes s.cw found ms
  if allZero (rsSynd (shadow.slice n) nsym) then
    let t := (((s.storeSyndromes syndromes).storeLocator lam).storePositions found).storeMagnitudes om ms
    return { t with cw := shadow }
  else .error .residual

/-- RS.DECODE (R175). -/
def execRsDecode (nsym n : Nat) (s : State) : Result :=
  s.commit do
    checkNsym nsym
    checkWordLength nsym n
    let syndromes := rsSynd (s.cw.slice n) nsym
    if allZero syndromes then return s.storeClean syndromes
    else decodeStages s nsym n syndromes

end Sys2Proof.Machine
end

