-- ==== Sys2Proof/Machine/HostAccess.lean ====
section
/-!
DEFINITION. The host access commands (46_host_access): NOP, BUF.RD, BUF.WR, SET.NPOS.
-/

namespace Sys2Proof.Machine

/-- NOP (R190): writes STATUS and INFO and nothing else. -/
def execNop (s : State) : Result := s.commit (.ok s)

/-- BUF.RD (R191). -/
def execBufRd (buf idx : Nat) (s : State) : Result :=
  s.commit do
    let sp ← selectSpace buf
    checkIndex sp.size idx
    let v ← s.fetchByte sp idx
    return s.setR v

/-- BUF.WR (R192). -/
def execBufWr (buf idx : Nat) (val : Byte) (s : State) : Result :=
  s.commit do
    let sp ← selectSpace buf
    let b ← writable sp
    checkIndex b.size idx
    return s.writeByte b idx val

/-- SET.NPOS (R193). -/
def execSetNpos (count : Nat) (s : State) : Result :=
  s.commit do
    checkCount count
    return { s with npos := BitVec.ofNat 8 count }

end Sys2Proof.Machine
end

