-- ==== Sys2Proof/Machine/Dispatch.lean ====
section
/-!
DEFINITION. The meaning of every command: one arm per constructor of `Instr`, one call of the command's own meaning.
-/

namespace Sys2Proof.Machine

def exec (i : Instr) (s : State) : Host.Outcome State Fault Refusal :=
  match i with
  -- 46_host_access
  | .nop => Sys2Proof.Machine.execNop s
  | .bufRd buf idx => Sys2Proof.Machine.execBufRd buf idx s
  | .bufWr buf idx val => Sys2Proof.Machine.execBufWr buf idx val s
  | .setNpos count => Sys2Proof.Machine.execSetNpos count s
  -- 40_gf_arithmetic
  | .gfMul a b => Sys2Proof.Machine.execGfMul a b s
  | .gfDiv a b => Sys2Proof.Machine.execGfDiv a b s
  | .gfInv a => Sys2Proof.Machine.execGfInv a s
  | .gfPow base exp => Sys2Proof.Machine.execGfPow base exp s
  -- 41_polynomial
  | .polyEval buf x len => Sys2Proof.Machine.execPolyEval buf x len s
  | .polyEvald buf x len => Sys2Proof.Machine.execPolyEvald buf x len s
  -- 42_encoder
  | .rsGen nsym => Sys2Proof.Machine.execRsGen nsym s
  | .rsEncode nsym k => Sys2Proof.Machine.execRsEncode nsym k s
  -- 43_syndrome
  | .rsSynd nsym n => Sys2Proof.Machine.execRsSynd nsym n s
  -- 44_locator
  | .rsKeyeq nsym => Sys2Proof.Machine.execRsKeyeq nsym s
  | .rsChien nsym n => Sys2Proof.Machine.execRsChien nsym n s
  | .rsLocate nsym n => Sys2Proof.Machine.execRsLocate nsym n s
  -- 45_corrector
  | .rsForney nsym n => Sys2Proof.Machine.execRsForney nsym n s
  | .rsApply n => Sys2Proof.Machine.execRsApply n s
  | .rsCorrect nsym n => Sys2Proof.Machine.execRsCorrect nsym n s
  | .rsDecode nsym n => Sys2Proof.Machine.execRsDecode nsym n s

end Sys2Proof.Machine
end

