-- ==== Sys2Proof/Machine/Engine.lean ====
section
/-!
DEFINITION. What the engine does with one host input (10_state R20, R28; 70_reset R230, R232).
-/

namespace Sys2Proof.Machine

/-- A command word is issued. While `FLAGS.RDY = 0` it is dropped: not executed, then or later, and nothing is written
(70_reset R232). Otherwise it is decoded first (60_exceptions R205); a word that is no command raises IllegalCommand
(30_encoding R85, R86). -/
def issue (w : Word) (s : State) : Result :=
  if s.flags.rdy then
    match decodeWord w with
    | .ok i => exec i s
    | .error e => .next (s.raise (causeOfIllegal e))
  else .next s

/-- One host input is served. -/
def serve (h : HostInput) (s : State) : Result :=
  match h with
  | .issue w => issue w s
  | .assertReset => .next s.beginReset
  | .finishReset => .next s.endReset

/-- One step: the next host input is taken off the port and served; with none the engine is idle and keeps its state
(60_exceptions R216; log entry 3). -/
def serveNext (s : State) : Result :=
  match s.nextInput with
  | some (h, t) => serve h t
  | none => .next s

/-- `s` with a command word put first on the port and `FLAGS.RDY = 1`, which is what the sampling of the port takes
(70_reset R232): log entry 11. -/
def State.present (s : State) (w : Word) : State :=
  { s with port := .issue w :: s.port, flags := { s.flags with rdy := true } }

/-- The word whose low `nbits` bits are `w`, every bit above being zero. -/
def tableWord (nbits w : Nat) : Word := BitVec.ofNat 32 (w % 2 ^ nbits)

end Sys2Proof.Machine
end

