-- ==== Sys2Proof/Machine/Step.lean ====
section
/-!
DEFINITION. The step of the machine and the placing of an instruction before it.
-/

namespace Sys2Proof.Machine

/-- One step: one host input is served to completion, as one atomic step (20_memory R63, R66). -/
def step (s : State) : Host.Outcome State Fault Refusal := serveNext s

/-- The state whose very next step runs the instruction whose bits are `w`: the host has presented the command word
(log entries 2 and 11). -/
def State.withFetchWord (s : State) (nbits w : Nat) : State := s.present (tableWord nbits w)

end Sys2Proof.Machine
end

