-- ==== Sys2Proof/Machine/HostPort.lean ====
section
/-!
DEFINITION. The register ports (10_state R22, R28): what the host reads between commands. A read changes nothing
(20_memory R63), so it is a function of the state and no input of the step.
-/

namespace Sys2Proof.Machine

/-- The ports of R28: the command port, which the host writes, and the five register ports, which it reads. -/
inductive HostPort where
  | command | r | status | info | npos | flags
  deriving DecidableEq, Repr

/-- The byte the host reads at a register port (R22 to R27); the command port is an input and has none (R28). -/
def State.readPort (s : State) : HostPort → Option Byte
  | .command => none
  | .r => some s.r
  | .status => some s.status.code
  | .info => some s.info
  | .npos => some s.npos
  | .flags => some s.flags.toByte

/-- The register ports. -/
def HostPort.registers : List HostPort := [.r, .status, .info, .npos, .flags]

/-- A bus read, for a platform whose parameter `PORT_MAP` (00_scope R7, 10_state R28) gives each port its address:
`none` where no register port stands (log entry 8). 20_memory R64 leaves it to the platform whether
the buffers are on the bus too: in the model they are not, and a host reaches them by BUF.RD and BUF.WR only (DESIGN CHOICE,
log entry 24). -/
def State.busRead (portMap : HostPort → Nat) (s : State) (address : Nat) : Option Byte :=
  match HostPort.registers.find? fun p => portMap p == address with
  | some p => s.readPort p
  | none => none

end Sys2Proof.Machine
end

