-- ==== Sys2Proof/Machine/Platform.lean ====
section
/-!
DEFINITION. Several engines on one platform (20_memory R68, 60_exceptions R217): each is a complete RSCORE with its own
registers, buffers and command port; they share the constant tables and nothing else. No order between engines is given,
so a step names the engine that moves (log entry 9).
-/

namespace Sys2Proof.Machine

/-- The engines of a platform. -/
structure Platform where
  engines : List State
  deriving DecidableEq, Repr

/-- Every engine leaves reset the same way (R217); `nEngines` is the parameter `N_ENGINES`, default 1 (00_scope R7). -/
def Platform.reset (nEngines : Nat := 1) : Platform := { engines := List.replicate nEngines State.reset }

/-- Engine `k` makes one step; a number that names no engine moves nothing. -/
def Platform.stepEngine (p : Platform) (k : Nat) : Host.Outcome Platform Fault Refusal :=
  match p.engines[k]? with
  | none => .next p
  | some s =>
    match step s with
    | .next t => .next { engines := p.engines.set k t }
    | .fault f => .fault f
    | .refused r => .refused r

end Sys2Proof.Machine
end

