-- ==== Sys2Proof/Safety.lean ====
section
/-!
DEFINITION. What claims call a good state and a good answer: the invariant every step keeps, and the legal pairs of
STATUS and INFO.
-/

namespace Sys2Proof.Machine

/-- A (STATUS, INFO) pair of 60_exceptions R201, or (0, 0): "Every (STATUS, INFO) pair not in this table and not (0, 0)
never occurs". -/
def legalOutcome (status : Status) (info : Byte) : Bool :=
  (decide (status = .ok) && decide (info = 0)) ||
    Cause.all.any fun c => decide (c.status = status) && decide (c.info = info)

/-- The states of a running machine: every data buffer is canonical and inside its size (10_state R36), NPOS is at most
127 (R26), and STATUS with INFO is a pair of R201. -/
def State.wf (s : State) : Bool :=
  Buf.all.all (fun b => (s.buf b).wf b.size) && decide (s.npos.toNat ≤ Config.tMax) && legalOutcome s.status s.info

/-- The answer is a next state and it satisfies `p`. -/
def Answers (r : Result) (p : State → Bool) : Bool :=
  match r with
  | .next t => p t
  | .fault _ => false
  | .refused _ => false

end Sys2Proof.Machine
end

