-- ==== Sys2Proof/Certificates/Slice0/Obligations.lean ====
section
/-!
DEFINITION. The statements about RSCORE, for the provers. Each docstring names the rule of spec/ it formalises. A state
hypothesis `s.wf` is the invariant of `StepKeepsTheInvariant`; it is used only where a byte of a buffer written by a
single-byte write is read back.
-/

namespace Sys2Proof.Claims

open Sys2Proof Sys2Proof.Machine

/-! ### Shapes of statements -/

/-- On a ready engine, issuing the word is running the instruction. -/
def WordRuns (w : Word) (i : Instr) : Prop := ∀ s : State, s.flags.rdy = true → issue w s = exec i s

/-- The answer is the state with STATUS and INFO as given and everything else as before. -/
def Fails (r : Result) (s : State) (status : Status) (info : Byte) : Prop :=
  r = .next { s with status := status, info := info }

/-- On a ready engine, a word with this opcode whose operand bytes are `bad` raises IllegalCommand(2). -/
def ReservedFieldRaises (op : Byte) (bad : Byte → Byte → Byte → Prop) : Prop :=
  ∀ (a b c : Byte) (s : State), s.flags.rdy = true → bad a b c →
    Fails (issue (mkWord op a b c) s) s .illegalCommand 2

/-- The nsym check of every RS command that has it: 0 and everything above 254 raise InvalidParameter(1). -/
def NsymRangeRaises (i : Nat → Instr) : Prop :=
  ∀ (nsym : Nat) (s : State), nsym = 0 ∨ 254 < nsym → Fails (exec (i nsym) s) s .invalidParameter 1

/-- The XOR of a list of bytes. -/
def xorAll (l : List Byte) : Byte := l.foldr (fun a b => a ^^^ b) 0

/-- `α^(-j)`, the root that belongs to word position `j` (45_corrector R172). -/
def rootOf (j : Nat) : Byte := expAt ((255 - j) % 255)

/-! ### Independent descriptions the model is compared with -/

/-- `a` times x, as polynomials over GF(2), reduced modulo 0x11D. -/
def timesX (a : Byte) : Byte := if a.getLsbD 7 then (a <<< 1) ^^^ 0x1D else a <<< 1

/-- The product of two polynomials over GF(2) modulo 0x11D, by shift and add over the low `n` bits of `b`, from the
highest of them down. -/
def shiftAddProduct (a b : Byte) : Nat → Byte
  | 0 => 0
  | n + 1 => timesX (shiftAddProduct a (b >>> 1) n) ^^^ (if b.getLsbD 0 then a else 0)

/-- `1 * a * a * ... * a` with `e` factors. -/
def repeatedProduct (a : Byte) : Nat → Byte
  | 0 => 1
  | e + 1 => gfMul (repeatedProduct a e) a

/-- The sum over `i` of `p[i] x^i`, term by term. -/
def powerSum (p : List Byte) (x : Byte) : Byte :=
  xorAll ((List.range p.length).map fun i => gfMul (p.getD i 0) (repeatedProduct x i))

/-- The sum over odd `i` of `p[i] x^(i-1)`, term by term. -/
def oddPowerSum (p : List Byte) (x : Byte) : Byte :=
  xorAll ((List.range p.length).map fun i =>
    if i % 2 = 1 then gfMul (p.getD i 0) (repeatedProduct x (i - 1)) else 0)

/-- The coefficient of `x^m` in the product of two polynomials. -/
def productCoeff (a b : List Byte) (m : Nat) : Byte :=
  xorAll ((List.range (m + 1)).map fun i => gfMul (a.getD i 0) (b.getD (m - i) 0))

/-! ### Tables of the spec: who reads and writes what (10_state R39), who raises what (60_exceptions R201) -/

/-- The commands that write R (10_state R23). -/
def writesR : Instr → Bool
  | .bufRd _ _ | .gfMul _ _ | .gfDiv _ _ | .gfInv _ | .gfPow _ _ | .polyEval _ _ _ | .polyEvald _ _ _ => true
  | _ => false

/-- The commands that write NPOS (10_state R26). -/
def writesNpos : Instr → Bool
  | .setNpos _ | .rsChien _ _ | .rsLocate _ _ | .rsDecode _ _ => true
  | _ => false

/-- The commands that write FLAGS.SZ (10_state R27). -/
def writesSz : Instr → Bool
  | .rsSynd _ _ | .rsForney _ _ | .rsCorrect _ _ | .rsDecode _ _ => true
  | _ => false

/-- Byte `j` of buffer `b` is in the "writes on success" column of R39 for this command, `t` being the state after it
(which lists the positions a CW correction goes to, and whose SZ says whether RS.DECODE took the fast path). -/
def writesByte (i : Instr) (t : State) (b : Buf) (j : Nat) : Bool :=
  match i, b with
  | .bufWr buf idx _, b => decide (Space.ofId buf = some (.data b)) && decide (j = idx)
  | .rsGen _, .gen => true
  | .rsEncode _ _, .gen => true
  | .rsEncode nsym k, .cw => decide (k ≤ j) && decide (j < k + nsym)
  | .rsSynd _ _, .syn => true
  | .rsKeyeq _, .loc => true
  | .rsChien _ _, .pos => true
  | .rsLocate _ _, .loc => true
  | .rsLocate _ _, .pos => true
  | .rsForney _ _, .syn => true
  | .rsForney _ _, .omg => true
  | .rsForney _ _, .mag => true
  | .rsApply _, .cw => t.listedPositions.any fun p => decide (p.toNat = j)
  | .rsCorrect _ _, .syn => true
  | .rsCorrect _ _, .omg => true
  | .rsCorrect _ _, .mag => true
  | .rsCorrect _ _, .cw => t.listedPositions.any fun p => decide (p.toNat = j)
  | .rsDecode _ _, .syn => true
  | .rsDecode _ _, .loc => !t.flags.sz
  | .rsDecode _ _, .pos => !t.flags.sz
  | .rsDecode _ _, .omg => !t.flags.sz
  | .rsDecode _ _, .mag => !t.flags.sz
  | .rsDecode _ _, .cw => t.listedPositions.any fun p => decide (p.toNat = j)
  | _, _ => false

/-- The contents of the "reads" column of R39. -/
def readContents (i : Instr) (s : State) : List (List Byte) :=
  match i with
  | .bufRd buf idx =>
    match Space.ofId buf with
    | some (.data b) => [[s.readByte b idx]]
    | _ => []
  | .polyEval buf _ len | .polyEvald buf _ len =>
    match Space.ofId buf with
    | some (.data b) => [(s.buf b).slice len]
    | _ => []
  | .rsEncode _ k => [s.cw.slice k]
  | .rsSynd _ n => [s.cw.slice n]
  | .rsKeyeq nsym => [s.syn.slice nsym]
  | .rsChien _ _ => [s.loc.slice 128]
  | .rsLocate nsym _ => [s.syn.slice nsym]
  | .rsForney _ n | .rsCorrect _ n => [s.cw.slice n, s.loc.slice 128, s.listedPositions, [s.npos]]
  | .rsApply _ =>
    [s.listedPositions, s.listedMagnitudes, [s.npos], s.listedPositions.map fun p => s.cw.read p.toNat]
  | .rsDecode _ n => [s.cw.slice n]
  | .nop | .bufWr _ _ _ | .setNpos _ | .gfMul _ _ | .gfDiv _ _ | .gfInv _ | .gfPow _ _ | .rsGen _ => []

/-- A flag as a byte. -/
def flagByte (v : Bool) : Byte := if v then 1 else 0

/-- The contents of the "writes on success" column of R39, in the state after the command. -/
def writtenContents (i : Instr) (t : State) : List (List Byte) :=
  match i with
  | .nop => []
  | .bufRd _ _ | .gfMul _ _ | .gfDiv _ _ | .gfInv _ | .gfPow _ _ | .polyEval _ _ _ | .polyEvald _ _ _ => [[t.r]]
  | .bufWr buf idx _ =>
    match Space.ofId buf with
    | some (.data b) => [[t.readByte b idx]]
    | _ => []
  | .setNpos _ => [[t.npos]]
  | .rsGen _ => [t.gen.slice 255]
  | .rsEncode nsym k => [t.gen.slice 255, (t.cw.slice (k + nsym)).drop k]
  | .rsSynd _ _ => [t.syn.slice 254, [flagByte t.flags.sz]]
  | .rsKeyeq _ => [t.loc.slice 128]
  | .rsChien _ _ => [t.pos.slice 127, [t.npos]]
  | .rsLocate _ _ => [t.loc.slice 128, t.pos.slice 127, [t.npos]]
  | .rsForney _ _ => [t.syn.slice 254, [flagByte t.flags.sz], t.omg.slice 254, t.mag.slice 127]
  | .rsApply _ => [t.listedPositions.map fun p => t.cw.read p.toNat]
  | .rsCorrect _ _ =>
    [t.syn.slice 254, [flagByte t.flags.sz], t.omg.slice 254, t.mag.slice 127,
      t.listedPositions.map fun p => t.cw.read p.toNat]
  | .rsDecode _ _ =>
    [t.syn.slice 254, [flagByte t.flags.sz], [t.npos]] ++
      if t.flags.sz then []
      else [t.loc.slice 128, t.pos.slice 127, t.omg.slice 254, t.mag.slice 127,
        t.listedPositions.map fun p => t.cw.read p.toNat]

/-- The causes a command can raise once its word is legal: the "raised by" column of R201. -/
def causesOf : Instr → List Cause
  | .nop => []
  | .bufRd _ _ => [.bufId, .bufIndex, .logZero]
  | .bufWr _ _ _ => [.bufId, .bufReadonly, .bufIndex]
  | .setNpos _ => [.countRange]
  | .gfMul _ _ => []
  | .gfDiv _ _ => [.operand]
  | .gfInv _ => [.operand]
  | .gfPow _ _ => []
  | .polyEval _ _ _ => [.bufId, .countRange]
  | .polyEvald _ _ _ => [.bufId, .countRange]
  | .rsGen _ => [.nsymRange]
  | .rsEncode _ _ => [.nsymRange, .lenRange]
  | .rsSynd _ _ => [.nsymRange, .lenRange]
  | .rsKeyeq _ => [.nsymRange, .locatorConstZero]
  | .rsChien _ _ => [.nsymRange, .lenRange, .rootOutside, .rootCount, .tooMany]
  | .rsLocate _ _ => [.nsymRange, .lenRange, .locatorConstZero, .rootOutside, .rootCount, .tooMany]
  | .rsForney _ _ => [.nsymRange, .lenRange, .posRange, .forneyDen]
  | .rsApply _ => [.posRange]
  | .rsCorrect _ _ => [.nsymRange, .lenRange, .posRange, .forneyDen]
  | .rsDecode _ _ => [.nsymRange, .lenRange, .locatorConstZero, .rootOutside, .rootCount, .tooMany, .residual]

end Sys2Proof.Claims

open Sys2Proof Sys2Proof.Machine Sys2Proof.Claims

/-! ### Host access (46_host_access) -/

/-- R190. NOP writes STATUS = 0 and INFO = 0 and nothing else; the only legal NOP is the all-zero word. -/
def Obligations.NopClearsOnlyTheOutcome : Prop :=
  WordRuns 0x00000000 .nop ∧
  (∀ s : State, exec .nop s = .next { s with status := .ok, info := 0 }) ∧
  ReservedFieldRaises 0x00 (fun a b c => a ≠ 0 ∨ b ≠ 0 ∨ c ≠ 0)

/-- R191. BUF.RD leaves the addressed byte in R and changes nothing else but STATUS and INFO; the three raises, in the
order of its checks. -/
def Obligations.BufRdLoadsTheAddressedByte : Prop :=
  (∀ a b c : Byte, WordRuns (mkWord 0x01 a b c) (.bufRd c.toNat (256 * b.toNat + a.toNat))) ∧
  (∀ (buf idx : Nat) (s : State), 8 < buf → Fails (exec (.bufRd buf idx) s) s .invalidParameter 3) ∧
  (∀ (buf idx : Nat) (sp : Space) (s : State), Space.ofId buf = some sp → sp.size ≤ idx →
    Fails (exec (.bufRd buf idx) s) s .invalidParameter 4) ∧
  (∀ s : State, Fails (exec (.bufRd 8 0) s) s .invalidParameter 5) ∧
  (∀ (buf idx : Nat) (b : Buf) (s : State), Space.ofId buf = some (.data b) → idx < b.size →
    exec (.bufRd buf idx) s = .next { s with r := s.readByte b idx, status := .ok, info := 0 }) ∧
  (∀ (idx : Nat) (s : State), idx < 512 →
    exec (.bufRd 7 idx) s = .next { s with r := expAt idx, status := .ok, info := 0 }) ∧
  (∀ (idx : Nat) (s : State), 1 ≤ idx → idx < 256 → ∃ v, logAt idx = some v ∧
    exec (.bufRd 8 idx) s = .next { s with r := BitVec.ofNat 8 v, status := .ok, info := 0 })

/-- R192. BUF.WR puts its data byte at the addressed place of a data buffer; every other byte of every buffer, and every
register but STATUS and INFO, is as before; the three raises, in the order of its checks. -/
def Obligations.BufWrStoresExactlyOneByte : Prop :=
  (∀ a b c : Byte, WordRuns (mkWord 0x02 a b c) (.bufWr c.toNat a.toNat b)) ∧
  (∀ (buf idx : Nat) (v : Byte) (s : State), 8 < buf → Fails (exec (.bufWr buf idx v) s) s .invalidParameter 3) ∧
  (∀ (buf idx : Nat) (v : Byte) (s : State), buf = 7 ∨ buf = 8 →
    Fails (exec (.bufWr buf idx v) s) s .invalidParameter 6) ∧
  (∀ (buf idx : Nat) (v : Byte) (b : Buf) (s : State), Space.ofId buf = some (.data b) → b.size ≤ idx →
    Fails (exec (.bufWr buf idx v) s) s .invalidParameter 4) ∧
  (∀ (buf idx : Nat) (v : Byte) (b : Buf) (s : State), s.wf = true → Space.ofId buf = some (.data b) → idx < b.size →
    ∃ t, exec (.bufWr buf idx v) s = .next t ∧ t.readByte b idx = v ∧
      (∀ (b' : Buf) (j : Nat), (b', j) ≠ (b, idx) → t.readByte b' j = s.readByte b' j) ∧
      t.r = s.r ∧ t.npos = s.npos ∧ t.flags = s.flags ∧ t.port = s.port ∧ t.status = .ok ∧ t.info = 0)

/-- R193. SET.NPOS writes NPOS, up to 127; above, InvalidParameter(8). NPOS is 0 after reset and no step takes it above
127. -/
def Obligations.SetNposWritesTheCount : Prop :=
  (∀ a : Byte, WordRuns (mkWord 0x03 a 0 0) (.setNpos a.toNat)) ∧
  (∀ (count : Nat) (s : State), 127 < count → Fails (exec (.setNpos count) s) s .invalidParameter 8) ∧
  (∀ (count : Nat) (s : State), count ≤ 127 → ∃ t, exec (.setNpos count) s = .next t ∧ t.npos.toNat = count ∧
    t = { s with npos := t.npos, status := .ok, info := 0 }) ∧
  (State.reset.npos = 0 ∧ ∀ s t : State, s.npos.toNat ≤ 127 → step s = .next t → t.npos.toNat ≤ 127) ∧
  ReservedFieldRaises 0x03 (fun _ b c => b ≠ 0 ∨ c ≠ 0)

/-! ### Field arithmetic (40_gf_arithmetic) -/

/-- R105. GF.MUL leaves the field product in R; it changes nothing else but STATUS and INFO. -/
def Obligations.GfMulLeavesTheProduct : Prop :=
  (∀ a b : Byte, WordRuns (mkWord 0x10 a b 0) (.gfMul a b)) ∧
  (∀ (a b : Byte) (s : State), exec (.gfMul a b) s = .next { s with r := gfMul a b, status := .ok, info := 0 }) ∧
  (∀ a : Byte, gfMul a 0 = 0 ∧ gfMul 0 a = 0 ∧ gfMul a 1 = a ∧ gfMul 1 a = a) ∧ gfMul 3 7 = 9 ∧
  ReservedFieldRaises 0x10 (fun _ _ c => c ≠ 0)

/-- R106 with R102. GF.DIV leaves the quotient in R; a zero divisor raises DivisionByZero(1), a zero dividend too then. -/
def Obligations.GfDivLeavesTheQuotient : Prop :=
  (∀ a b : Byte, WordRuns (mkWord 0x11 a b 0) (.gfDiv a b)) ∧
  (∀ (a : Byte) (s : State), Fails (exec (.gfDiv a 0) s) s .divisionByZero 1) ∧
  (∀ (a b : Byte) (s : State), b ≠ 0 → ∃ ib q, gfInv b = some ib ∧ q = (if a = 0 then 0 else gfMul a ib) ∧
    exec (.gfDiv a b) s = .next { s with r := q, status := .ok, info := 0 } ∧
    (a = b → q = 1) ∧ (b = 1 → q = a)) ∧ gfDiv 9 7 = some 3 ∧
  ReservedFieldRaises 0x11 (fun _ _ c => c ≠ 0)

/-- R107 with R103. GF.INV leaves `EXP[255 - LOG[a]]` in R; the operand 0 raises DivisionByZero(1). -/
def Obligations.GfInvLeavesTheInverse : Prop :=
  (∀ a : Byte, WordRuns (mkWord 0x12 a 0 0) (.gfInv a)) ∧
  (∀ s : State, Fails (exec (.gfInv 0) s) s .divisionByZero 1) ∧
  (∀ (a : Byte) (s : State), a ≠ 0 → ∃ i v, logAt a.toNat = some i ∧ v = expAt (255 - i) ∧
    exec (.gfInv a) s = .next { s with r := v, status := .ok, info := 0 } ∧ gfInv v = some a ∧ (a = 1 → v = 1)) ∧
  gfInv 2 = some 142 ∧
  ReservedFieldRaises 0x12 (fun _ b c => b ≠ 0 ∨ c ≠ 0)

/-- R108 with R104. GF.POW leaves the power in R, which is the repeated product, and never raises DivisionByZero. -/
def Obligations.GfPowLeavesThePower : Prop :=
  (∀ a b : Byte, WordRuns (mkWord 0x13 a b 0) (.gfPow a b.toNat)) ∧
  (∀ (a : Byte) (e : Nat) (s : State),
    exec (.gfPow a e) s = .next { s with r := gfPow a e, status := .ok, info := 0 }) ∧
  (∀ a : Byte, gfPow a 0 = 1 ∧ gfPow a 1 = a) ∧ (∀ e : Nat, 1 ≤ e → gfPow 0 e = 0) ∧
  (∀ (a : Byte) (e i : Nat), 1 ≤ e → logAt a.toNat = some i → gfPow a e = expAt ((i * e) % 255)) ∧
  (∀ a : Byte, a ≠ 0 → gfPow a 255 = 1 ∧ gfInv a = some (gfPow a 254)) ∧
  (∀ (a : Byte) (e : Nat), gfPow a e = repeatedProduct a e) ∧ gfPow 2 8 = 29 ∧
  ReservedFieldRaises 0x13 (fun _ _ c => c ≠ 0)

/-- R101. `gf_mul` is 0 if an operand is 0 and otherwise EXP at the sum of the logs, with the `mod 255` or without; it is
the product of polynomials over GF(2) reduced modulo 0x11D. -/
def Obligations.GfMulIsThePolynomialProduct : Prop :=
  (∀ a b : Byte, a = 0 ∨ b = 0 → gfMul a b = 0) ∧
  (∀ (a b : Byte) (i j : Nat), logAt a.toNat = some i → logAt b.toNat = some j →
    gfMul a b = expAt ((i + j) % 255) ∧ gfMul a b = expAt (i + j) ∧ i + j ≤ 508) ∧
  (∀ a : Byte, a ≠ 0 → ∃ i, logAt a.toNat = some i) ∧
  (∀ a b : Byte, gfMul a b = shiftAddProduct a b 8)

/-- R109. The laws of the field. -/
def Obligations.FieldLaws : Prop :=
  (∀ a b : Byte, gfMul a b = gfMul b a) ∧
  (∀ a b c : Byte, gfMul a (gfMul b c) = gfMul (gfMul a b) c) ∧
  (∀ a b c : Byte, gfMul a (b ^^^ c) = gfMul a b ^^^ gfMul a c) ∧
  (∀ a : Byte, gfMul a 1 = a ∧ gfMul a 0 = 0) ∧
  (∀ a ia : Byte, gfInv a = some ia → gfMul a ia = 1) ∧
  (∀ a : Byte, a ≠ 0 → (gfInv a).isSome = true) ∧
  (∀ a b : Byte, gfMul a b = 0 → a = 0 ∨ b = 0) ∧
  (∀ a b q : Byte, gfDiv a b = some q → gfMul q b = a) ∧
  (∀ a b : Byte, b ≠ 0 → (gfDiv a b).isSome = true) ∧
  (∀ a : Byte, gfMul a 2 = if a.getLsbD 7 then (a <<< 1) ^^^ 0x1D else a <<< 1)

/-- R35. The table invariants: bijection, exact inverses, period 255, no zero entry. -/
def Obligations.TableInvariants : Prop :=
  (∀ v : Byte, v ≠ 0 → ∃ i, i < 255 ∧ expAt i = v ∧ ∀ j, j < 255 → expAt j = v → j = i) ∧
  (∀ v : Byte, v ≠ 0 → ∃ i, logAt v.toNat = some i ∧ i < 255 ∧ expAt i = v) ∧
  (∀ i, i < 255 → logAt (expAt i).toNat = some i) ∧
  (∀ i, i ≤ 256 → expAt (i + 255) = expAt i) ∧
  (∀ i, i < 512 → expAt i ≠ 0)

/-- 70_reset R231 (with 10_state R31 to R33): the reset procedure builds exactly the tables the model holds; after its first
loop x is 1 again, and LOG[0] is never written. -/
def Obligations.ResetBuildsTheTables : Prop :=
  builtExp.length = 512 ∧ (∀ i, i < 512 → builtExp[i]? = some (expAt i).toNat) ∧
  timesGenerator (firstPeriod.getD 254 0) = 1 ∧ (∀ v, v < 256 → builtLog v = logAt v) ∧ builtLog 0 = none

/-! ### Polynomial evaluator (41_polynomial) -/

/-- R122. POLY.EVAL leaves the value of the first `len` coefficients of a data buffer in R. -/
def Obligations.PolyEvalLeavesTheValue : Prop :=
  (∀ a b c : Byte, WordRuns (mkWord 0x20 a b c) (.polyEval c.toNat a b.toNat)) ∧
  (∀ (buf : Nat) (x : Byte) (len : Nat) (s : State), 7 ≤ buf →
    Fails (exec (.polyEval buf x len) s) s .invalidParameter 3) ∧
  (∀ (buf : Nat) (x : Byte) (len : Nat) (b : Buf) (s : State), Space.ofId buf = some (.data b) → b.size < len →
    Fails (exec (.polyEval buf x len) s) s .invalidParameter 8) ∧
  (∀ (buf : Nat) (x : Byte) (len : Nat) (b : Buf) (s : State), Space.ofId buf = some (.data b) → len ≤ b.size →
    exec (.polyEval buf x len) s =
      .next { s with r := polyEval ((s.buf b).slice len) x, status := .ok, info := 0 } ∧
    (len = 0 → polyEval ((s.buf b).slice len) x = 0) ∧
    (x = 0 → 1 ≤ len → polyEval ((s.buf b).slice len) x = s.readByte b 0)) ∧ polyEval [7, 6, 5, 4] 3 = 32

/-- R123. POLY.EVALD leaves the value of the formal derivative of the first `len` coefficients in R. -/
def Obligations.PolyEvaldLeavesTheDerivative : Prop :=
  (∀ a b c : Byte, WordRuns (mkWord 0x21 a b c) (.polyEvald c.toNat a b.toNat)) ∧
  (∀ (buf : Nat) (x : Byte) (len : Nat) (s : State), 7 ≤ buf →
    Fails (exec (.polyEvald buf x len) s) s .invalidParameter 3) ∧
  (∀ (buf : Nat) (x : Byte) (len : Nat) (b : Buf) (s : State), Space.ofId buf = some (.data b) → b.size < len →
    Fails (exec (.polyEvald buf x len) s) s .invalidParameter 8) ∧
  (∀ (buf : Nat) (x : Byte) (len : Nat) (b : Buf) (s : State), Space.ofId buf = some (.data b) → len ≤ b.size →
    exec (.polyEvald buf x len) s =
      .next { s with r := polyEvald ((s.buf b).slice len) x, status := .ok, info := 0 } ∧
    (len ≤ 1 → polyEvald ((s.buf b).slice len) x = 0) ∧
    (x = 0 → 2 ≤ len → polyEvald ((s.buf b).slice len) x = s.readByte b 1)) ∧ polyEvald [7, 6, 5, 4] 3 = 18

/-- R120. Horner's rule from the highest index down gives `p[0] + p[1] x + ... + p[L-1] x^(L-1)`: 0 for no coefficient,
`p[0]` at 0, the XOR of all coefficients at 1; zero coefficients above do not change it. -/
def Obligations.HornerIsThePowerSum : Prop :=
  (∀ (p : List Byte) (x : Byte), polyEval p x = powerSum p x) ∧ (∀ x : Byte, polyEval [] x = 0) ∧
  (∀ (c : Byte) (p : List Byte) (x : Byte), polyEval (c :: p) x = gfMul (polyEval p x) x ^^^ c) ∧
  (∀ (p : List Byte) (k : Nat) (x : Byte), polyEval (p ++ List.replicate k 0) x = polyEval p x) ∧
  (∀ (c : Byte) (p : List Byte), polyEval (c :: p) 0 = c) ∧ (∀ p : List Byte, polyEval p 1 = xorAll p)

/-- R121. The derivative loop gives the sum over odd `i < L` of `p[i] x^(i-1)`: `p[0]` never contributes, and at most one
coefficient gives 0. -/
def Obligations.DerivativeIsTheOddPowerSum : Prop :=
  (∀ (p : List Byte) (x : Byte), polyEvald p x = oddPowerSum p x) ∧
  (∀ (c d : Byte) (p : List Byte) (x : Byte), polyEvald (c :: p) x = polyEvald (d :: p) x) ∧
  (∀ (p : List Byte) (x : Byte), p.length ≤ 1 → polyEvald p x = 0)

/-! ### Encoder (42_encoder) -/

/-- R131. RS.GEN writes the generator to GEN[0..nsym] and zero above, and nothing else. -/
def Obligations.RsGenWritesTheGenerator : Prop :=
  (∀ a : Byte, WordRuns (mkWord 0x30 a 0 0) (.rsGen a.toNat)) ∧
  NsymRangeRaises .rsGen ∧
  (∀ (nsym : Nat) (s : State), 1 ≤ nsym → nsym ≤ 254 → ∃ t, exec (.rsGen nsym) s = .next t ∧
    t = { s with gen := t.gen, status := .ok, info := 0 } ∧
    (∀ j, j ≤ nsym → t.gen.read j = (rsGen nsym).getD j 0) ∧ (∀ j, nsym < j → j < 255 → t.gen.read j = 0)) ∧
  rsGen 1 = [1, 1] ∧ rsGen 2 = [1, 143, 142] ∧
  ReservedFieldRaises 0x30 (fun _ b c => b ≠ 0 ∨ c ≠ 0)

/-- R130. The generator is the product of the factors `1 + α^(-i) x` for `i < nsym`; it has degree exactly nsym,
`G[0] = 1`, and exactly the roots `α^0, ..., α^(nsym-1)`; its values for the five small nsym of the rule. -/
def Obligations.GeneratorHasTheStatedRoots : Prop :=
  rsGen 0 = [1] ∧
  (∀ i, i < 254 → rsGen (i + 1) = polyMulTrunc [1, expAt ((255 - i) % 255)] (rsGen i) (i + 2)) ∧
  (∀ nsym, 1 ≤ nsym → nsym ≤ 254 →
    (rsGen nsym).length = nsym + 1 ∧ (rsGen nsym).getD 0 0 = 1 ∧ polyDeg (rsGen nsym) = nsym ∧
    polyEval (rsGen nsym) 0 ≠ 0 ∧ ∀ i, i < 255 → (polyEval (rsGen nsym) (expAt i) = 0 ↔ i < nsym)) ∧
  rsGen 1 = [1, 1] ∧ rsGen 2 = [1, 143, 142] ∧ rsGen 3 = [1, 200, 100, 173] ∧ rsGen 4 = [1, 101, 125, 47, 54] ∧
  rsGen 6 = [1, 209, 233, 147, 44, 170, 44]

/-- R133. RS.ENCODE writes the parity of `CW[0..k-1]` to `CW[k..k+nsym-1]` and the generator to GEN; the message, the
bytes of CW above, and everything else stay. -/
def Obligations.RsEncodeAppendsTheParity : Prop :=
  (∀ a b : Byte, WordRuns (mkWord 0x31 a b 0) (.rsEncode a.toNat b.toNat)) ∧
  (∀ k, NsymRangeRaises fun nsym => .rsEncode nsym k) ∧
  (∀ (nsym k : Nat) (s : State), 1 ≤ nsym → nsym ≤ 254 → 255 < nsym + k →
    Fails (exec (.rsEncode nsym k) s) s .invalidParameter 2) ∧
  (∀ (nsym k : Nat) (s : State), s.wf = true → 1 ≤ nsym → nsym + k ≤ 255 → nsym ≤ 254 →
    ∃ t, exec (.rsEncode nsym k) s = .next t ∧
      t = { s with gen := t.gen, cw := t.cw, status := .ok, info := 0 } ∧
      (∀ j, j < nsym → t.cw.read (k + j) = (rsParity (s.cw.slice k) (rsGen nsym) nsym).getD j 0) ∧
      (∀ j, j < k ∨ k + nsym ≤ j → t.cw.read j = s.cw.read j) ∧
      (∀ j, j ≤ nsym → t.gen.read j = (rsGen nsym).getD j 0) ∧ (∀ j, nsym < j → j < 255 → t.gen.read j = 0) ∧
      ((∀ j, j < k → s.cw.read j = 0) → ∀ j, j < nsym → t.cw.read (k + j) = 0) ∧
      (nsym = 1 → t.cw.read k = xorAll (s.cw.slice k))) ∧
  rsParity [18, 52] (rsGen 2) 2 = [191, 153] ∧
  ReservedFieldRaises 0x31 (fun _ _ c => c ≠ 0)

/-- R134. What RS.ENCODE leaves in `CW[0..n-1]` is a valid codeword: it begins with the message, and its polynomial
vanishes at every one of the nsym roots `α^0..α^(nsym-1)` of the generator, which are its syndromes. -/
def Obligations.EncodedWordsHaveZeroSyndromes : Prop :=
  ∀ (nsym k : Nat) (s : State), s.wf = true → 1 ≤ nsym → nsym ≤ 254 → nsym + k ≤ 255 →
    ∃ t, exec (.rsEncode nsym k) s = .next t ∧ (t.cw.slice (k + nsym)).take k = s.cw.slice k ∧
      (∀ i, i < nsym → polyEval (t.cw.slice (k + nsym)) (expAt i) = 0) ∧
      allZero (rsSynd (t.cw.slice (k + nsym)) nsym) = true

/-! ### Syndromes (43_syndrome) -/

/-- R141. RS.SYND writes the syndromes of `CW[0..n-1]` to SYN, zero above, and SZ; nothing else. -/
def Obligations.RsSyndWritesSyndromesAndSz : Prop :=
  (∀ a b : Byte, WordRuns (mkWord 0x32 a b 0) (.rsSynd a.toNat b.toNat)) ∧
  (∀ n, NsymRangeRaises fun nsym => .rsSynd nsym n) ∧
  (∀ (nsym n : Nat) (s : State), 1 ≤ nsym → nsym ≤ 254 → n < nsym →
    Fails (exec (.rsSynd nsym n) s) s .invalidParameter 2) ∧
  (∀ (nsym n : Nat) (s : State), 1 ≤ nsym → nsym ≤ 254 → nsym ≤ n →
    ∃ t, exec (.rsSynd nsym n) s = .next t ∧
      t = { s with syn := t.syn, flags := { s.flags with sz := t.flags.sz }, status := .ok, info := 0 } ∧
      (∀ i, i < nsym → t.syn.read i = (rsSynd (s.cw.slice n) nsym).getD i 0) ∧
      (∀ i, nsym ≤ i → i < 254 → t.syn.read i = 0) ∧
      (t.flags.sz = true ↔ ∀ i, i < nsym → (rsSynd (s.cw.slice n) nsym).getD i 0 = 0) ∧
      ((∀ j, j < n → s.cw.read j = 0) → t.flags.sz = true)) ∧
  rsSynd [72, 101, 109, 108, 111, 248, 250, 105, 41] 4 = [1, 4, 16, 64] ∧
  ReservedFieldRaises 0x32 (fun _ _ c => c ≠ 0)

/-- R140. Syndrome `i` is the XOR over the word of `gf_mul(c[j], EXP[(i*j) mod 255])`, which is the value of the word's
polynomial at `α^i`; syndrome 0 is the XOR of all bytes. -/
def Obligations.SyndromesAreValuesAtTheRoots : Prop :=
  ∀ (c : List Byte) (nsym i : Nat), i < nsym →
    (rsSynd c nsym).length = nsym ∧ (rsSynd c nsym).getD i 0 =
      xorAll ((List.range c.length).map fun j => gfMul (c.getD j 0) (expAt ((i * j) % 255))) ∧
    (rsSynd c nsym).getD i 0 = polyEval c (expAt i) ∧ (rsSynd c nsym).getD 0 0 = xorAll c

/-- R142 (b), (c). The syndromes of a sum of two words are the sums of their syndromes, and one error `e` at position `p`
in an otherwise zero word gives the geometric sequence `gf_mul(e, EXP[(i*p) mod 255])`. -/
def Obligations.SyndromesAreLinear : Prop :=
  (∀ (c d : List Byte) (nsym : Nat), c.length = d.length →
    rsSynd (xorList c d) nsym = xorList (rsSynd c nsym) (rsSynd d nsym)) ∧
  (∀ (n p : Nat) (e : Byte) (nsym i : Nat), p < n → i < nsym →
    (rsSynd ((List.replicate n 0).set p e) nsym).getD i 0 = gfMul e (expAt ((i * p) % 255)))

/-! ### Locator (44_locator) -/

/-- R150. Long division: `a = q*b + rem` and `deg(rem) < deg(b)`, all arrays of one length. The equation is that of whole
polynomials: at every power `m`, those above the arrays' length included, the coefficient of the untruncated product and the
remainder's coefficient give `a`'s, so `q*b` has no term that `a` lacks. -/
def Obligations.DivisionGivesQuotientAndRemainder : Prop :=
  ∀ a b : List Byte, a.length = b.length → 0 ≤ polyDeg b →
    (polyDivmod a b).1.length = a.length ∧ (polyDivmod a b).2.length = a.length ∧
    polyDeg (polyDivmod a b).2 < polyDeg b ∧
    ∀ m, productCoeff (polyDivmod a b).1 b m ^^^ (polyDivmod a b).2.getD m 0 = a.getD m 0

/-- R151. The truncated product has `L` coefficients, each the convolution sum. -/
def Obligations.TruncatedProductIsTheConvolution : Prop :=
  ∀ (a b : List Byte) (len : Nat), (polyMulTrunc a b len).length = len ∧
    ∀ m, m < len → (polyMulTrunc a b len).getD m 0 = productCoeff a b m

/-- R156 (a), (b). Whatever the syndromes, a locator the solver returns has constant term 1 and degree at most nsym/2, and
solves the key equation: `(S * LAM) mod x^nsym` is a scaled Euclid remainder, of degree below nsym/2. -/
def Obligations.LocatorSolvesTheKeyEquation : Prop :=
  ∀ (syndromes lam : List Byte) (nsym : Nat), 1 ≤ nsym → nsym ≤ 254 → syndromes.length = nsym →
    rsKeyeq syndromes nsym = .ok lam →
    lam.length = nsym + 1 ∧ lam.getD 0 0 = 1 ∧ 2 * polyDeg lam ≤ (nsym : Int) ∧
    2 * polyDeg (evaluatorPoly syndromes lam nsym) < (nsym : Int)

/-- R153. RS.KEYEQ writes the solver's locator to LOC, zero above, or raises UncorrectableError(1) and leaves LOC. -/
def Obligations.RsKeyeqWritesTheLocator : Prop :=
  (∀ a : Byte, WordRuns (mkWord 0x33 a 0 0) (.rsKeyeq a.toNat)) ∧
  NsymRangeRaises .rsKeyeq ∧
  (∀ (nsym : Nat) (c : Cause) (s : State), 1 ≤ nsym → nsym ≤ 254 → rsKeyeq (s.syn.slice nsym) nsym = .error c →
    Fails (exec (.rsKeyeq nsym) s) s .uncorrectableError 1) ∧
  (∀ (nsym : Nat) (lam : List Byte) (s : State), 1 ≤ nsym → nsym ≤ 254 → rsKeyeq (s.syn.slice nsym) nsym = .ok lam →
    ∃ t, exec (.rsKeyeq nsym) s = .next t ∧ t = { s with loc := t.loc, status := .ok, info := 0 } ∧
      (∀ i, i ≤ min nsym 127 → t.loc.read i = lam.getD i 0) ∧ (∀ i, min nsym 127 < i → i < 128 → t.loc.read i = 0)) ∧
  (∀ (nsym : Nat) (s : State), 1 ≤ nsym → nsym ≤ 254 → (nsym = 1 ∨ ∀ i, i < nsym → s.syn.read i = 0) →
    ∃ t, exec (.rsKeyeq nsym) s = .next t ∧ t.status = .ok ∧ t.loc.read 0 = 1 ∧
      ∀ i, 1 ≤ i → i < 128 → t.loc.read i = 0) ∧
  ReservedFieldRaises 0x33 (fun _ b c => b ≠ 0 ∨ c ≠ 0)

/-- R154. The search tries all 255 nonzero elements: it finds position `j` exactly when `α^(-j)` is a root of the locator,
each once, in rising order of the byte value of the element `α^j`. -/
def Obligations.ChienFindsExactlyTheRoots : Prop :=
  ∀ lam : List Byte,
    (∀ j, j ∈ chienFound lam ↔ j < 255 ∧ polyEval lam (rootOf j) = 0) ∧ (chienFound lam).Nodup ∧
    (chienFound lam).Pairwise fun i j => (expAt i).toNat < (expAt j).toNat

/-- R155. RS.CHIEN writes the found positions to POS, zero above, and their number to NPOS; its three raises in their
order, and the two corner cases of the zero and the constant locator. -/
def Obligations.RsChienWritesThePositions : Prop :=
  (∀ a b : Byte, WordRuns (mkWord 0x34 a b 0) (.rsChien a.toNat b.toNat)) ∧
  (∀ n, NsymRangeRaises fun nsym => .rsChien nsym n) ∧
  (∀ (nsym n : Nat) (s : State), 1 ≤ nsym → nsym ≤ 254 → n < nsym →
    Fails (exec (.rsChien nsym n) s) s .invalidParameter 2) ∧
  (∀ (nsym n : Nat) (s : State), 1 ≤ nsym → nsym ≤ 254 → nsym ≤ n →
    let lam := s.loc.slice 128
    let found := chienFound lam
    ((∃ j ∈ found, n ≤ j) → Fails (exec (.rsChien nsym n) s) s .uncorrectableError 2) ∧
    ((∀ j ∈ found, j < n) → (found.length : Int) ≠ polyDeg lam →
      Fails (exec (.rsChien nsym n) s) s .uncorrectableError 3) ∧
    ((∀ j ∈ found, j < n) → (found.length : Int) = polyDeg lam → nsym / 2 < found.length →
      Fails (exec (.rsChien nsym n) s) s .uncorrectableError 4) ∧
    ((∀ j ∈ found, j < n) → (found.length : Int) = polyDeg lam → found.length ≤ nsym / 2 →
      ∃ t, exec (.rsChien nsym n) s = .next t ∧
        t = { s with pos := t.pos, npos := t.npos, status := .ok, info := 0 } ∧ t.npos.toNat = found.length ∧
        (∀ i, i < found.length → (t.pos.read i).toNat = found.getD i 0) ∧
        (∀ i, found.length ≤ i → i < 127 → t.pos.read i = 0)) ∧
    ((∀ i, i < 128 → s.loc.read i = 0) → n < 255 → Fails (exec (.rsChien nsym n) s) s .uncorrectableError 2) ∧
    ((∀ i, i < 128 → s.loc.read i = 0) → n = 255 → Fails (exec (.rsChien nsym n) s) s .uncorrectableError 3) ∧
    (s.loc.read 0 = 1 → (∀ i, 1 ≤ i → i < 128 → s.loc.read i = 0) →
      ∃ t, exec (.rsChien nsym n) s = .next t ∧ t.status = .ok ∧ t.npos = 0)) ∧
  ReservedFieldRaises 0x34 (fun _ _ c => c ≠ 0)

/-- R157. RS.LOCATE is the solver and then the root search with one commit: a raise of either stage leaves LOC, POS and
NPOS as they were; when RS.KEYEQ and then RS.CHIEN succeed, RS.LOCATE reaches the state they leave. -/
def Obligations.RsLocateSolvesThenSearches : Prop :=
  (∀ a b : Byte, WordRuns (mkWord 0x35 a b 0) (.rsLocate a.toNat b.toNat)) ∧
  (∀ n, NsymRangeRaises fun nsym => .rsLocate nsym n) ∧
  (∀ (nsym n : Nat) (s : State), 1 ≤ nsym → nsym ≤ 254 → n < nsym →
    Fails (exec (.rsLocate nsym n) s) s .invalidParameter 2) ∧
  (∀ (nsym n : Nat) (c : Cause) (s : State), 1 ≤ nsym → nsym ≤ 254 → nsym ≤ n →
    rsKeyeq (s.syn.slice nsym) nsym = .error c → Fails (exec (.rsLocate nsym n) s) s .uncorrectableError 1) ∧
  (∀ (nsym n : Nat) (lam : List Byte) (c : Cause) (s : State), 1 ≤ nsym → nsym ≤ 254 → nsym ≤ n →
    rsKeyeq (s.syn.slice nsym) nsym = .ok lam → rsChien (fitTo 128 lam) nsym n = .error c →
    Fails (exec (.rsLocate nsym n) s) s .uncorrectableError c.info ∧
      (c = .rootOutside ∨ c = .rootCount ∨ c = .tooMany)) ∧
  (∀ (nsym n : Nat) (lam : List Byte) (found : List Nat) (s : State), 1 ≤ nsym → nsym ≤ 254 → nsym ≤ n →
    rsKeyeq (s.syn.slice nsym) nsym = .ok lam → rsChien (fitTo 128 lam) nsym n = .ok found →
    ∃ t, exec (.rsLocate nsym n) s = .next t ∧
      t = { s with loc := t.loc, pos := t.pos, npos := t.npos, status := .ok, info := 0 } ∧
      (∀ i, i < 128 → t.loc.read i = lam.getD i 0) ∧ t.npos.toNat = found.length ∧
      (∀ i, i < found.length → (t.pos.read i).toNat = found.getD i 0) ∧
      (∀ i, found.length ≤ i → i < 127 → t.pos.read i = 0)) ∧
  (∀ (nsym n : Nat) (s : State), 1 ≤ nsym → nsym ≤ 254 → nsym ≤ n → (∀ i, i < nsym → s.syn.read i = 0) →
    ∃ t, exec (.rsLocate nsym n) s = .next t ∧ t.status = .ok ∧ t.npos = 0 ∧ t.loc.read 0 = 1 ∧
      ∀ i, 1 ≤ i → i < 128 → t.loc.read i = 0) ∧
  (∀ (nsym n : Nat) (s t u : State), exec (.rsKeyeq nsym) s = .next t → t.status = .ok →
    exec (.rsChien nsym n) t = .next u → u.status = .ok → exec (.rsLocate nsym n) s = .next u) ∧
  ReservedFieldRaises 0x35 (fun _ _ c => c ≠ 0)

/-! ### Corrector (45_corrector) -/

/-- R172. RS.FORNEY recomputes SYN and SZ, writes Ω to OMG and the magnitude `X * Ω(root) / Λ'(root)` of every listed
position to MAG, zero above; its raises in their order. -/
def Obligations.RsForneyWritesTheMagnitudes : Prop :=
  (∀ a b : Byte, WordRuns (mkWord 0x36 a b 0) (.rsForney a.toNat b.toNat)) ∧
  (∀ n, NsymRangeRaises fun nsym => .rsForney nsym n) ∧
  (∀ (nsym n : Nat) (s : State), 1 ≤ nsym → nsym ≤ 254 → n < nsym →
    Fails (exec (.rsForney nsym n) s) s .invalidParameter 2) ∧
  (∀ (nsym n : Nat) (s : State), 1 ≤ nsym → nsym ≤ 254 → nsym ≤ n →
    (∃ i, i < s.npos.toNat ∧ n ≤ (s.pos.read i).toNat) → Fails (exec (.rsForney nsym n) s) s .invalidParameter 7) ∧
  (∀ (nsym n : Nat) (s : State), 1 ≤ nsym → nsym ≤ 254 → nsym ≤ n →
    (∀ i, i < s.npos.toNat → (s.pos.read i).toNat < n) →
    (∃ i, i < s.npos.toNat ∧ polyEvald (s.loc.slice 128) (rootOf (s.pos.read i).toNat) = 0) →
    Fails (exec (.rsForney nsym n) s) s .divisionByZero 2) ∧
  (∀ (nsym n : Nat) (s : State), 1 ≤ nsym → nsym ≤ 254 → nsym ≤ n → s.npos.toNat ≤ 127 →
    (∀ i, i < s.npos.toNat → (s.pos.read i).toNat < n) →
    (∀ i, i < s.npos.toNat → polyEvald (s.loc.slice 128) (rootOf (s.pos.read i).toNat) ≠ 0) →
    let syndromes := rsSynd (s.cw.slice n) nsym
    let om := polyMulTrunc syndromes (s.loc.slice 128) nsym
    ∃ t, exec (.rsForney nsym n) s = .next t ∧
      t = { s with syn := t.syn, omg := t.omg, mag := t.mag, flags := { s.flags with sz := t.flags.sz },
                   status := .ok, info := 0 } ∧
      (∀ i, i < nsym → t.syn.read i = syndromes.getD i 0) ∧ (∀ i, nsym ≤ i → i < 254 → t.syn.read i = 0) ∧
      (t.flags.sz = true ↔ ∀ i, i < nsym → syndromes.getD i 0 = 0) ∧
      (∀ i, i < nsym → t.omg.read i = om.getD i 0) ∧ (∀ i, nsym ≤ i → i < 254 → t.omg.read i = 0) ∧
      (∀ i, i < s.npos.toNat →
        gfDiv (gfMul (expAt (s.pos.read i).toNat) (polyEval om (rootOf (s.pos.read i).toNat)))
          (polyEvald (s.loc.slice 128) (rootOf (s.pos.read i).toNat)) = some (t.mag.read i)) ∧
      (∀ i, s.npos.toNat ≤ i → i < 127 → t.mag.read i = 0)) ∧
  ReservedFieldRaises 0x36 (fun _ _ c => c ≠ 0)

/-- R173. RS.APPLY XORs into each byte of CW the magnitudes of all the list entries that name it, one after the other, and
changes nothing else; a position at or beyond `n` raises InvalidParameter(7) before any byte is changed. Applying the same
POS and MAG twice restores CW. -/
def Obligations.RsApplyXorsTheListedMagnitudes : Prop :=
  (∀ b : Byte, WordRuns (mkWord 0x37 0 b 0) (.rsApply b.toNat)) ∧
  (∀ (n : Nat) (s : State), (∃ i, i < s.npos.toNat ∧ n ≤ (s.pos.read i).toNat) →
    Fails (exec (.rsApply n) s) s .invalidParameter 7) ∧
  (∀ (n : Nat) (s : State), s.wf = true → (∀ i, i < s.npos.toNat → (s.pos.read i).toNat < n) →
    ∃ t, exec (.rsApply n) s = .next t ∧ t = { s with cw := t.cw, status := .ok, info := 0 } ∧
      ∀ j, t.cw.read j = s.cw.read j ^^^
        xorAll ((List.range s.npos.toNat).map fun i => if (s.pos.read i).toNat = j then s.mag.read i else 0)) ∧
  (∀ (n : Nat) (s : State), s.wf = true → (∀ i, i < s.npos.toNat → (s.pos.read i).toNat < n) →
    ∃ t, exec (.rsApply n) s = .next t ∧ exec (.rsApply n) t = .next { s with status := .ok, info := 0 }) ∧
  ReservedFieldRaises 0x37 (fun a _ c => a ≠ 0 ∨ c ≠ 0)

/-- R174. RS.CORRECT is RS.FORNEY and then RS.APPLY with the same `n`, in one command; it raises what RS.FORNEY raises,
and then changes nothing but STATUS and INFO. -/
def Obligations.CorrectEqualsForneyThenApply : Prop :=
  (∀ a b : Byte, WordRuns (mkWord 0x38 a b 0) (.rsCorrect a.toNat b.toNat)) ∧
  (∀ (nsym n : Nat) (s t : State), exec (.rsForney nsym n) s = .next t → t.status = .ok →
    ∃ u, exec (.rsCorrect nsym n) s = .next u ∧ u.status = .ok ∧ exec (.rsApply n) t = .next u) ∧
  (∀ (nsym n : Nat) (s t : State), exec (.rsForney nsym n) s = .next t → t.status ≠ .ok →
    exec (.rsCorrect nsym n) s = .next t) ∧
  ReservedFieldRaises 0x38 (fun _ _ c => c ≠ 0)

/-- R174. From a state whose listed positions lie in the word and whose Forney denominators are nonzero, RS.CORRECT
completes: CW becomes the word with every listed magnitude XORed in. -/
def Obligations.RsCorrectCompletes : Prop :=
  ∀ (nsym n : Nat) (s : State), s.wf = true → 1 ≤ nsym → nsym ≤ 254 → nsym ≤ n →
    (∀ i, i < s.npos.toNat → (s.pos.read i).toNat < n) →
    (∀ i, i < s.npos.toNat → polyEvald (s.loc.slice 128) (rootOf (s.pos.read i).toNat) ≠ 0) →
    ∃ t, exec (.rsCorrect nsym n) s = .next t ∧
      t = { s with syn := t.syn, omg := t.omg, mag := t.mag, cw := t.cw, flags := { s.flags with sz := t.flags.sz },
                   status := .ok, info := 0 } ∧
      ∀ j, t.cw.read j = s.cw.read j ^^^
        xorAll ((List.range s.npos.toNat).map fun i => if (s.pos.read i).toNat = j then t.mag.read i else 0)

/-- R175, the checks and the raises of the stages: each leaves everything but STATUS and INFO. -/
def Obligations.RsDecodeRaises : Prop :=
  (∀ a b : Byte, WordRuns (mkWord 0x39 a b 0) (.rsDecode a.toNat b.toNat)) ∧
  (∀ n, NsymRangeRaises fun nsym => .rsDecode nsym n) ∧
  (∀ (nsym n : Nat) (s : State), 1 ≤ nsym → nsym ≤ 254 → n < nsym →
    Fails (exec (.rsDecode nsym n) s) s .invalidParameter 2) ∧
  (∀ (nsym n : Nat) (s : State), 1 ≤ nsym → nsym ≤ 254 → nsym ≤ n →
    allZero (rsSynd (s.cw.slice n) nsym) = false →
    (∀ c, rsKeyeq (rsSynd (s.cw.slice n) nsym) nsym = .error c →
      Fails (exec (.rsDecode nsym n) s) s .uncorrectableError 1) ∧
    (∀ lam c, rsKeyeq (rsSynd (s.cw.slice n) nsym) nsym = .ok lam → rsChien (fitTo 128 lam) nsym n = .error c →
      Fails (exec (.rsDecode nsym n) s) s .uncorrectableError c.info)) ∧
  ReservedFieldRaises 0x39 (fun _ _ c => c ≠ 0)

/-- R175, the committing path: the stages' results are in SYN, LOC, POS, NPOS, OMG and MAG, SZ is 0, and CW is the word
with every magnitude XORed in at its position; a shadow word that is no codeword raises UncorrectableError(5) instead
(R177). -/
def Obligations.RsDecodeCommitsOrRaisesResidual : Prop :=
  ∀ (nsym n : Nat) (s : State) (lam : List Byte) (found : List Nat) (ms : List Byte), s.wf = true →
    1 ≤ nsym → nsym ≤ 254 → nsym ≤ n → n ≤ 255 →
    let syndromes := rsSynd (s.cw.slice n) nsym
    let om := evaluatorPoly syndromes (fitTo 128 lam) nsym
    let corrected := fun j =>
      s.cw.read j ^^^ xorAll ((List.range found.length).map fun i => if found.getD i 0 = j then ms.getD i 0 else 0)
    allZero syndromes = false → rsKeyeq syndromes nsym = .ok lam → rsChien (fitTo 128 lam) nsym n = .ok found →
    forneyMagnitudes om (fitTo 128 lam) found = .ok ms →
    (allZero (rsSynd ((List.range n).map corrected) nsym) = false →
      Fails (exec (.rsDecode nsym n) s) s .uncorrectableError 5) ∧
    (allZero (rsSynd ((List.range n).map corrected) nsym) = true →
      ∃ t, exec (.rsDecode nsym n) s = .next t ∧ t.r = s.r ∧ t.gen = s.gen ∧ t.port = s.port ∧
        t.flags = { s.flags with sz := false } ∧ t.status = .ok ∧ t.info = 0 ∧ t.npos.toNat = found.length ∧
        (∀ i, i < 254 → t.syn.read i = syndromes.getD i 0) ∧ (∀ i, i < 128 → t.loc.read i = lam.getD i 0) ∧
        (∀ i, i < 127 → (t.pos.read i).toNat = found.getD i 0) ∧ (∀ i, i < 254 → t.omg.read i = om.getD i 0) ∧
        (∀ i, i < 127 → t.mag.read i = ms.getD i 0) ∧ (∀ j, t.cw.read j = corrected j))

/-- R176. With zero syndromes RS.DECODE takes the fast path: SYN is all zero, SZ = 1, NPOS = 0, and nothing else but
STATUS and INFO is written. -/
def Obligations.CleanWordTakesTheFastPath : Prop :=
  ∀ (nsym n : Nat) (s : State), 1 ≤ nsym → nsym ≤ 254 → nsym ≤ n → allZero (rsSynd (s.cw.slice n) nsym) = true →
    ∃ t, exec (.rsDecode nsym n) s = .next t ∧
      t = { s with syn := t.syn, npos := 0, flags := { s.flags with sz := true }, status := .ok, info := 0 } ∧
      ∀ i, i < 254 → t.syn.read i = 0

/-- R177. The word a successful RS.DECODE leaves in `CW[0..n-1]` always has all-zero syndromes. -/
def Obligations.SuccessfulDecodeLeavesACodeword : Prop :=
  ∀ (nsym n : Nat) (s t : State), exec (.rsDecode nsym n) s = .next t → t.status = .ok →
    allZero (rsSynd (t.cw.slice n) nsym) = true

/-- R178 (a). Inside RS.DECODE the Forney denominator is never zero and no position is out of range: no decode ends in
DivisionByZero or in InvalidParameter(7). -/
def Obligations.DecodeNeverDividesByZero : Prop :=
  ∀ (nsym n : Nat) (s t : State), exec (.rsDecode nsym n) s = .next t →
    t.status ≠ .divisionByZero ∧ (t.status = .invalidParameter → t.info ≠ 7)

/-- R178 (b). Round trip: RS.ENCODE and then RS.DECODE takes the fast path and leaves the message in place; so it does
with any smaller nsym (60_exceptions R207). -/
def Obligations.EncodeThenDecodeReturnsTheMessage : Prop :=
  ∀ (nsym nsym' k : Nat) (s : State), s.wf = true → 1 ≤ nsym' → nsym' ≤ nsym → nsym ≤ 254 → nsym + k ≤ 255 →
    ∃ t u, exec (.rsEncode nsym k) s = .next t ∧ exec (.rsDecode nsym' (k + nsym)) t = .next u ∧ u.status = .ok ∧
      u.flags.sz = true ∧ u.npos = 0 ∧ u.cw = t.cw ∧ u.cw.slice k = s.cw.slice k

/-- R178 (e). After a successful RS.DECODE, the same command again takes the fast path and changes only SYN, SZ and
NPOS. -/
def Obligations.SecondDecodeIsClean : Prop :=
  ∀ (nsym n : Nat) (s t : State), exec (.rsDecode nsym n) s = .next t → t.status = .ok →
    ∃ u, exec (.rsDecode nsym n) t = .next u ∧
      u = { t with syn := u.syn, npos := 0, flags := { t.flags with sz := true } } ∧ ∀ i, i < 254 → u.syn.read i = 0

/-- R175. When a decode corrects a word, running its stages one by one reaches the same state. -/
def Obligations.DecodeEqualsItsStages : Prop :=
  ∀ (nsym n : Nat) (s t : State), exec (.rsDecode nsym n) s = .next t → t.status = .ok → t.flags.sz = false →
    ∃ s1 s2 s3 s4, exec (.rsSynd nsym n) s = .next s1 ∧ s1.status = .ok ∧ exec (.rsKeyeq nsym) s1 = .next s2 ∧
      s2.status = .ok ∧ exec (.rsChien nsym n) s2 = .next s3 ∧ s3.status = .ok ∧
      exec (.rsForney nsym n) s3 = .next s4 ∧ s4.status = .ok ∧ exec (.rsApply n) s4 = .next t

/-! ### Encoding (30_encoding) -/

/-- R80, R81, R84. No operand bit is dropped: decoding the word of a well-formed command gives the command back. -/
def Obligations.DecodeOfEncodeIsTheCommand : Prop := ∀ i : Instr, i.wf = true → decodeWord (encode i) = .ok i

/-- R84 to R86. Every word that decodes is the word of the command it decodes to, which is well-formed: no command has two
words, and a reserved field is never ignored. -/
def Obligations.EncodeOfDecodeIsTheWord : Prop :=
  ∀ (w : Word) (i : Instr), decodeWord w = .ok i → i.wf = true ∧ encode i = w

/-- R85. A word whose opcode is not one of the twenty raises IllegalCommand(1), whatever its other bytes hold, and changes
only STATUS and INFO. -/
def Obligations.ReservedOpcodeRaises : Prop :=
  ∀ (op a b c : Byte) (s : State), s.flags.rdy = true →
    (4 ≤ op.toNat ∧ op.toNat ≤ 15 ∨ 20 ≤ op.toNat ∧ op.toNat ≤ 31 ∨ 34 ≤ op.toNat ∧ op.toNat ≤ 47 ∨ 58 ≤ op.toNat) →
    Fails (issue (mkWord op a b c) s) s .illegalCommand 1

/-- R82. Four bytes are a command word little-endian, `op` first; written out from the table of 95_test_vectors 2.2 and
program P1. -/
def Obligations.BytesDecodeLittleEndian : Prop :=
  decodeBytes [0x10, 0x03, 0x07, 0x00] = .ok (.gfMul 3 7, []) ∧
  decodeBytes [0x31, 0x04, 0x05, 0x00] = .ok (.rsEncode 4 5, []) ∧
  decodeBytes [0x01, 0x07, 0x01, 0x07] = .ok (.bufRd 7 263, []) ∧
  decodeBytes [0x02, 0x02, 0x6D, 0x00] = .ok (.bufWr 0 2 109, []) ∧
  decodeBytes [0x20, 0x8E, 0x03, 0x02] = .ok (.polyEval 2 142 3, []) ∧
  decodeBytes [0x37, 0x00, 0x09, 0x00] = .ok (.rsApply 9, []) ∧
  decodeBytes [0x37, 0x01, 0x09, 0x00] = .error (.illegal .reservedField) ∧
  decodeBytes [0xFF, 0x00, 0x00, 0x01] = .error (.illegal .reservedOpcode) ∧
  (∀ w : Word, wordOfBytes (w.extractLsb' 0 8) (w.extractLsb' 8 8) (w.extractLsb' 16 8) (w.extractLsb' 24 8) = w)

/-! ### The machine as a whole -/

/-- 10_state R20, R28; 20_memory R66. When the next host input is a command word, a step is the issue of that word at the
state with that input taken off the port, whatever the word is. So on a ready engine a word that decodes runs its command; a
word that is no command raises IllegalCommand, with INFO 1 for its opcode (30_encoding R85) or 2 for a reserved field (R86),
and changes nothing else; a word served while RDY is 0 is dropped (70_reset R232, log entry 18). The port is the model's own
(log entry 2). -/
def Obligations.StepRunsTheDecodedCommand : Prop :=
  ∀ (s : State) (w : Word) (rest : List HostInput), s.port = .issue w :: rest →
    step s = issue w { s with port := rest } ∧
    (∀ i : Instr, s.flags.rdy = true → decodeWord w = .ok i → step s = exec i { s with port := rest }) ∧
    (s.flags.rdy = true → decodeWord w = .error .reservedOpcode →
      Fails (step s) { s with port := rest } .illegalCommand 1) ∧
    (s.flags.rdy = true → decodeWord w = .error .reservedField →
      Fails (step s) { s with port := rest } .illegalCommand 2) ∧
    (s.flags.rdy = false → step s = .next { s with port := rest })

/-- 60_exceptions R206. Every one of the 2^32 command words, in any state of a ready engine, ends with a defined STATUS and
INFO of R201 and a next state; and no step of any state stops (that a step without input is an idle one is the model's
reading, log entry 3). -/
def Obligations.EveryWordEndsDefined : Prop :=
  (∀ (w : Word) (s : State), s.flags.rdy = true → ∃ t, issue w s = .next t ∧ legalOutcome t.status t.info = true) ∧
  (∀ s : State, ∃ t, step s = .next t)

/-- 60_exceptions R202. A command word that raises changes STATUS and INFO and nothing else. -/
def Obligations.RaiseChangesOnlyTheOutcome : Prop :=
  ∀ (w : Word) (s t : State), s.flags.rdy = true → issue w s = .next t → t.status ≠ .ok →
    ∃ c : Cause, t = { s with status := c.status, info := c.info }

/-- 60_exceptions R201. A command ends with (0, 0) or with a cause its row of the table lists; a command not listed for a
cause cannot raise it. -/
def Obligations.CommandsRaiseOnlyTheirCauses : Prop :=
  ∀ (i : Instr) (s t : State), exec i s = .next t →
    (t.status = .ok ∧ t.info = 0) ∨ ∃ c ∈ causesOf i, t = { s with status := c.status, info := c.info }

/-- 10_state R23, R26, R27. R, NPOS and SZ are written only by the commands their rules list, RDY by no command; the host's
inputs, which are the model's own field (log entry 2), are no command's to change. -/
def Obligations.RegistersOthersKeep : Prop :=
  ∀ (i : Instr) (s t : State), exec i s = .next t →
    (writesR i = false → t.r = s.r) ∧ (writesNpos i = false → t.npos = s.npos) ∧
    (writesSz i = false → t.flags.sz = s.flags.sz) ∧ t.flags.rdy = s.flags.rdy ∧ t.port = s.port

/-- 10_state R39, R38; 20_memory R63. Every byte of every buffer outside the "writes" column of the command's row reads
after it as it read before. -/
def Obligations.BytesOutsideTheWriteSetStay : Prop :=
  ∀ (i : Instr) (s t : State) (b : Buf) (j : Nat), s.wf = true → exec i s = .next t →
    writesByte i t b j = false → t.readByte b j = s.readByte b j

/-- 10_state R39, R40. No command's result depends on anything but the state its row of R39 lists as read: two states with
the same contents there get the same outcome, and the same contents written. -/
def Obligations.ResultsDependOnlyOnTheReadSet : Prop :=
  ∀ (i : Instr) (s s' t t' : State), s.wf = true → s'.wf = true →
    readContents i s = readContents i s' → exec i s = .next t → exec i s' = .next t' →
    t.status = t'.status ∧ t.info = t'.info ∧ (t.status = .ok → writtenContents i t = writtenContents i t')

/-- 10_state R27, 60_exceptions R203. No command's result depends on R or on a flag set by an earlier command, and STATUS
and INFO are not sticky: the outcome, the bytes, R where it is written and SZ where it is written are the same whatever
those registers held. -/
def Obligations.NoCommandReadsROrFlagsOrTheOutcome : Prop :=
  (∀ (i : Instr) (s : State) (status : Status) (info : Byte),
    exec i { s with status := status, info := info } = exec i s) ∧
  (∀ (i : Instr) (s t : State) (r : Byte) (flags : Flags), exec i s = .next t →
    ∃ t', exec i { s with r := r, flags := flags } = .next t' ∧ { t' with r := t.r, flags := t.flags } = t ∧
      (writesR i = true → t.status = .ok → t'.r = t.r) ∧
      (writesSz i = true → t.status = .ok → t'.flags.sz = t.flags.sz))

/-- The invariant of a running machine: every buffer is canonical and inside its size (10_state R36), NPOS is at most 127
(R26, 46_host_access R193), and STATUS with INFO is a pair of R201. Every step keeps it, from every state that has it.
The canonical form is the model's own (log entry 6). -/
def Obligations.StepKeepsTheInvariant : Prop := ∀ s t : State, s.wf = true → step s = .next t → t.wf = true

/-- 10_state R42. The state after reset: every register, the byte the host reads at FLAGS, and every byte of every buffer;
it has the invariant. The tables are constants of the model (log entry 1). -/
def Obligations.ResetStateIsAsStated : Prop :=
  State.reset.r = 0 ∧ State.reset.status.code = 0 ∧ State.reset.info = 0 ∧ State.reset.npos = 0 ∧
  State.reset.flags.toByte = 2 ∧ (∀ (b : Buf) (j : Nat), State.reset.readByte b j = 0) ∧ State.reset.wf = true

/-- 70_reset R230, R232. RESET asserted, from any state and so also inside the window, gives the cleared state, FLAGS
reading 0; a command word presented while RDY is 0 is dropped and writes nothing (log entry 18); the end of the sequence
takes the cleared state to the reset state. So a RESET with any number of words presented in its window leads to the reset state. That RESET
is two host inputs, and that the registers are clear at its assertion, is the model's choice (log entry 4). -/
def Obligations.ResetRestoresTheResetState : Prop :=
  (∀ (s : State) (rest : List HostInput), s.port = .assertReset :: rest →
    step s = .next { State.reset with flags := { sz := false, rdy := false }, port := rest }) ∧
  Flags.toByte { sz := false, rdy := false } = 0 ∧
  (∀ (s : State) (w : Word) (rest : List HostInput), s.flags.rdy = false → s.port = .issue w :: rest →
    step s = .next { s with port := rest }) ∧
  (∀ rest : List HostInput,
    step { State.reset with flags := { sz := false, rdy := false }, port := .finishReset :: rest } =
      .next { State.reset with port := rest }) ∧
  (∀ (s : State) (words : List Word) (rest : List HostInput),
    s.port = .assertReset :: (words.map .issue ++ .finishReset :: rest) →
    Sys2Proof.core.run (words.length + 2) s = .next { State.reset with port := rest })

/-- 10_state R22 to R28. The five register ports show the registers, STATUS as its code and FLAGS with SZ at bit 0, RDY at
bit 1 and zero above; a platform that puts the five ports at different addresses reads each at its own. That PORT_MAP is a
function of the port is the model's choice (log entry 8). -/
def Obligations.RegisterPortsShowTheRegisters : Prop :=
  ∀ s : State,
    s.readPort .r = some s.r ∧ s.readPort .info = some s.info ∧ s.readPort .npos = some s.npos ∧
    s.readPort .status = some s.status.code ∧ s.readPort .command = none ∧
    (∃ f, s.readPort .flags = some f ∧ f.getLsbD 0 = s.flags.sz ∧ f.getLsbD 1 = s.flags.rdy ∧
      ∀ k, 2 ≤ k → f.getLsbD k = false) ∧
    ∀ portMap : HostPort → Nat, (∀ p q, portMap p = portMap q → p = q) →
      ∀ p ∈ HostPort.registers, s.busRead portMap (portMap p) = s.readPort p

/-- 20_memory R68, 60_exceptions R217. A step of one engine of a platform is a step of that engine alone: every other
engine keeps its whole state. That a step names the engine that moves is the model's choice (log entry 9). -/
def Obligations.EnginesShareNothing : Prop :=
  ∀ (p : Platform) (k : Nat) (s : State), p.engines[k]? = some s →
    ∃ q t, p.stepEngine k = .next q ∧ step s = .next t ∧ q.engines[k]? = some t ∧
      ∀ j, j ≠ k → q.engines[j]? = p.engines[j]?

/-- 10_state R36, 20_memory R60, R64. The nine ids, their sizes, and that no other id names a buffer. -/
def Obligations.BufferMapIsAsStated : Prop :=
  (List.range 9).map (fun id => (Space.ofId id).map Space.size) =
    [some 255, some 254, some 128, some 254, some 127, some 127, some 255, some 512, some 256] ∧
  (∀ (id : Nat) (b : Buf), Space.ofId id = some (.data b) ↔ id < 7 ∧ Buf.all[id]? = some b) ∧
  ∀ id, 9 ≤ id → Space.ofId id = none
end

