-- ==== Sys2Proof/Laws/Memory.lean ====
section
/-!
SUPPORT. The laws of one data buffer: what a read gives after each write, that every operation keeps the canonical form,
and that canonical buffers with the same bytes are equal.
-/

namespace Sys2Proof.Machine

/-! ### The canonical form as a property of the cells -/

/-- The canonical form: indices strictly rising, each below the size, no zero byte. -/
theorem Memory.wf_iff (size : Nat) (m : Memory) :
    Memory.wf size m = true ↔ m.Pairwise (fun x y => x.1 < y.1) ∧ ∀ x ∈ m, x.1 < size ∧ x.2 ≠ 0 := by
  induction m with
  | nil => simp [Memory.wf]
  | cons x m ih =>
    obtain ⟨k, v⟩ := x
    cases m with
    | nil => simp [Memory.wf]
    | cons y m =>
      obtain ⟨k', v'⟩ := y
      rw [Memory.wf]
      simp only [Bool.and_eq_true, decide_eq_true_eq, ih]
      constructor
      · rintro ⟨⟨⟨hk, hv⟩, hlt⟩, hp, ha⟩
        refine ⟨List.pairwise_cons.mpr ⟨?_, hp⟩, ?_⟩
        · intro z hz
          rcases List.mem_cons.mp hz with rfl | hz
          · exact hlt
          · exact Nat.lt_trans hlt ((List.pairwise_cons.mp hp).1 z hz)
        · intro z hz
          rcases List.mem_cons.mp hz with rfl | hz
          · exact ⟨hk, hv⟩
          · exact ha z hz
      · rintro ⟨hp, ha⟩
        have hp' := List.pairwise_cons.mp hp
        exact ⟨⟨ha (k, v) (by simp), hp'.1 (k', v') (by simp)⟩, hp'.2, fun z hz => ha z (by simp [hz])⟩

/-- The form of a buffer with a cell in front. -/
theorem Memory.wf_cons (size k : Nat) (v : Byte) (m : Memory) :
    Memory.wf size ((k, v) :: m) = true ↔
      k < size ∧ v ≠ 0 ∧ (∀ x ∈ m, k < x.1) ∧ Memory.wf size m = true := by
  simp only [Memory.wf_iff, List.pairwise_cons, List.forall_mem_cons]
  tauto

@[simp] theorem Memory.wf_nil (size : Nat) : Memory.wf size [] = true := rfl

/-- A buffer inside a size is inside every larger one. -/
theorem Memory.wf_mono {size size' : Nat} (h : size ≤ size') {m : Memory} (hm : m.wf size = true) :
    m.wf size' = true := by
  rw [Memory.wf_iff] at *
  exact ⟨hm.1, fun x hx => ⟨Nat.lt_of_lt_of_le (hm.2 x hx).1 h, (hm.2 x hx).2⟩⟩

/-! ### Reads -/

@[simp] theorem Memory.read_nil (i : Nat) : Memory.read [] i = 0 := rfl

/-- An index below every listed one reads as zero. -/
theorem Memory.read_below {m : Memory} {i : Nat} (h : ∀ x ∈ m, i < x.1) : m.read i = 0 := by
  induction m with
  | nil => rfl
  | cons x m ih =>
    obtain ⟨k, v⟩ := x
    have hk : i < k := h (k, v) (by simp)
    simp only [Memory.read, if_neg (Nat.ne_of_lt hk)]
    exact ih fun y hy => h y (by simp [hy])

/-- An index at or above the size reads as zero. -/
theorem Memory.read_outside {size : Nat} {m : Memory} (hm : m.wf size = true) {i : Nat} (h : size ≤ i) :
    m.read i = 0 := by
  induction m with
  | nil => rfl
  | cons x m ih =>
    obtain ⟨k, v⟩ := x
    rw [Memory.wf_cons] at hm
    have : i ≠ k := by omega
    simp only [Memory.read, if_neg this]
    exact ih hm.2.2.2

/-- A cell put below every listed index. -/
theorem Memory.read_cell {m : Memory} {i : Nat} (v : Byte) (h : ∀ x ∈ m, i < x.1) (j : Nat) :
    (Memory.cell i v m).read j = if j = i then v else m.read j := by
  unfold Memory.cell
  split
  · split
    · simp_all [Memory.read_below h]
    · rfl
  · rfl

theorem Memory.mem_cell {m : Memory} {i : Nat} {v : Byte} {x : Host.Cell} (h : x ∈ Memory.cell i v m) :
    x = (i, v) ∨ x ∈ m := by
  unfold Memory.cell at h
  split at h
  · exact .inr h
  · simpa using h

/-! ### Writing one byte -/

theorem Memory.mem_write {m : Memory} {i : Nat} {v : Byte} {x : Host.Cell} (h : x ∈ m.write i v) :
    x.1 = i ∨ x ∈ m := by
  induction m with
  | nil =>
    rcases Memory.mem_cell h with rfl | h
    · exact .inl rfl
    · exact .inr h
  | cons y m ih =>
    obtain ⟨k, w⟩ := y
    simp only [Memory.write] at h
    split at h
    · rcases Memory.mem_cell h with rfl | h
      · exact .inl rfl
      · exact .inr h
    · split at h
      · rcases Memory.mem_cell h with rfl | h
        · exact .inl rfl
        · exact .inr (by simp [h])
      · rcases List.mem_cons.mp h with rfl | h
        · exact .inr (by simp)
        · rcases ih h with h | h
          · exact .inl h
          · exact .inr (by simp [h])

/-- A read after a write: the byte written at its place, every other byte as before. -/
theorem Memory.read_write {size : Nat} {m : Memory} (hm : m.wf size = true) (i : Nat) (v : Byte) (j : Nat) :
    (m.write i v).read j = if j = i then v else m.read j := by
  induction m with
  | nil => exact Memory.read_cell v (by simp) j
  | cons y m ih =>
    obtain ⟨k, w⟩ := y
    have hc := (Memory.wf_cons size k w m).mp hm
    simp only [Memory.write]
    split
    · rename_i hik
      refine Memory.read_cell v ?_ j
      intro x hx
      rcases List.mem_cons.mp hx with rfl | hx
      · exact hik
      · exact Nat.lt_trans hik (hc.2.2.1 x hx)
    · split
      · rename_i hik; subst hik
        rw [Memory.read_cell v hc.2.2.1 j]
        split
        · rfl
        · rename_i hne; simp [Memory.read, hne]
      · rename_i h1 h2
        simp only [Memory.read, ih hc.2.2.2]
        split
        · rename_i hjk; subst hjk
          rw [if_neg (Ne.symm h2)]
        · rfl

theorem Memory.cell_wf {size : Nat} {m : Memory} {i : Nat} (v : Byte) (hm : m.wf size = true) (hi : i < size)
    (h : ∀ x ∈ m, i < x.1) : (Memory.cell i v m).wf size = true := by
  unfold Memory.cell
  split
  · exact hm
  · rename_i hv
    exact (Memory.wf_cons ..).mpr ⟨hi, hv, h, hm⟩

/-- A write inside the buffer keeps the canonical form. -/
theorem Memory.write_wf {size : Nat} {m : Memory} (hm : m.wf size = true) {i : Nat} (hi : i < size) (v : Byte) :
    (m.write i v).wf size = true := by
  induction m with
  | nil => exact Memory.cell_wf v rfl hi (by simp)
  | cons y m ih =>
    obtain ⟨k, w⟩ := y
    have hc := (Memory.wf_cons size k w m).mp hm
    simp only [Memory.write]
    split
    · rename_i hik
      refine Memory.cell_wf v hm hi ?_
      intro x hx
      rcases List.mem_cons.mp hx with rfl | hx
      · exact hik
      · exact Nat.lt_trans hik (hc.2.2.1 x hx)
    · split
      · rename_i hik; subst hik
        exact Memory.cell_wf v hc.2.2.2 hi hc.2.2.1
      · rename_i h1 h2
        refine (Memory.wf_cons ..).mpr ⟨hc.1, hc.2.1, ?_, ih hc.2.2.2⟩
        intro x hx
        rcases Memory.mem_write hx with h | h
        · omega
        · exact hc.2.2.1 x h

/-! ### Writing a list of bytes -/

theorem Memory.writeFrom_wf {size : Nat} (l : List Byte) :
    ∀ {m : Memory} (_ : m.wf size = true) (i : Nat), i + l.length ≤ size → (m.writeFrom i l).wf size = true := by
  induction l with
  | nil => intro m hm i _; exact hm
  | cons v vs ih =>
    intro m hm i h
    simp only [List.length_cons] at h
    exact ih (Memory.write_wf hm (by omega) v) (i + 1) (by omega)

/-- A read after the bytes of a list were written from index `i` on. -/
theorem Memory.read_writeFrom {size : Nat} (l : List Byte) :
    ∀ {m : Memory} (_ : m.wf size = true) (i : Nat) (_ : i + l.length ≤ size) (j : Nat),
      (m.writeFrom i l).read j = if i ≤ j ∧ j < i + l.length then l.getD (j - i) 0 else m.read j := by
  induction l with
  | nil =>
    intro m hm i h j
    rw [if_neg (by simp only [List.length_nil]; omega)]
    rfl
  | cons v vs ih =>
    intro m hm i h j
    simp only [List.length_cons] at h ⊢
    show ((m.write i v).writeFrom (i + 1) vs).read j = _
    rw [ih (Memory.write_wf hm (by omega) v) (i + 1) (by omega) j, Memory.read_write hm]
    by_cases hj : j = i
    · subst hj; simp
    · by_cases h1 : i + 1 ≤ j ∧ j < i + 1 + vs.length
      · have : j - i = (j - (i + 1)) + 1 := by omega
        rw [if_pos h1, if_pos (by omega), this, List.getD_cons_succ]
      · rw [if_neg h1, if_neg hj, if_neg (by omega)]

theorem Memory.mem_ofBytesFrom (l : List Byte) :
    ∀ (i : Nat) {x : Host.Cell}, x ∈ Memory.ofBytesFrom i l → i ≤ x.1 := by
  induction l with
  | nil => intro i x h; simp [Memory.ofBytesFrom] at h
  | cons v vs ih =>
    intro i x h
    rcases Memory.mem_cell h with rfl | h
    · exact Nat.le_refl _
    · have := ih (i + 1) h; omega

/-- The buffer that holds a list of bytes reads as the list, and as zero elsewhere. -/
theorem Memory.read_ofBytesFrom (l : List Byte) :
    ∀ (i j : Nat), (Memory.ofBytesFrom i l).read j = if i ≤ j then l.getD (j - i) 0 else 0 := by
  induction l with
  | nil => intro i j; simp [Memory.ofBytesFrom]
  | cons v vs ih =>
    intro i j
    have hb : ∀ x ∈ Memory.ofBytesFrom (i + 1) vs, i < x.1 := fun x hx => Memory.mem_ofBytesFrom vs (i + 1) hx
    rw [Memory.ofBytesFrom, Memory.read_cell v hb, ih]
    by_cases hj : j = i
    · subst hj; simp
    · rw [if_neg hj]
      by_cases h1 : i + 1 ≤ j
      · have : j - i = (j - (i + 1)) + 1 := by omega
        rw [if_pos h1, if_pos (by omega), this, List.getD_cons_succ]
      · rw [if_neg h1, if_neg (by omega)]

theorem Memory.ofBytesFrom_wf {size : Nat} (l : List Byte) :
    ∀ (i : Nat), i + l.length ≤ size → (Memory.ofBytesFrom i l).wf size = true := by
  induction l with
  | nil => intro i _; rfl
  | cons v vs ih =>
    intro i h
    simp only [List.length_cons] at h
    exact Memory.cell_wf v (ih (i + 1) (by omega)) (by omega) fun x hx => Memory.mem_ofBytesFrom vs (i + 1) hx

/-! ### Slices -/

@[simp] theorem Memory.slice_length (m : Memory) (n : Nat) : (m.slice n).length = n := by simp [Memory.slice]

@[simp] theorem Memory.slice_getElem (m : Memory) (n i : Nat) (h : i < (m.slice n).length) :
    (m.slice n)[i] = m.read i := by simp [Memory.slice]

theorem Memory.slice_getD (m : Memory) (n i : Nat) : (m.slice n).getD i 0 = if i < n then m.read i else 0 := by
  by_cases h : i < n
  · simp [List.getD, Memory.slice, h]
  · simp [List.getD, Memory.slice, h]

/-- Two slices are equal exactly when their bytes are. -/
theorem Memory.slice_eq_iff (m m' : Memory) (n : Nat) : m.slice n = m'.slice n ↔ ∀ i, i < n → m.read i = m'.read i := by
  simp [Memory.slice]

theorem Memory.slice_map_read (m : Memory) (n : Nat) : m.slice n = (List.range n).map m.read := rfl

/-! ### Equality -/

/-- Canonical buffers with the same bytes are equal. -/
theorem Memory.ext_read {size : Nat} :
    ∀ {m m' : Memory}, m.wf size = true → m'.wf size = true → (∀ i, m.read i = m'.read i) → m = m' := by
  intro m
  induction m with
  | nil =>
    intro m' _ hm' h
    cases m' with
    | nil => rfl
    | cons y m' =>
      obtain ⟨k, v⟩ := y
      have := h k
      simp only [Memory.read] at this
      exact absurd this.symm (by simpa using ((Memory.wf_cons ..).mp hm').2.1)
  | cons x m ih =>
    obtain ⟨k, v⟩ := x
    intro m' hm hm' h
    have hc := (Memory.wf_cons ..).mp hm
    cases m' with
    | nil =>
      have := h k
      simp only [Memory.read] at this
      exact absurd this (by simpa using hc.2.1)
    | cons y m' =>
      obtain ⟨k', v'⟩ := y
      have hc' := (Memory.wf_cons ..).mp hm'
      have hk : k = k' := by
        rcases Nat.lt_trichotomy k k' with hlt | heq | hlt
        · have h1 := h k
          rw [Memory.read_below (m := (k', v') :: m')] at h1
          · simp only [Memory.read, if_true] at h1; exact absurd h1 hc.2.1
          · intro z hz
            rcases List.mem_cons.mp hz with rfl | hz
            · exact hlt
            · exact Nat.lt_trans hlt (hc'.2.2.1 z hz)
        · exact heq
        · have h1 := (h k').symm
          rw [Memory.read_below (m := (k, v) :: m)] at h1
          · simp only [Memory.read, if_true] at h1; exact absurd h1 hc'.2.1
          · intro z hz
            rcases List.mem_cons.mp hz with rfl | hz
            · exact hlt
            · exact Nat.lt_trans hlt (hc.2.2.1 z hz)
      subst hk
      have hv : v = v' := by simpa [Memory.read] using h k
      subst hv
      congr 1
      refine ih hc.2.2.2 hc'.2.2.2 fun i => ?_
      by_cases hi : i = k
      · subst hi
        rw [Memory.read_below hc.2.2.1, Memory.read_below hc'.2.2.1]
      · simpa [Memory.read, hi] using h i

/-! ### The whole-buffer write -/

/-- A produced buffer holds its entries, and zero above them (10_state R38). -/
theorem zeroFilled_read (b : Buf) (l : List Byte) (i : Nat) :
    (zeroFilled b l).read i = if i < b.size then l.getD i 0 else 0 := by
  unfold zeroFilled
  rw [Memory.read_ofBytesFrom]
  simp only [Nat.zero_le, if_true, Nat.sub_zero, List.getD, List.getElem?_take]
  split <;> simp

theorem zeroFilled_wf (b : Buf) (l : List Byte) : (zeroFilled b l).wf b.size = true := by
  apply Memory.ofBytesFrom_wf
  simp

end Sys2Proof.Machine
end

