-- ==== Sys2Proof/Laws/State.lean ====
section
/-!
SUPPORT. One lemma per field per update of the state, each true by `rfl`, so that no later proof unfolds a record update.
-/

namespace Sys2Proof.Machine

variable (s : State)

@[simp] theorem State.setR_r (v : Byte) : (s.setR v).r = v := rfl
@[simp] theorem State.setR_status (v : Byte) : (s.setR v).status = s.status := rfl
@[simp] theorem State.setR_info (v : Byte) : (s.setR v).info = s.info := rfl
@[simp] theorem State.setR_npos (v : Byte) : (s.setR v).npos = s.npos := rfl
@[simp] theorem State.setR_flags (v : Byte) : (s.setR v).flags = s.flags := rfl
@[simp] theorem State.setR_cw (v : Byte) : (s.setR v).cw = s.cw := rfl
@[simp] theorem State.setR_syn (v : Byte) : (s.setR v).syn = s.syn := rfl
@[simp] theorem State.setR_loc (v : Byte) : (s.setR v).loc = s.loc := rfl
@[simp] theorem State.setR_omg (v : Byte) : (s.setR v).omg = s.omg := rfl
@[simp] theorem State.setR_pos (v : Byte) : (s.setR v).pos = s.pos := rfl
@[simp] theorem State.setR_mag (v : Byte) : (s.setR v).mag = s.mag := rfl
@[simp] theorem State.setR_gen (v : Byte) : (s.setR v).gen = s.gen := rfl
@[simp] theorem State.setR_port (v : Byte) : (s.setR v).port = s.port := rfl

@[simp] theorem State.succeed_r : (s.succeed).r = s.r := rfl
@[simp] theorem State.succeed_status : (s.succeed).status = .ok := rfl
@[simp] theorem State.succeed_info : (s.succeed).info = 0 := rfl
@[simp] theorem State.succeed_npos : (s.succeed).npos = s.npos := rfl
@[simp] theorem State.succeed_flags : (s.succeed).flags = s.flags := rfl
@[simp] theorem State.succeed_cw : (s.succeed).cw = s.cw := rfl
@[simp] theorem State.succeed_syn : (s.succeed).syn = s.syn := rfl
@[simp] theorem State.succeed_loc : (s.succeed).loc = s.loc := rfl
@[simp] theorem State.succeed_omg : (s.succeed).omg = s.omg := rfl
@[simp] theorem State.succeed_pos : (s.succeed).pos = s.pos := rfl
@[simp] theorem State.succeed_mag : (s.succeed).mag = s.mag := rfl
@[simp] theorem State.succeed_gen : (s.succeed).gen = s.gen := rfl
@[simp] theorem State.succeed_port : (s.succeed).port = s.port := rfl

@[simp] theorem State.raise_r (c : Cause) : (s.raise c).r = s.r := rfl
@[simp] theorem State.raise_status (c : Cause) : (s.raise c).status = c.status := rfl
@[simp] theorem State.raise_info (c : Cause) : (s.raise c).info = c.info := rfl
@[simp] theorem State.raise_npos (c : Cause) : (s.raise c).npos = s.npos := rfl
@[simp] theorem State.raise_flags (c : Cause) : (s.raise c).flags = s.flags := rfl
@[simp] theorem State.raise_cw (c : Cause) : (s.raise c).cw = s.cw := rfl
@[simp] theorem State.raise_syn (c : Cause) : (s.raise c).syn = s.syn := rfl
@[simp] theorem State.raise_loc (c : Cause) : (s.raise c).loc = s.loc := rfl
@[simp] theorem State.raise_omg (c : Cause) : (s.raise c).omg = s.omg := rfl
@[simp] theorem State.raise_pos (c : Cause) : (s.raise c).pos = s.pos := rfl
@[simp] theorem State.raise_mag (c : Cause) : (s.raise c).mag = s.mag := rfl
@[simp] theorem State.raise_gen (c : Cause) : (s.raise c).gen = s.gen := rfl
@[simp] theorem State.raise_port (c : Cause) : (s.raise c).port = s.port := rfl

@[simp] theorem State.setSz_r (v : Bool) : (s.setSz v).r = s.r := rfl
@[simp] theorem State.setSz_status (v : Bool) : (s.setSz v).status = s.status := rfl
@[simp] theorem State.setSz_info (v : Bool) : (s.setSz v).info = s.info := rfl
@[simp] theorem State.setSz_npos (v : Bool) : (s.setSz v).npos = s.npos := rfl
@[simp] theorem State.setSz_flags (v : Bool) : (s.setSz v).flags = { s.flags with sz := v } := rfl
@[simp] theorem State.setSz_cw (v : Bool) : (s.setSz v).cw = s.cw := rfl
@[simp] theorem State.setSz_syn (v : Bool) : (s.setSz v).syn = s.syn := rfl
@[simp] theorem State.setSz_loc (v : Bool) : (s.setSz v).loc = s.loc := rfl
@[simp] theorem State.setSz_omg (v : Bool) : (s.setSz v).omg = s.omg := rfl
@[simp] theorem State.setSz_pos (v : Bool) : (s.setSz v).pos = s.pos := rfl
@[simp] theorem State.setSz_mag (v : Bool) : (s.setSz v).mag = s.mag := rfl
@[simp] theorem State.setSz_gen (v : Bool) : (s.setSz v).gen = s.gen := rfl
@[simp] theorem State.setSz_port (v : Bool) : (s.setSz v).port = s.port := rfl

@[simp] theorem State.storeGenerator_r (g : List Byte) : (s.storeGenerator g).r = s.r := rfl
@[simp] theorem State.storeGenerator_status (g : List Byte) : (s.storeGenerator g).status = s.status := rfl
@[simp] theorem State.storeGenerator_info (g : List Byte) : (s.storeGenerator g).info = s.info := rfl
@[simp] theorem State.storeGenerator_npos (g : List Byte) : (s.storeGenerator g).npos = s.npos := rfl
@[simp] theorem State.storeGenerator_flags (g : List Byte) : (s.storeGenerator g).flags = s.flags := rfl
@[simp] theorem State.storeGenerator_cw (g : List Byte) : (s.storeGenerator g).cw = s.cw := rfl
@[simp] theorem State.storeGenerator_syn (g : List Byte) : (s.storeGenerator g).syn = s.syn := rfl
@[simp] theorem State.storeGenerator_loc (g : List Byte) : (s.storeGenerator g).loc = s.loc := rfl
@[simp] theorem State.storeGenerator_omg (g : List Byte) : (s.storeGenerator g).omg = s.omg := rfl
@[simp] theorem State.storeGenerator_pos (g : List Byte) : (s.storeGenerator g).pos = s.pos := rfl
@[simp] theorem State.storeGenerator_mag (g : List Byte) : (s.storeGenerator g).mag = s.mag := rfl
@[simp] theorem State.storeGenerator_gen (g : List Byte) : (s.storeGenerator g).gen = zeroFilled .gen g := rfl
@[simp] theorem State.storeGenerator_port (g : List Byte) : (s.storeGenerator g).port = s.port := rfl

@[simp] theorem State.storeSyndromes_r (l : List Byte) : (s.storeSyndromes l).r = s.r := rfl
@[simp] theorem State.storeSyndromes_status (l : List Byte) : (s.storeSyndromes l).status = s.status := rfl
@[simp] theorem State.storeSyndromes_info (l : List Byte) : (s.storeSyndromes l).info = s.info := rfl
@[simp] theorem State.storeSyndromes_npos (l : List Byte) : (s.storeSyndromes l).npos = s.npos := rfl
@[simp] theorem State.storeSyndromes_flags (l : List Byte) : (s.storeSyndromes l).flags = { s.flags with sz := allZero l } := rfl
@[simp] theorem State.storeSyndromes_cw (l : List Byte) : (s.storeSyndromes l).cw = s.cw := rfl
@[simp] theorem State.storeSyndromes_syn (l : List Byte) : (s.storeSyndromes l).syn = zeroFilled .syn l := rfl
@[simp] theorem State.storeSyndromes_loc (l : List Byte) : (s.storeSyndromes l).loc = s.loc := rfl
@[simp] theorem State.storeSyndromes_omg (l : List Byte) : (s.storeSyndromes l).omg = s.omg := rfl
@[simp] theorem State.storeSyndromes_pos (l : List Byte) : (s.storeSyndromes l).pos = s.pos := rfl
@[simp] theorem State.storeSyndromes_mag (l : List Byte) : (s.storeSyndromes l).mag = s.mag := rfl
@[simp] theorem State.storeSyndromes_gen (l : List Byte) : (s.storeSyndromes l).gen = s.gen := rfl
@[simp] theorem State.storeSyndromes_port (l : List Byte) : (s.storeSyndromes l).port = s.port := rfl

@[simp] theorem State.storeLocator_r (l : List Byte) : (s.storeLocator l).r = s.r := rfl
@[simp] theorem State.storeLocator_status (l : List Byte) : (s.storeLocator l).status = s.status := rfl
@[simp] theorem State.storeLocator_info (l : List Byte) : (s.storeLocator l).info = s.info := rfl
@[simp] theorem State.storeLocator_npos (l : List Byte) : (s.storeLocator l).npos = s.npos := rfl
@[simp] theorem State.storeLocator_flags (l : List Byte) : (s.storeLocator l).flags = s.flags := rfl
@[simp] theorem State.storeLocator_cw (l : List Byte) : (s.storeLocator l).cw = s.cw := rfl
@[simp] theorem State.storeLocator_syn (l : List Byte) : (s.storeLocator l).syn = s.syn := rfl
@[simp] theorem State.storeLocator_loc (l : List Byte) : (s.storeLocator l).loc = zeroFilled .loc l := rfl
@[simp] theorem State.storeLocator_omg (l : List Byte) : (s.storeLocator l).omg = s.omg := rfl
@[simp] theorem State.storeLocator_pos (l : List Byte) : (s.storeLocator l).pos = s.pos := rfl
@[simp] theorem State.storeLocator_mag (l : List Byte) : (s.storeLocator l).mag = s.mag := rfl
@[simp] theorem State.storeLocator_gen (l : List Byte) : (s.storeLocator l).gen = s.gen := rfl
@[simp] theorem State.storeLocator_port (l : List Byte) : (s.storeLocator l).port = s.port := rfl

@[simp] theorem State.storePositions_r (l : List Nat) : (s.storePositions l).r = s.r := rfl
@[simp] theorem State.storePositions_status (l : List Nat) : (s.storePositions l).status = s.status := rfl
@[simp] theorem State.storePositions_info (l : List Nat) : (s.storePositions l).info = s.info := rfl
@[simp] theorem State.storePositions_npos (l : List Nat) : (s.storePositions l).npos = BitVec.ofNat 8 l.length := rfl
@[simp] theorem State.storePositions_flags (l : List Nat) : (s.storePositions l).flags = s.flags := rfl
@[simp] theorem State.storePositions_cw (l : List Nat) : (s.storePositions l).cw = s.cw := rfl
@[simp] theorem State.storePositions_syn (l : List Nat) : (s.storePositions l).syn = s.syn := rfl
@[simp] theorem State.storePositions_loc (l : List Nat) : (s.storePositions l).loc = s.loc := rfl
@[simp] theorem State.storePositions_omg (l : List Nat) : (s.storePositions l).omg = s.omg := rfl
@[simp] theorem State.storePositions_pos (l : List Nat) : (s.storePositions l).pos = zeroFilled .pos (l.map (BitVec.ofNat 8)) := rfl
@[simp] theorem State.storePositions_mag (l : List Nat) : (s.storePositions l).mag = s.mag := rfl
@[simp] theorem State.storePositions_gen (l : List Nat) : (s.storePositions l).gen = s.gen := rfl
@[simp] theorem State.storePositions_port (l : List Nat) : (s.storePositions l).port = s.port := rfl

@[simp] theorem State.storeMagnitudes_r (om ms : List Byte) : (s.storeMagnitudes om ms).r = s.r := rfl
@[simp] theorem State.storeMagnitudes_status (om ms : List Byte) : (s.storeMagnitudes om ms).status = s.status := rfl
@[simp] theorem State.storeMagnitudes_info (om ms : List Byte) : (s.storeMagnitudes om ms).info = s.info := rfl
@[simp] theorem State.storeMagnitudes_npos (om ms : List Byte) : (s.storeMagnitudes om ms).npos = s.npos := rfl
@[simp] theorem State.storeMagnitudes_flags (om ms : List Byte) : (s.storeMagnitudes om ms).flags = s.flags := rfl
@[simp] theorem State.storeMagnitudes_cw (om ms : List Byte) : (s.storeMagnitudes om ms).cw = s.cw := rfl
@[simp] theorem State.storeMagnitudes_syn (om ms : List Byte) : (s.storeMagnitudes om ms).syn = s.syn := rfl
@[simp] theorem State.storeMagnitudes_loc (om ms : List Byte) : (s.storeMagnitudes om ms).loc = s.loc := rfl
@[simp] theorem State.storeMagnitudes_omg (om ms : List Byte) : (s.storeMagnitudes om ms).omg = zeroFilled .omg om := rfl
@[simp] theorem State.storeMagnitudes_pos (om ms : List Byte) : (s.storeMagnitudes om ms).pos = s.pos := rfl
@[simp] theorem State.storeMagnitudes_mag (om ms : List Byte) : (s.storeMagnitudes om ms).mag = zeroFilled .mag ms := rfl
@[simp] theorem State.storeMagnitudes_gen (om ms : List Byte) : (s.storeMagnitudes om ms).gen = s.gen := rfl
@[simp] theorem State.storeMagnitudes_port (om ms : List Byte) : (s.storeMagnitudes om ms).port = s.port := rfl

@[simp] theorem State.storeClean_r (l : List Byte) : (s.storeClean l).r = s.r := rfl
@[simp] theorem State.storeClean_status (l : List Byte) : (s.storeClean l).status = s.status := rfl
@[simp] theorem State.storeClean_info (l : List Byte) : (s.storeClean l).info = s.info := rfl
@[simp] theorem State.storeClean_npos (l : List Byte) : (s.storeClean l).npos = 0 := rfl
@[simp] theorem State.storeClean_flags (l : List Byte) : (s.storeClean l).flags = { s.flags with sz := allZero l } := rfl
@[simp] theorem State.storeClean_cw (l : List Byte) : (s.storeClean l).cw = s.cw := rfl
@[simp] theorem State.storeClean_syn (l : List Byte) : (s.storeClean l).syn = zeroFilled .syn l := rfl
@[simp] theorem State.storeClean_loc (l : List Byte) : (s.storeClean l).loc = s.loc := rfl
@[simp] theorem State.storeClean_omg (l : List Byte) : (s.storeClean l).omg = s.omg := rfl
@[simp] theorem State.storeClean_pos (l : List Byte) : (s.storeClean l).pos = s.pos := rfl
@[simp] theorem State.storeClean_mag (l : List Byte) : (s.storeClean l).mag = s.mag := rfl
@[simp] theorem State.storeClean_gen (l : List Byte) : (s.storeClean l).gen = s.gen := rfl
@[simp] theorem State.storeClean_port (l : List Byte) : (s.storeClean l).port = s.port := rfl

@[simp] theorem State.applyListed_r : (s.applyListed).r = s.r := rfl
@[simp] theorem State.applyListed_status : (s.applyListed).status = s.status := rfl
@[simp] theorem State.applyListed_info : (s.applyListed).info = s.info := rfl
@[simp] theorem State.applyListed_npos : (s.applyListed).npos = s.npos := rfl
@[simp] theorem State.applyListed_flags : (s.applyListed).flags = s.flags := rfl
@[simp] theorem State.applyListed_cw : (s.applyListed).cw = applyMagnitudes s.cw (s.listedPositions.map BitVec.toNat) s.listedMagnitudes := rfl
@[simp] theorem State.applyListed_syn : (s.applyListed).syn = s.syn := rfl
@[simp] theorem State.applyListed_loc : (s.applyListed).loc = s.loc := rfl
@[simp] theorem State.applyListed_omg : (s.applyListed).omg = s.omg := rfl
@[simp] theorem State.applyListed_pos : (s.applyListed).pos = s.pos := rfl
@[simp] theorem State.applyListed_mag : (s.applyListed).mag = s.mag := rfl
@[simp] theorem State.applyListed_gen : (s.applyListed).gen = s.gen := rfl
@[simp] theorem State.applyListed_port : (s.applyListed).port = s.port := rfl

@[simp] theorem State.endReset_r : (s.endReset).r = s.r := rfl
@[simp] theorem State.endReset_status : (s.endReset).status = s.status := rfl
@[simp] theorem State.endReset_info : (s.endReset).info = s.info := rfl
@[simp] theorem State.endReset_npos : (s.endReset).npos = s.npos := rfl
@[simp] theorem State.endReset_flags : (s.endReset).flags = { s.flags with rdy := true } := rfl
@[simp] theorem State.endReset_cw : (s.endReset).cw = s.cw := rfl
@[simp] theorem State.endReset_syn : (s.endReset).syn = s.syn := rfl
@[simp] theorem State.endReset_loc : (s.endReset).loc = s.loc := rfl
@[simp] theorem State.endReset_omg : (s.endReset).omg = s.omg := rfl
@[simp] theorem State.endReset_pos : (s.endReset).pos = s.pos := rfl
@[simp] theorem State.endReset_mag : (s.endReset).mag = s.mag := rfl
@[simp] theorem State.endReset_gen : (s.endReset).gen = s.gen := rfl
@[simp] theorem State.endReset_port : (s.endReset).port = s.port := rfl

@[simp] theorem State.beginReset_r : (s.beginReset).r = 0 := rfl
@[simp] theorem State.beginReset_status : (s.beginReset).status = .ok := rfl
@[simp] theorem State.beginReset_info : (s.beginReset).info = 0 := rfl
@[simp] theorem State.beginReset_npos : (s.beginReset).npos = 0 := rfl
@[simp] theorem State.beginReset_flags : (s.beginReset).flags = { sz := false, rdy := false } := rfl
@[simp] theorem State.beginReset_cw : (s.beginReset).cw = [] := rfl
@[simp] theorem State.beginReset_syn : (s.beginReset).syn = [] := rfl
@[simp] theorem State.beginReset_loc : (s.beginReset).loc = [] := rfl
@[simp] theorem State.beginReset_omg : (s.beginReset).omg = [] := rfl
@[simp] theorem State.beginReset_pos : (s.beginReset).pos = [] := rfl
@[simp] theorem State.beginReset_mag : (s.beginReset).mag = [] := rfl
@[simp] theorem State.beginReset_gen : (s.beginReset).gen = [] := rfl
@[simp] theorem State.beginReset_port : (s.beginReset).port = s.port := rfl

@[simp] theorem State.present_r (w : Word) : (s.present w).r = s.r := rfl
@[simp] theorem State.present_status (w : Word) : (s.present w).status = s.status := rfl
@[simp] theorem State.present_info (w : Word) : (s.present w).info = s.info := rfl
@[simp] theorem State.present_npos (w : Word) : (s.present w).npos = s.npos := rfl
@[simp] theorem State.present_flags (w : Word) : (s.present w).flags = { s.flags with rdy := true } := rfl
@[simp] theorem State.present_cw (w : Word) : (s.present w).cw = s.cw := rfl
@[simp] theorem State.present_syn (w : Word) : (s.present w).syn = s.syn := rfl
@[simp] theorem State.present_loc (w : Word) : (s.present w).loc = s.loc := rfl
@[simp] theorem State.present_omg (w : Word) : (s.present w).omg = s.omg := rfl
@[simp] theorem State.present_pos (w : Word) : (s.present w).pos = s.pos := rfl
@[simp] theorem State.present_mag (w : Word) : (s.present w).mag = s.mag := rfl
@[simp] theorem State.present_gen (w : Word) : (s.present w).gen = s.gen := rfl
@[simp] theorem State.present_port (w : Word) : (s.present w).port = .issue w :: s.port := rfl

/-! ### The buffers by name -/

@[simp] theorem State.buf_cw : s.buf .cw = s.cw := rfl
@[simp] theorem State.buf_syn : s.buf .syn = s.syn := rfl
@[simp] theorem State.buf_loc : s.buf .loc = s.loc := rfl
@[simp] theorem State.buf_omg : s.buf .omg = s.omg := rfl
@[simp] theorem State.buf_pos : s.buf .pos = s.pos := rfl
@[simp] theorem State.buf_mag : s.buf .mag = s.mag := rfl
@[simp] theorem State.buf_gen : s.buf .gen = s.gen := rfl

@[simp] theorem State.setBuf_cw (m : Memory) : s.setBuf .cw m = { s with cw := m } := rfl
@[simp] theorem State.setBuf_syn (m : Memory) : s.setBuf .syn m = { s with syn := m } := rfl
@[simp] theorem State.setBuf_loc (m : Memory) : s.setBuf .loc m = { s with loc := m } := rfl
@[simp] theorem State.setBuf_omg (m : Memory) : s.setBuf .omg m = { s with omg := m } := rfl
@[simp] theorem State.setBuf_pos (m : Memory) : s.setBuf .pos m = { s with pos := m } := rfl
@[simp] theorem State.setBuf_mag (m : Memory) : s.setBuf .mag m = { s with mag := m } := rfl
@[simp] theorem State.setBuf_gen (m : Memory) : s.setBuf .gen m = { s with gen := m } := rfl

@[simp] theorem State.buf_setBuf_same (b : Buf) (m : Memory) : (s.setBuf b m).buf b = m := by cases b <;> rfl

theorem State.buf_setBuf_of_ne (b b' : Buf) (m : Memory) (h : b' ≠ b) : (s.setBuf b m).buf b' = s.buf b' := by
  cases b <;> cases b' <;> first | rfl | exact absurd rfl h

@[simp] theorem State.setBuf_r (b : Buf) (m : Memory) : (s.setBuf b m).r = s.r := by cases b <;> rfl
@[simp] theorem State.setBuf_status (b : Buf) (m : Memory) : (s.setBuf b m).status = s.status := by cases b <;> rfl
@[simp] theorem State.setBuf_info (b : Buf) (m : Memory) : (s.setBuf b m).info = s.info := by cases b <;> rfl
@[simp] theorem State.setBuf_npos (b : Buf) (m : Memory) : (s.setBuf b m).npos = s.npos := by cases b <;> rfl
@[simp] theorem State.setBuf_flags (b : Buf) (m : Memory) : (s.setBuf b m).flags = s.flags := by cases b <;> rfl
@[simp] theorem State.setBuf_port (b : Buf) (m : Memory) : (s.setBuf b m).port = s.port := by cases b <;> rfl

/-- Replacing a buffer by itself changes nothing. -/
@[simp] theorem State.setBuf_buf (b : Buf) : s.setBuf b (s.buf b) = s := by cases b <;> rfl

/-- Two states are equal when their registers, their buffers and their ports are. -/
theorem State.ext_buf {s t : State} (hr : s.r = t.r) (hst : s.status = t.status) (hi : s.info = t.info)
    (hn : s.npos = t.npos) (hf : s.flags = t.flags) (hb : ∀ b, s.buf b = t.buf b) (hp : s.port = t.port) : s = t := by
  have hcw := hb .cw
  have hsyn := hb .syn
  have hloc := hb .loc
  have homg := hb .omg
  have hpos := hb .pos
  have hmag := hb .mag
  have hgen := hb .gen
  cases s; cases t
  simp only [State.buf] at *
  simp [*]

end Sys2Proof.Machine
end

