-- ==== Sys2Proof/Laws/Ops.lean ====
section
/-!
SUPPORT. What each shared operation on a state does, said once: the end of a command, the checks' sequencing, the port,
reset, and one byte of one buffer.
-/

namespace Sys2Proof.Machine

/-! ### The sequencing of a command body -/

@[simp] theorem except_ok_bind {α β : Type} (a : α) (f : α → Except Cause β) : (Except.ok a >>= f) = f a := rfl

@[simp] theorem except_error_bind {α β : Type} (c : Cause) (f : α → Except Cause β) :
    (Except.error c >>= f) = .error c := rfl

@[simp] theorem except_pure {α : Type} (a : α) : (pure a : Except Cause α) = .ok a := rfl

/-- A body that completes ran its first part and then the rest. -/
theorem except_bind_ok {α β : Type} {x : Except Cause α} {f : α → Except Cause β} {b : β} (h : (x >>= f) = .ok b) :
    ∃ a, x = .ok a ∧ f a = .ok b := by
  cases x with
  | ok a => exact ⟨a, rfl, h⟩
  | error c => cases h

/-- A body that raises did so in its first part or, after it, in the rest. -/
theorem except_bind_error {α β : Type} {x : Except Cause α} {f : α → Except Cause β} {c : Cause}
    (h : (x >>= f) = .error c) : x = .error c ∨ ∃ a, x = .ok a ∧ f a = .error c := by
  cases x with
  | ok a => exact .inr ⟨a, rfl, h⟩
  | error c' => cases h; exact .inl rfl

/-! ### The end of a command -/

@[simp] theorem State.commit_ok (s t : State) : s.commit (.ok t) = .next t.succeed := rfl

@[simp] theorem State.commit_error (s : State) (c : Cause) : s.commit (.error c) = .next (s.raise c) := rfl

/-- A command always ends with a next state (60_exceptions R206): its body's, committed with a success, or the state
before it with the raise. -/
theorem State.commit_cases {s t : State} {body : Except Cause State} (h : s.commit body = .next t) :
    (∃ u, body = .ok u ∧ t = u.succeed) ∨ ∃ c, body = .error c ∧ t = s.raise c := by
  cases body with
  | ok u => cases h; exact .inl ⟨u, rfl, rfl⟩
  | error c => cases h; exact .inr ⟨c, rfl, rfl⟩

theorem State.commit_next (s : State) (body : Except Cause State) : ∃ t, s.commit body = .next t := by
  cases body with
  | ok u => exact ⟨_, rfl⟩
  | error c => exact ⟨_, rfl⟩

/-- No cause has STATUS 0. -/
theorem Cause.status_ne_ok (c : Cause) : c.status ≠ .ok := by cases c <;> decide

/-- A command that ends with STATUS 0 committed its body's state. -/
theorem State.commit_success {s t : State} {body : Except Cause State} (h : s.commit body = .next t)
    (ht : t.status = .ok) : ∃ u, body = .ok u ∧ t = u.succeed := by
  rcases State.commit_cases h with hu | ⟨c, -, rfl⟩
  · exact hu
  · exact absurd ht (Cause.status_ne_ok c)

/-- A command that ends with another STATUS changed STATUS and INFO only. -/
theorem State.commit_failure {s t : State} {body : Except Cause State} (h : s.commit body = .next t)
    (ht : t.status ≠ .ok) : ∃ c, body = .error c ∧ t = s.raise c := by
  rcases State.commit_cases h with ⟨u, -, rfl⟩ | hc
  · exact absurd rfl ht
  · exact hc

theorem Cause.mem_all (c : Cause) : c ∈ Cause.all := by cases c <;> decide

@[simp] theorem State.buf_succeed (s : State) (b : Buf) : s.succeed.buf b = s.buf b := by cases b <;> rfl

@[simp] theorem State.buf_raise (s : State) (c : Cause) (b : Buf) : (s.raise c).buf b = s.buf b := by cases b <;> rfl

@[simp] theorem State.buf_setR (s : State) (v : Byte) (b : Buf) : (s.setR v).buf b = s.buf b := by cases b <;> rfl

@[simp] theorem State.buf_setSz (s : State) (v : Bool) (b : Buf) : (s.setSz v).buf b = s.buf b := by cases b <;> rfl

/-! ### One byte of one buffer -/

/-- A read after a write, over all the buffers. -/
theorem State.readByte_writeByte {s : State} {b : Buf} (hb : (s.buf b).wf b.size = true) (i : Nat) (v : Byte) (b' : Buf)
    (j : Nat) : (s.writeByte b i v).readByte b' j = if b' = b ∧ j = i then v else s.readByte b' j := by
  unfold State.writeByte State.readByte
  by_cases hbb : b' = b
  · subst hbb; simp [Memory.read_write hb]
  · simp [State.buf_setBuf_of_ne _ _ _ _ hbb, hbb]

/-- A write inside a buffer keeps every buffer's canonical form. -/
theorem State.writeByte_wf {s : State} (h : ∀ b, (s.buf b).wf b.size = true) {b : Buf} {i : Nat} (hi : i < b.size)
    (v : Byte) (b' : Buf) : ((s.writeByte b i v).buf b').wf b'.size = true := by
  unfold State.writeByte
  by_cases hbb : b' = b
  · subst hbb; simpa using Memory.write_wf (h b') hi v
  · rw [State.buf_setBuf_of_ne _ _ _ _ hbb]; exact h b'

/-! ### The port and reset -/

theorem State.nextInput_none {s : State} (h : s.port = []) : s.nextInput = none := by
  unfold State.nextInput; rw [h]

theorem State.nextInput_some {s : State} {i : HostInput} {rest : List HostInput} (h : s.port = i :: rest) :
    s.nextInput = some (i, { s with port := rest }) := by
  unfold State.nextInput; rw [h]

/-- The two ends of the reset sequence together leave the reset state, the port apart. -/
theorem State.endReset_beginReset (s : State) : s.beginReset.endReset = { State.reset with port := s.port } := rfl

end Sys2Proof.Machine
end

