-- ==== Sys2Proof/Laws/Field.lean ====
section
/-!
SUPPORT. The field operations in terms of the log of their operands, so that no later proof unfolds them.
-/

namespace Sys2Proof.Machine

@[simp] theorem gfLog_zero : gfLog 0#8 = none := rfl

/-- The log is absent only at zero (10_state R32). -/
theorem gfLog_some_of_ne {a : Byte} (h : a ≠ 0) : ∃ i, gfLog a = some i := by
  have all : ∀ v : Fin 256, v ≠ 0 → (logAt v.val).isSome = true := by decide +kernel
  have hv : (⟨a.toNat, a.isLt⟩ : Fin 256) ≠ 0 := by
    intro hz
    exact h (BitVec.eq_of_toNat_eq (congrArg Fin.val hz))
  exact Option.isSome_iff_exists.mp (all _ hv)

theorem gfLog_none_iff {a : Byte} : gfLog a = none ↔ a = 0 := by
  constructor
  · intro h
    by_contra ha
    obtain ⟨i, hi⟩ := gfLog_some_of_ne ha
    rw [hi] at h; cases h
  · rintro rfl; rfl

theorem gfMul_of_log {a b : Byte} {i j : Nat} (ha : gfLog a = some i) (hb : gfLog b = some j) :
    gfMul a b = expAt ((i + j) % 255) := by
  unfold gfMul; rw [ha, hb]

@[simp] theorem gfMul_zero_left (b : Byte) : gfMul 0#8 b = 0#8 := rfl

@[simp] theorem gfMul_zero_right (a : Byte) : gfMul a 0#8 = 0#8 := by
  unfold gfMul; rw [gfLog_zero]; cases gfLog a <;> rfl

theorem gfInv_of_log {a : Byte} {i : Nat} (ha : gfLog a = some i) : gfInv a = some (expAt (255 - i)) := by
  unfold gfInv; rw [ha]

@[simp] theorem gfInv_zero : gfInv 0#8 = none := rfl

theorem gfInv_some_of_ne {a : Byte} (h : a ≠ 0) : ∃ ia, gfInv a = some ia := by
  obtain ⟨i, hi⟩ := gfLog_some_of_ne h
  exact ⟨_, gfInv_of_log hi⟩

theorem gfInv_none_iff {a : Byte} : gfInv a = none ↔ a = 0 := by
  constructor
  · intro h
    by_contra ha
    obtain ⟨i, hi⟩ := gfInv_some_of_ne ha
    rw [hi] at h; cases h
  · rintro rfl; rfl

@[simp] theorem gfDiv_by_zero (a : Byte) : gfDiv a 0#8 = none := rfl

theorem gfDiv_of_inv {a b ib : Byte} (h : gfInv b = some ib) :
    gfDiv a b = some (if a = 0 then 0 else gfMul a ib) := by
  unfold gfDiv; rw [h]; dsimp only; split <;> rfl

@[simp] theorem gfPow_exponent_zero (a : Byte) : gfPow a 0 = 1 := rfl

theorem gfPow_of_log {a : Byte} {i e : Nat} (ha : gfLog a = some i) (he : e ≠ 0) : gfPow a e = expAt ((i * e) % 255) := by
  unfold gfPow; rw [if_neg he, ha]

/-- The exponent table has period 255 (10_state R30). -/
theorem expAt_mod (i : Nat) : expAt (i % 255) = expAt i := by
  unfold expAt Config.order; simp

@[simp] theorem orDivisionByZero_some (v : Byte) : orDivisionByZero (some v) = .ok v := rfl

@[simp] theorem orDivisionByZero_none : orDivisionByZero none = .error .operand := rfl

end Sys2Proof.Machine
end

