-- ==== Sys2Proof/Laws/Operands.lean ====
section
/-!
SUPPORT. What each operand check answers, said once: it passes exactly on the admitted values, and otherwise raises its
one cause.
-/

namespace Sys2Proof.Machine

theorem checkNsym_spec (nsym : Nat) :
    checkNsym nsym = if 1 ≤ nsym ∧ nsym ≤ 254 then .ok () else .error .nsymRange := by
  unfold checkNsym Config.nsymMin Config.nsymMax
  split <;> split <;> first | rfl | omega

theorem checkWordLength_spec (nsym n : Nat) :
    checkWordLength nsym n = if nsym ≤ n then .ok () else .error .lenRange := by
  unfold checkWordLength
  split <;> split <;> first | rfl | omega

theorem checkCodewordLength_spec (nsym k : Nat) :
    checkCodewordLength nsym k = if nsym + k ≤ 255 then .ok () else .error .lenRange := by
  unfold checkCodewordLength Config.nMax
  split <;> split <;> first | rfl | omega

theorem checkCount_spec (count : Nat) : checkCount count = if count ≤ 127 then .ok () else .error .countRange := by
  unfold checkCount Config.tMax
  split <;> split <;> first | rfl | omega

theorem checkIndex_spec (size idx : Nat) : checkIndex size idx = if idx < size then .ok () else .error .bufIndex := by
  unfold checkIndex
  split <;> split <;> first | rfl | omega

theorem checkEvalLength_spec (b : Buf) (len : Nat) :
    checkEvalLength b len = if len ≤ b.size then .ok () else .error .countRange := by
  unfold checkEvalLength
  split <;> split <;> first | rfl | omega

/-- The position check passes exactly when every listed position is below `n`. -/
theorem checkPositions_ok {positions : List Byte} {n : Nat} (h : ∀ p ∈ positions, p.toNat < n) :
    checkPositions positions n = .ok () := by
  unfold checkPositions
  rw [if_neg]
  simp only [List.any_eq_true, decide_eq_true_eq, not_exists, not_and, Nat.not_le]
  exact h

theorem checkPositions_error {positions : List Byte} {n : Nat} (h : ∃ p ∈ positions, n ≤ p.toNat) :
    checkPositions positions n = .error .posRange := by
  unfold checkPositions
  rw [if_pos]
  simpa using h

theorem checkPositions_cases {positions : List Byte} {n : Nat} :
    (checkPositions positions n = .ok () ∧ ∀ p ∈ positions, p.toNat < n) ∨
      (checkPositions positions n = .error .posRange ∧ ∃ p ∈ positions, n ≤ p.toNat) := by
  by_cases h : ∀ p ∈ positions, p.toNat < n
  · exact .inl ⟨checkPositions_ok h, h⟩
  · have h' : ∃ p ∈ positions, n ≤ p.toNat := by simpa using h
    exact .inr ⟨checkPositions_error h', h'⟩

/-- A listed position is an entry of POS below NPOS. -/
theorem State.mem_listedPositions {s : State} {p : Byte} :
    p ∈ s.listedPositions ↔ ∃ i, i < s.npos.toNat ∧ s.pos.read i = p := by
  simp [State.listedPositions, Memory.slice]

@[simp] theorem State.listedPositions_length (s : State) : s.listedPositions.length = s.npos.toNat := by
  simp [State.listedPositions]

@[simp] theorem State.listedMagnitudes_length (s : State) : s.listedMagnitudes.length = s.npos.toNat := by
  simp [State.listedMagnitudes]

/-- The id of each data buffer (10_state R36). -/
def Buf.id : Buf → Nat
  | .cw => 0
  | .syn => 1
  | .loc => 2
  | .omg => 3
  | .pos => 4
  | .mag => 5
  | .gen => 6

@[simp] theorem Space.ofId_id (b : Buf) : Space.ofId b.id = some (.data b) := by cases b <;> rfl

/-- An id that names a space is 0 to 8. -/
theorem Space.ofId_cases {id : Nat} {sp : Space} (h : Space.ofId id = some sp) :
    (∃ b : Buf, id = b.id ∧ sp = .data b) ∨ (id = 7 ∧ sp = .exp) ∨ (id = 8 ∧ sp = .log) := by
  unfold Space.ofId at h
  split at h <;> cases h
  · exact .inl ⟨.cw, rfl, rfl⟩
  · exact .inl ⟨.syn, rfl, rfl⟩
  · exact .inl ⟨.loc, rfl, rfl⟩
  · exact .inl ⟨.omg, rfl, rfl⟩
  · exact .inl ⟨.pos, rfl, rfl⟩
  · exact .inl ⟨.mag, rfl, rfl⟩
  · exact .inl ⟨.gen, rfl, rfl⟩
  · exact .inr (.inl ⟨rfl, rfl⟩)
  · exact .inr (.inr ⟨rfl, rfl⟩)

theorem selectSpace_of_some {id : Nat} {sp : Space} (h : Space.ofId id = some sp) : selectSpace id = .ok sp := by
  unfold selectSpace; rw [h]

theorem selectSpace_of_none {id : Nat} (h : Space.ofId id = none) : selectSpace id = .error .bufId := by
  unfold selectSpace; rw [h]

theorem evaluable_of_data {id : Nat} {b : Buf} (h : Space.ofId id = some (.data b)) : evaluable id = .ok b := by
  unfold evaluable; rw [h]

@[simp] theorem writable_data (b : Buf) : writable (.data b) = .ok b := rfl

@[simp] theorem State.fetchByte_data (s : State) (b : Buf) (i : Nat) : s.fetchByte (.data b) i = .ok (s.readByte b i) := rfl

@[simp] theorem State.fetchByte_exp (s : State) (i : Nat) : s.fetchByte .exp i = .ok (expAt i) := rfl

theorem State.fetchByte_log (s : State) {i v : Nat} (h : logAt i = some v) :
    s.fetchByte .log i = .ok (BitVec.ofNat 8 v) := by
  simp [State.fetchByte, State.readSpace, h]

end Sys2Proof.Machine
end

