-- ==== Sys2Proof/Laws/Poly.lean ====
section
/-!
SUPPORT. The lengths of the coefficient arrays, the equations of the polynomial loops, and what the correction loop does
to CW.
-/

namespace Sys2Proof.Machine

/-! ### Lengths -/

@[simp] theorem fitTo_length (n : Nat) (p : List Byte) : (fitTo n p).length = n := by simp [fitTo]

theorem fitTo_getD (n : Nat) (p : List Byte) (i : Nat) : (fitTo n p).getD i 0 = if i < n then p.getD i 0 else 0 := by
  unfold fitTo
  simp only [List.getD, List.getElem?_take, List.getElem?_append, List.getElem?_replicate]
  by_cases h : i < n
  · by_cases hp : i < p.length
    · simp [h, hp]
    · simp only [h, hp, if_true, if_false]
      rw [List.getElem?_eq_none (Nat.le_of_not_lt hp)]
      split <;> rfl
  · simp [h]

@[simp] theorem addScaled_length (f : Byte) (w : List Byte) : ∀ g : List Byte, (addScaled f w g).length = w.length := by
  induction w with
  | nil => intro g; cases g <;> rfl
  | cons x w ih => intro g; cases g <;> simp [addScaled, ih]

@[simp] theorem addScaledAt_length (w : List Byte) (i : Nat) (f : Byte) (g : List Byte) :
    (addScaledAt w i f g).length = w.length := by
  simp [addScaledAt]; omega

/-- The inner loop of R132, R150 and R151, entry by entry. -/
theorem addScaled_getD (f : Byte) (w : List Byte) :
    ∀ (g : List Byte) (j : Nat),
      (addScaled f w g).getD j 0 = if j < w.length then w.getD j 0 ^^^ gfMul f (g.getD j 0) else 0 := by
  induction w with
  | nil => intro g j; cases g <;> simp [addScaled]
  | cons x w ih =>
    intro g j
    cases g with
    | nil =>
      simp only [addScaled, List.getD_nil, BitVec.ofNat_eq_ofNat, gfMul_zero_right]
      split
      · exact (BitVec.xor_zero).symm
      · rename_i h; simp [List.getD, List.getElem?_eq_none (Nat.le_of_not_lt h)]
    | cons y g =>
      cases j with
      | zero => simp [addScaled]
      | succ j => simp only [addScaled, List.getD_cons_succ, ih, List.length_cons, Nat.add_lt_add_iff_right]

@[simp] theorem xorList_length (p q : List Byte) : (xorList p q).length = min p.length q.length := by simp [xorList]

@[simp] theorem mulLinear_length (g : List Byte) (r : Byte) : (mulLinear g r).length = g.length :=
  addScaledAt_length ..

@[simp] theorem sweepStep_length (g w : List Byte) (i : Nat) : (sweepStep g w i).length = w.length := by
  simp only [sweepStep]; split <;> simp

/-- A fold whose step keeps the length keeps it. -/
theorem foldl_length {α : Type} (f : List Byte → α → List Byte) (hf : ∀ w a, (f w a).length = w.length) (l : List α) :
    ∀ w : List Byte, (l.foldl f w).length = w.length := by
  induction l with
  | nil => intro w; rfl
  | cons a l ih => intro w; rw [List.foldl_cons, ih, hf]

@[simp] theorem sweep_length (m g : List Byte) (nsym : Nat) : (sweep m g nsym).length = m.length + nsym := by
  unfold sweep
  rw [foldl_length _ (fun w i => sweepStep_length g w i)]
  simp

@[simp] theorem rsParity_length (m g : List Byte) (nsym : Nat) : (rsParity m g nsym).length = nsym := by
  simp [rsParity]

@[simp] theorem rsSynd_length (c : List Byte) (nsym : Nat) : (rsSynd c nsym).length = nsym := by simp [rsSynd]

/-- The condition of SZ, entry by entry (10_state R27). -/
theorem allZero_iff (l : List Byte) : allZero l = true ↔ ∀ i, i < l.length → l.getD i 0 = 0 := by
  unfold allZero
  simp only [List.all_eq_true, decide_eq_true_eq]
  constructor
  · intro h i hi
    rw [List.getD_eq_getElem _ _ hi]
    exact h _ (List.getElem_mem hi)
  · intro h v hv
    obtain ⟨i, hi, rfl⟩ := List.getElem_of_mem hv
    rw [← List.getD_eq_getElem l 0 hi]
    exact h i hi

/-! ### Equations of the loops -/

@[simp] theorem polyEval_nil (x : Byte) : polyEval [] x = 0 := rfl

theorem polyEval_cons (c : Byte) (p : List Byte) (x : Byte) : polyEval (c :: p) x = gfMul (polyEval p x) x ^^^ c := rfl

/-- Zero coefficients above do not count. -/
@[simp] theorem polyEval_append_zeros (p : List Byte) (n : Nat) (x : Byte) :
    polyEval (p ++ List.replicate n 0#8) x = polyEval p x := by
  have zeros : polyEval (List.replicate n 0#8) x = 0#8 := by
    induction n with
    | zero => rfl
    | succ n ih => rw [List.replicate_succ, polyEval_cons, ih]; simp
  unfold polyEval at *
  exact (List.foldr_append ..).trans (congrArg (fun r => List.foldr _ r p) zeros)

@[simp] theorem polyEvald_nil (x : Byte) : polyEvald [] x = 0 := rfl

theorem syndromeFrom_cons (i j : Nat) (acc c : Byte) (cs : List Byte) :
    syndromeFrom i j acc (c :: cs) = syndromeFrom i (j + 1) (acc ^^^ gfMul c (expAt ((i * j) % 255))) cs := rfl

/-! ### The magnitudes and the correction loop -/

/-- The magnitudes of a list of positions, when every denominator is nonzero: one for each, in order. -/
theorem forneyMagnitudes_ok {om lam : List Byte} {js : List Nat} {ms : List Byte}
    (h : forneyMagnitudes om lam js = .ok ms) :
    List.Forall₂ (fun j m => forneyMagnitude om lam j = .ok m) js ms := by
  induction js generalizing ms with
  | nil => cases h; exact .nil
  | cons j js ih =>
    obtain ⟨m, hm, h⟩ := except_bind_ok h
    obtain ⟨ms', hms, h⟩ := except_bind_ok h
    cases h
    exact .cons hm (ih hms)

theorem forneyMagnitudes_length {om lam : List Byte} {js : List Nat} {ms : List Byte}
    (h : forneyMagnitudes om lam js = .ok ms) : ms.length = js.length :=
  (forneyMagnitudes_ok h).length_eq.symm

/-- The only raise of the Forney stage's loop is the zero denominator (60_exceptions R201). -/
theorem forneyMagnitude_error {om lam : List Byte} {j : Nat} {c : Cause} (h : forneyMagnitude om lam j = .error c) :
    c = .forneyDen := by
  unfold forneyMagnitude at h
  dsimp only at h
  split at h
  · cases h
  · cases h; rfl

theorem forneyMagnitudes_error {om lam : List Byte} {js : List Nat} {c : Cause}
    (h : forneyMagnitudes om lam js = .error c) : c = .forneyDen := by
  induction js with
  | nil => cases h
  | cons j js ih =>
    rcases except_bind_error h with h | ⟨m, -, h⟩
    · exact forneyMagnitude_error h
    · rcases except_bind_error h with h | ⟨ms, -, h⟩
      · exact ih h
      · cases h

/-- The correction loop inside the buffer keeps the canonical form. -/
theorem applyMagnitudes_wf {size : Nat} (js : List Nat) :
    ∀ {m : Memory} (ms : List Byte), m.wf size = true → (∀ j ∈ js, j < size) →
      (applyMagnitudes m js ms).wf size = true := by
  induction js with
  | nil => intro m ms hm _; cases ms <;> exact hm
  | cons j js ih =>
    intro m ms hm hj
    cases ms with
    | nil => exact hm
    | cons v ms =>
      exact ih ms (Memory.write_wf hm (hj j (by simp)) _) fun j' hj' => hj j' (by simp [hj'])

/-- A byte no listed position names is not changed. -/
theorem applyMagnitudes_frame {size : Nat} (js : List Nat) :
    ∀ {m : Memory} (ms : List Byte) (_ : m.wf size = true) (_ : ∀ j ∈ js, j < size) (i : Nat) (_ : i ∉ js),
      (applyMagnitudes m js ms).read i = m.read i := by
  induction js with
  | nil => intro m ms _ _ i _; cases ms <;> rfl
  | cons j js ih =>
    intro m ms hm hj i hi
    cases ms with
    | nil => rfl
    | cons v ms =>
      simp only [List.mem_cons, not_or] at hi
      rw [applyMagnitudes, ih ms (Memory.write_wf hm (hj j (by simp)) _) (fun j' hj' => hj j' (by simp [hj'])) i hi.2,
        Memory.read_write hm, if_neg hi.1]

end Sys2Proof.Machine
end

