-- ==== Sys2Proof/Laws/Locator.lean ====
section
/-!
SUPPORT. What the key-equation solver and the root search can answer: the shape of a success and the causes of a raise.
-/

namespace Sys2Proof.Machine

@[simp] theorem mulTruncFrom_length (b : List Byte) (a : List Byte) :
    ∀ (i : Nat) (r : List Byte), (mulTruncFrom b i a r).length = r.length := by
  induction a with
  | nil => intro i r; rfl
  | cons c cs ih => intro i r; rw [mulTruncFrom, ih]; simp

@[simp] theorem polyMulTrunc_length (a b : List Byte) (len : Nat) : (polyMulTrunc a b len).length = len := by
  simp [polyMulTrunc]

/-- The root search does not see zero coefficients above. -/
@[simp] theorem chienFound_append_zeros (lam : List Byte) (n : Nat) :
    chienFound (lam ++ List.replicate n 0#8) = chienFound lam := by
  unfold chienFound chienCandidate
  simp only [polyEval_append_zeros]

/-- The root search answers its list when it lies in the word, has the locator's degree and is within the capacity. -/
theorem rsChien_of_found {lam : List Byte} {nsym n : Nat} {found : List Nat} (h : chienFound lam = found)
    (hn : ∀ j ∈ found, j < n) (hd : (found.length : Int) = polyDeg lam) (hc : found.length ≤ nsym / 2) :
    rsChien lam nsym n = .ok found := by
  unfold rsChien
  rw [h]
  have h1 : (found.any fun j => decide (n ≤ j)) = false := by simpa using hn
  simp [h1, hd, Nat.not_lt.mpr hc]

/-- RS.CHIEN when the search answers (R155). -/
theorem execRsChien_of_found {nsym n : Nat} {s : State} {found : List Nat} (h1 : 1 ≤ nsym) (h2 : nsym ≤ 254)
    (h3 : nsym ≤ n) (hc : rsChien (s.loc.slice 128) nsym n = .ok found) :
    execRsChien nsym n s = .next (s.storePositions found).succeed := by
  unfold execRsChien
  simp [checkNsym_spec, checkWordLength_spec, h1, h2, h3, hc]

/-- RS.LOCATE when both its stages answer (R157). -/
theorem execRsLocate_of_located {nsym n : Nat} {s : State} {lam : List Byte} {found : List Nat} (h1 : 1 ≤ nsym)
    (h2 : nsym ≤ 254) (h3 : nsym ≤ n) (hk : rsKeyeq (s.syn.slice nsym) nsym = .ok lam)
    (hc : rsChien (fitTo 128 lam) nsym n = .ok found) :
    execRsLocate nsym n s = .next ((s.storeLocator lam).storePositions found).succeed := by
  unfold execRsLocate
  simp [checkNsym_spec, checkWordLength_spec, h1, h2, h3, hk, hc]

/-- The solver raises only for a zero constant term (60_exceptions R201). -/
theorem rsKeyeq_error {syndromes : List Byte} {nsym : Nat} {c : Cause} (h : rsKeyeq syndromes nsym = .error c) :
    c = .locatorConstZero := by
  unfold rsKeyeq at h
  dsimp only at h
  split at h
  · cases h
  · cases h; rfl

/-- What the root search answers, its raises in their order (R154). -/
theorem rsChien_ok {lam : List Byte} {nsym n : Nat} {found : List Nat} (h : rsChien lam nsym n = .ok found) :
    found = chienFound lam ∧ (∀ j ∈ found, j < n) ∧ (found.length : Int) = polyDeg lam ∧ found.length ≤ nsym / 2 := by
  unfold rsChien at h
  dsimp only at h
  split at h
  · cases h
  · rename_i h1
    split at h
    · cases h
    · rename_i h2
      split at h
      · cases h
      · rename_i h3
        cases h
        refine ⟨rfl, ?_, not_not.mp h2, Nat.le_of_not_lt h3⟩
        intro j hj
        by_contra hn
        exact h1 (List.any_eq_true.mpr ⟨j, hj, by simpa using Nat.le_of_not_lt hn⟩)

theorem rsChien_error {lam : List Byte} {nsym n : Nat} {c : Cause} (h : rsChien lam nsym n = .error c) :
    c = .rootOutside ∨ c = .rootCount ∨ c = .tooMany := by
  unfold rsChien at h
  dsimp only at h
  split at h
  · cases h; exact .inl rfl
  · split at h
    · cases h; exact .inr (.inl rfl)
    · split at h
      · cases h; exact .inr (.inr rfl)
      · cases h

end Sys2Proof.Machine
end

