-- ==== Sys2Proof/Laws/Corrector.lean ====
section
/-!
SUPPORT. RS.DECODE stage by stage: what it is once the operands pass and each stage's answer is known.
-/

namespace Sys2Proof.Machine

/-- The stages after the syndromes, when the key equation and the root search answer (R175, R177). -/
theorem decodeStages_of_located {s : State} {nsym n : Nat} {syndromes lam : List Byte} {found : List Nat}
    {ms : List Byte} (hk : rsKeyeq syndromes nsym = .ok lam) (hc : rsChien (fitTo 128 lam) nsym n = .ok found)
    (hf : forneyMagnitudes (evaluatorPoly syndromes (fitTo 128 lam) nsym) (fitTo 128 lam) found = .ok ms) :
    decodeStages s nsym n syndromes =
      if allZero (rsSynd ((applyMagnitudes s.cw found ms).slice n) nsym) then
        .ok { (((s.storeSyndromes syndromes).storeLocator lam).storePositions found).storeMagnitudes
                (evaluatorPoly syndromes (fitTo 128 lam) nsym) ms with cw := applyMagnitudes s.cw found ms }
      else .error .residual := by
  unfold decodeStages
  simp only [hk, hc, hf, except_ok_bind, except_pure]

theorem decodeStages_keyeq_error {s : State} {nsym n : Nat} {syndromes : List Byte} {c : Cause}
    (hk : rsKeyeq syndromes nsym = .error c) : decodeStages s nsym n syndromes = .error c := by
  unfold decodeStages
  simp only [hk, except_error_bind]

theorem decodeStages_chien_error {s : State} {nsym n : Nat} {syndromes lam : List Byte} {c : Cause}
    (hk : rsKeyeq syndromes nsym = .ok lam) (hc : rsChien (fitTo 128 lam) nsym n = .error c) :
    decodeStages s nsym n syndromes = .error c := by
  unfold decodeStages
  simp only [hk, hc, except_ok_bind, except_error_bind]

/-- RS.DECODE with admitted operands: the fast path on zero syndromes, otherwise the stages (R175, R176). -/
theorem execRsDecode_of_operands {nsym n : Nat} {s : State} (h1 : 1 ≤ nsym) (h2 : nsym ≤ 254) (h3 : nsym ≤ n) :
    execRsDecode nsym n s =
      if allZero (rsSynd (s.cw.slice n) nsym) then .next (s.storeClean (rsSynd (s.cw.slice n) nsym)).succeed
      else s.commit (decodeStages s nsym n (rsSynd (s.cw.slice n) nsym)) := by
  unfold execRsDecode
  simp only [checkNsym_spec, checkWordLength_spec, h1, h2, h3, and_self, if_true, except_ok_bind, except_pure]
  split
  · rfl
  · rfl

end Sys2Proof.Machine
end

