-- ==== Sys2Proof/Laws/Decode.lean ====
section
/-!
SUPPORT. Lemmas about the fields of a command word, the opcode rows and the mask test.
-/

namespace Sys2Proof

@[simp] theorem opField_mkWord (op a b c : Byte) : opField (mkWord op a b c) = op := by
  unfold opField mkWord
  ext i hi
  simp [BitVec.getElem_extractLsb']
  grind

@[simp] theorem aField_mkWord (op a b c : Byte) : aField (mkWord op a b c) = a := by
  unfold aField mkWord
  ext i hi
  simp [BitVec.getElem_extractLsb']
  grind

@[simp] theorem bField_mkWord (op a b c : Byte) : bField (mkWord op a b c) = b := by
  unfold bField mkWord
  ext i hi
  simp [BitVec.getElem_extractLsb']
  grind

@[simp] theorem cField_mkWord (op a b c : Byte) : cField (mkWord op a b c) = c := by
  unfold cField mkWord
  ext i hi
  simp [BitVec.getElem_extractLsb']
  grind

/-- A word is made of its four fields (30_encoding R80). -/
theorem mkWord_fields (w : Word) : mkWord (opField w) (aField w) (bField w) (cField w) = w := by
  unfold mkWord opField aField bField cField
  ext i hi
  simp only [BitVec.getElem_append, BitVec.getElem_extractLsb']
  have whole : ∀ k (hk : k < 32), k = i → w.getLsbD k = w[i] := by
    rintro k hk rfl; exact BitVec.getLsbD_eq_getElem hk
  split
  · exact whole _ (by omega) (by omega)
  · split
    · exact whole _ (by omega) (by omega)
    · split
      · exact whole _ (by omega) (by omega)
      · exact whole _ (by omega) (by omega)

/-- Two words are equal when their fields are. -/
theorem mkWord_inj {op a b c op' a' b' c' : Byte} :
    mkWord op a b c = mkWord op' a' b' c' ↔ op = op' ∧ a = a' ∧ b = b' ∧ c = c' := by
  constructor
  · intro h
    exact ⟨by simpa using congrArg opField h, by simpa using congrArg aField h, by simpa using congrArg bField h,
      by simpa using congrArg cField h⟩
  · rintro ⟨rfl, rfl, rfl, rfl⟩; rfl

/-- ANDing two words field by field. -/
theorem mkWord_and (op a b c op' a' b' c' : Byte) :
    mkWord op a b c &&& mkWord op' a' b' c' = mkWord (op &&& op') (a &&& a') (b &&& b') (c &&& c') := by
  unfold mkWord
  simp only [← BitVec.and_append]

/-- An opcode byte as a word has zero operand fields. -/
theorem setWidth_code (op : Byte) : op.setWidth 32 = mkWord op 0 0 0 := by
  rw [← mkWord_fields (op.setWidth 32)]
  simp only [mkWord_inj]
  have above : ∀ k, 8 ≤ k → op.getLsbD k = false := fun k hk => BitVec.getLsbD_of_ge op k hk
  refine ⟨?_, ?_, ?_, ?_⟩
  · ext i hi
    have : i < 32 := by omega
    simp [opField, BitVec.getElem_extractLsb', BitVec.getLsbD_eq_getElem hi, this]
  · ext i hi; simp [aField, BitVec.getElem_extractLsb']
  · ext i hi; simp [bField, BitVec.getElem_extractLsb', above (16 + i) (by omega)]
  · ext i hi; simp [cField, BitVec.getElem_extractLsb', above (24 + i) (by omega)]

/-- The masks of 30_encoding R81, field by field: a reserved field is compared whole, a used one not at all. -/
theorem mask_fields (f : Format) :
    f.mask = match f with
      | .f0 => mkWord 0xFF 0xFF 0xFF 0xFF
      | .fa => mkWord 0xFF 0 0xFF 0xFF
      | .fb => mkWord 0xFF 0xFF 0 0xFF
      | .fab => mkWord 0xFF 0 0 0xFF
      | .fabc => mkWord 0xFF 0 0 0 := by
  cases f <;> decide

/-- The fields a format reserves (30_encoding R81). -/
def Format.reservedZero (f : Format) (a b c : Byte) : Prop :=
  match f with
  | .f0 => a = 0 ∧ b = 0 ∧ c = 0
  | .fa => b = 0 ∧ c = 0
  | .fb => a = 0 ∧ c = 0
  | .fab => c = 0
  | .fabc => True

/-- The decoder's mask test (30_encoding R84) says exactly that the reserved fields are zero. -/
theorem mask_test_iff (f : Format) (op a b c : Byte) :
    mkWord op a b c &&& f.mask = op.setWidth 32 ↔ f.reservedZero a b c := by
  have ones : ∀ x : Byte, x &&& 0xFF = x := fun x => BitVec.and_allOnes
  have zero : ∀ x : Byte, x &&& 0 = 0 := by intro x; simp
  rw [mask_fields, setWidth_code]
  cases f <;> simp only [mkWord_and, mkWord_inj, ones, zero, Format.reservedZero, true_and]

/-- Every row of R84 is found by its opcode. -/
@[simp] theorem ofByte_code (o : Opcode) : Opcode.ofByte o.code = some o := by
  cases o <;> decide

/-- The row found has the opcode asked for. -/
theorem code_of_ofByte {op : Byte} {o : Opcode} (h : Opcode.ofByte op = some o) : o.code = op := by
  have := List.find?_some h
  simpa using this

/-- Decoding a word given by its fields, for a defined opcode. -/
theorem decodeWord_mkWord (o : Opcode) (a b c : Byte) (h : o.format.reservedZero a b c) :
    decodeWord (mkWord o.code a b c) = .ok (o.build a b c) := by
  unfold decodeWord
  simp [(mask_test_iff o.format o.code a b c).mpr h]

/-- A word with a defined opcode and a nonzero reserved field is rejected by that name. -/
theorem decodeWord_reservedField (o : Opcode) (a b c : Byte) (h : ¬ o.format.reservedZero a b c) :
    decodeWord (mkWord o.code a b c) = .error .reservedField := by
  unfold decodeWord
  simp [mt (mask_test_iff o.format o.code a b c).mp h]

/-- What a decoded word says: a row, and zero reserved fields. -/
theorem decodeWord_ok {w : Word} {i : Instr} (h : decodeWord w = .ok i) :
    ∃ o : Opcode, opField w = o.code ∧ o.format.reservedZero (aField w) (bField w) (cField w) ∧
      i = o.build (aField w) (bField w) (cField w) := by
  unfold decodeWord at h
  split at h
  · cases h
  · rename_i o ho
    split at h
    · rename_i hm
      refine ⟨o, (code_of_ofByte ho).symm, ?_, by cases h; rfl⟩
      rw [← mask_test_iff o.format o.code, code_of_ofByte ho, mkWord_fields]
      rw [code_of_ofByte ho] at hm
      exact hm
    · cases h

/-- A number that fits a field is the field byte's value. -/
theorem fieldByte_toNat {v : Nat} (h : fitsField v = true) : (fieldByte v).toNat = v := by
  have : v < 256 := by simpa [fitsField] using h
  simp [fieldByte]; omega

/-- A field byte's value fits a field. -/
@[simp] theorem fitsField_toNat (x : Byte) : fitsField x.toNat = true := by
  simp [fitsField]; exact x.isLt

@[simp] theorem fieldByte_of_toNat (x : Byte) : fieldByte x.toNat = x := by
  simp [fieldByte]

end Sys2Proof
end

