-- ==== Sys2Proof/Laws/PerInstr.lean ====
section
/-!
SUPPORT. The family `EncodesItsRow`, one lemma per constructor of `Instr`: the word of a command passes the decoder's mask
test for its own row (30_encoding R81, R84), which is the row's match and mask in spec/opcode_table.json.
-/

namespace Sys2Proof.Laws.EncodesItsRow

open Sys2Proof

/-- The opcode byte is the row's, and under the row's mask nothing else is set. -/
def Statement (i : Instr) : Prop :=
  opField (encode i) = i.opcode.code ∧ encode i &&& i.opcode.format.mask = i.opcode.code.setWidth 32

/-- The common proof: the word is made of the row's opcode byte and of fields that are zero where reserved. -/
theorem of_fields (i : Instr) (a b c : Byte) (h : encode i = mkWord i.opcode.code a b c)
    (hr : i.opcode.format.reservedZero a b c) : Statement i := by
  refine ⟨by simp [h], ?_⟩
  rw [h]
  exact (mask_test_iff _ _ a b c).mpr hr

theorem nop : Statement .nop := of_fields _ _ _ _ rfl ⟨rfl, rfl, rfl⟩
theorem bufRd (buf idx : Nat) : Statement (.bufRd buf idx) := of_fields _ _ _ _ rfl trivial
theorem bufWr (buf idx : Nat) (val : Byte) : Statement (.bufWr buf idx val) := of_fields _ _ _ _ rfl trivial
theorem setNpos (count : Nat) : Statement (.setNpos count) := of_fields _ _ _ _ rfl ⟨rfl, rfl⟩
theorem gfMul (a b : Byte) : Statement (.gfMul a b) := of_fields _ _ _ _ rfl rfl
theorem gfDiv (a b : Byte) : Statement (.gfDiv a b) := of_fields _ _ _ _ rfl rfl
theorem gfInv (a : Byte) : Statement (.gfInv a) := of_fields _ _ _ _ rfl ⟨rfl, rfl⟩
theorem gfPow (base : Byte) (exp : Nat) : Statement (.gfPow base exp) := of_fields _ _ _ _ rfl rfl
theorem polyEval (buf : Nat) (x : Byte) (len : Nat) : Statement (.polyEval buf x len) := of_fields _ _ _ _ rfl trivial
theorem polyEvald (buf : Nat) (x : Byte) (len : Nat) : Statement (.polyEvald buf x len) := of_fields _ _ _ _ rfl trivial
theorem rsGen (nsym : Nat) : Statement (.rsGen nsym) := of_fields _ _ _ _ rfl ⟨rfl, rfl⟩
theorem rsEncode (nsym k : Nat) : Statement (.rsEncode nsym k) := of_fields _ _ _ _ rfl rfl
theorem rsSynd (nsym n : Nat) : Statement (.rsSynd nsym n) := of_fields _ _ _ _ rfl rfl
theorem rsKeyeq (nsym : Nat) : Statement (.rsKeyeq nsym) := of_fields _ _ _ _ rfl ⟨rfl, rfl⟩
theorem rsChien (nsym n : Nat) : Statement (.rsChien nsym n) := of_fields _ _ _ _ rfl rfl
theorem rsLocate (nsym n : Nat) : Statement (.rsLocate nsym n) := of_fields _ _ _ _ rfl rfl
theorem rsForney (nsym n : Nat) : Statement (.rsForney nsym n) := of_fields _ _ _ _ rfl rfl
theorem rsApply (n : Nat) : Statement (.rsApply n) := of_fields _ _ _ _ rfl ⟨rfl, rfl⟩
theorem rsCorrect (nsym n : Nat) : Statement (.rsCorrect nsym n) := of_fields _ _ _ _ rfl rfl
theorem rsDecode (nsym n : Nat) : Statement (.rsDecode nsym n) := of_fields _ _ _ _ rfl rfl

end Sys2Proof.Laws.EncodesItsRow
end

