-- ==== Sys2Proof/Laws/Step.lean ====
section
/-!
SUPPORT. What one host input and one step can do, said once: later proofs cite these and do not unfold the engine.
-/

namespace Sys2Proof.Machine

/-- Every command is the commit of some body (00_scope R10). -/
theorem exec_is_commit (i : Instr) (s : State) : ∃ body, exec i s = s.commit body := by
  cases i with
  | nop => exact ⟨.ok s, rfl⟩
  | gfMul a b => exact ⟨.ok (s.setR (gfMul a b)), rfl⟩
  | gfPow base exp => exact ⟨.ok (s.setR (gfPow base exp)), rfl⟩
  | _ => exact ⟨_, rfl⟩

/-- Every command ends with a next state. -/
theorem exec_next (i : Instr) (s : State) : ∃ t, exec i s = .next t := by
  obtain ⟨body, h⟩ := exec_is_commit i s
  rw [h]; exact s.commit_next body

theorem issue_of_not_ready {s : State} (w : Word) (h : s.flags.rdy = false) : issue w s = .next s := by
  unfold issue; rw [h]; rfl

theorem issue_of_decoded {s : State} {w : Word} {i : Instr} (h : s.flags.rdy = true) (hd : decodeWord w = .ok i) :
    issue w s = exec i s := by
  unfold issue; rw [h, hd]; rfl

theorem issue_of_illegal {s : State} {w : Word} {e : IllegalWord} (h : s.flags.rdy = true)
    (hd : decodeWord w = .error e) : issue w s = .next (s.raise (causeOfIllegal e)) := by
  unfold issue; rw [h, hd]; rfl

/-- The three things the engine does with a command word: drop it, run it, or reject it. -/
theorem issue_cases {w : Word} {s t : State} (h : issue w s = .next t) :
    (s.flags.rdy = false ∧ t = s) ∨
      (s.flags.rdy = true ∧ ∃ i, decodeWord w = .ok i ∧ exec i s = .next t) ∨
      (s.flags.rdy = true ∧ ∃ e, decodeWord w = .error e ∧ t = s.raise (causeOfIllegal e)) := by
  cases hr : s.flags.rdy with
  | false => rw [issue_of_not_ready w hr] at h; cases h; exact .inl ⟨rfl, rfl⟩
  | true =>
    cases hd : decodeWord w with
    | ok i => rw [issue_of_decoded hr hd] at h; exact .inr (.inl ⟨rfl, i, rfl, h⟩)
    | error e => rw [issue_of_illegal hr hd] at h; cases h; exact .inr (.inr ⟨rfl, e, rfl, rfl⟩)

/-- The four things a step does: nothing, a command word, or an end of the reset sequence. -/
theorem step_cases {s t : State} (h : step s = .next t) :
    (s.port = [] ∧ t = s) ∨
      (∃ w rest, s.port = .issue w :: rest ∧ issue w { s with port := rest } = .next t) ∨
      (∃ rest, s.port = .assertReset :: rest ∧ t = { s with port := rest }.beginReset) ∨
      (∃ rest, s.port = .finishReset :: rest ∧ t = { s with port := rest }.endReset) := by
  unfold step serveNext at h
  cases hp : s.port with
  | nil => rw [State.nextInput_none hp] at h; cases h; exact .inl ⟨rfl, rfl⟩
  | cons x rest =>
    rw [State.nextInput_some hp] at h
    cases x with
    | issue w => exact .inr (.inl ⟨w, rest, rfl, h⟩)
    | assertReset => cases h; exact .inr (.inr (.inl ⟨rest, rfl, rfl⟩))
    | finishReset => cases h; exact .inr (.inr (.inr ⟨rest, rfl, rfl⟩))

/-- A run is its first step and then the run of the rest. -/
theorem run_succ_of_step {s t : State} (k : Nat) (h : step s = .next t) :
    Sys2Proof.core.run (k + 1) s = Sys2Proof.core.run k t := by
  have any_machine : ∀ (M : Host.Core) (k : Nat) (x y : M.State), M.step x = .next y → M.run (k + 1) x = M.run k y := by
    intro M k x y hxy
    unfold Host.Core.run
    rw [hxy]
    cases k <;> rfl
  exact any_machine Sys2Proof.core k s t h

/-- The very next step runs the word presented, at the state with the port as it was and RDY set. -/
theorem step_present (s : State) (w : Word) :
    step (s.present w) = issue w { s with flags := { s.flags with rdy := true } } := rfl

end Sys2Proof.Machine
end

