-- ==== Sys2Proof/Machine/Assembler.lean ====
section
/-!
DEFINITION. The textual form of a command (30_encoding R96) and the pseudo-instructions (R97): notation of the spec's own
programs, not state or behaviour of the engine. A line is a list of characters.
-/

namespace Sys2Proof.Machine

/-- The mnemonic column of R84. -/
def mnemonicOf : Opcode → String
  | .nop => "NOP"
  | .bufRd => "BUF.RD"
  | .bufWr => "BUF.WR"
  | .setNpos => "SET.NPOS"
  | .gfMul => "GF.MUL"
  | .gfDiv => "GF.DIV"
  | .gfInv => "GF.INV"
  | .gfPow => "GF.POW"
  | .polyEval => "POLY.EVAL"
  | .polyEvald => "POLY.EVALD"
  | .rsGen => "RS.GEN"
  | .rsEncode => "RS.ENCODE"
  | .rsSynd => "RS.SYND"
  | .rsKeyeq => "RS.KEYEQ"
  | .rsChien => "RS.CHIEN"
  | .rsLocate => "RS.LOCATE"
  | .rsForney => "RS.FORNEY"
  | .rsApply => "RS.APPLY"
  | .rsCorrect => "RS.CORRECT"
  | .rsDecode => "RS.DECODE"

/-- The operands of a command in the order of R96's `text` column, a buffer by its id. -/
def operandsOf : Instr → List Nat
  | .nop => []
  | .bufRd buf idx => [buf, idx]
  | .bufWr buf idx val => [buf, idx, val.toNat]
  | .setNpos count => [count]
  | .gfMul a b => [a.toNat, b.toNat]
  | .gfDiv a b => [a.toNat, b.toNat]
  | .gfInv a => [a.toNat]
  | .gfPow base exp => [base.toNat, exp]
  | .polyEval buf x len => [buf, x.toNat, len]
  | .polyEvald buf x len => [buf, x.toNat, len]
  | .rsGen nsym => [nsym]
  | .rsEncode nsym k => [nsym, k]
  | .rsSynd nsym n => [nsym, n]
  | .rsKeyeq nsym => [nsym]
  | .rsChien nsym n => [nsym, n]
  | .rsLocate nsym n => [nsym, n]
  | .rsForney nsym n => [nsym, n]
  | .rsApply n => [n]
  | .rsCorrect nsym n => [nsym, n]
  | .rsDecode nsym n => [nsym, n]

/-- The command of a mnemonic with these operands in the order of R96; `none` where their number is wrong. -/
def commandOf (o : Opcode) (operands : List Nat) : Option Instr :=
  match o, operands with
  | .nop, [] => some .nop
  | .bufRd, [buf, idx] => some (.bufRd buf idx)
  | .bufWr, [buf, idx, val] => if fitsField val then some (.bufWr buf idx (fieldByte val)) else none
  | .setNpos, [count] => some (.setNpos count)
  | .gfMul, [a, b] => if fitsField a && fitsField b then some (.gfMul (fieldByte a) (fieldByte b)) else none
  | .gfDiv, [a, b] => if fitsField a && fitsField b then some (.gfDiv (fieldByte a) (fieldByte b)) else none
  | .gfInv, [a] => if fitsField a then some (.gfInv (fieldByte a)) else none
  | .gfPow, [base, exp] => if fitsField base then some (.gfPow (fieldByte base) exp) else none
  | .polyEval, [buf, x, len] => if fitsField x then some (.polyEval buf (fieldByte x) len) else none
  | .polyEvald, [buf, x, len] => if fitsField x then some (.polyEvald buf (fieldByte x) len) else none
  | .rsGen, [nsym] => some (.rsGen nsym)
  | .rsEncode, [nsym, k] => some (.rsEncode nsym k)
  | .rsSynd, [nsym, n] => some (.rsSynd nsym n)
  | .rsKeyeq, [nsym] => some (.rsKeyeq nsym)
  | .rsChien, [nsym, n] => some (.rsChien nsym n)
  | .rsLocate, [nsym, n] => some (.rsLocate nsym n)
  | .rsForney, [nsym, n] => some (.rsForney nsym n)
  | .rsApply, [n] => some (.rsApply n)
  | .rsCorrect, [nsym, n] => some (.rsCorrect nsym n)
  | .rsDecode, [nsym, n] => some (.rsDecode nsym n)
  | _, _ => none

/-- The buffer names of R96, each at its id. -/
def bufferNames : List String := ["CW", "SYN", "LOC", "OMG", "POS", "MAG", "GEN", "EXP", "LOG"]

/-- The value of a digit: `0`-`9`, and `A`-`F` or `a`-`f` in base 16. -/
def digitValue (base : Nat) (ch : Char) : Option Nat :=
  let v :=
    if '0' ≤ ch ∧ ch ≤ '9' then ch.toNat - '0'.toNat
    else if 'A' ≤ ch ∧ ch ≤ 'F' then ch.toNat - 'A'.toNat + 10
    else if 'a' ≤ ch ∧ ch ≤ 'f' then ch.toNat - 'a'.toNat + 10
    else base
  if v < base then some v else none

/-- The number of a nonempty list of digits. -/
def digits (base : Nat) : Nat → List Char → Option Nat
  | acc, [] => some acc
  | acc, ch :: rest =>
    match digitValue base ch with
    | some v => digits base (acc * base + v) rest
    | none => none

/-- A number: decimal, or hexadecimal with the prefix `0x` (R96). -/
def parseNumber : List Char → Option Nat
  | [] => none
  | '0' :: 'x' :: ch :: rest => digits 16 0 (ch :: rest)
  | ch :: rest => digits 10 0 (ch :: rest)

/-- An operand: a buffer name or a number (R96). A name is read as its id before the mnemonic is looked at, so a name where
the operand is no buffer is that number too, `GF.MUL CW, 3` being `GF.MUL 0, 3`: R96 does not say what such a line is
(DESIGN CHOICE, log entry 19). -/
def parseOperand (cs : List Char) : Option Nat :=
  match bufferNames.findIdx? fun name => name.toList == cs with
  | some id => some id
  | none => parseNumber cs

/-- The text without the blanks at its two ends. -/
def trimBlanks (cs : List Char) : List Char :=
  ((cs.dropWhile (· == ' ')).reverse.dropWhile (· == ' ')).reverse

/-- The parts between commas. -/
def splitCommas : List Char → List (List Char)
  | [] => [[]]
  | ',' :: rest => [] :: splitCommas rest
  | ch :: rest =>
    match splitCommas rest with
    | [] => [[ch]]
    | p :: ps => (ch :: p) :: ps

/-- Every element is present. -/
def allPresent : List (Option Nat) → Option (List Nat)
  | [] => some []
  | some v :: rest => (allPresent rest).map (v :: ·)
  | none :: _ => none

/-- The operand list of a line after its mnemonic; a buffer name may stand for its id in any place (log entry 19). -/
def parseOperands (cs : List Char) : Option (List Nat) :=
  if trimBlanks cs = [] then some []
  else allPresent ((splitCommas cs).map fun part => parseOperand (trimBlanks part))

/-- `LDBUF buf, idx, v0, ..., vm` (R97 (a)): one BUF.WR for each value, in order. -/
def expandLdbuf (buf : Nat) : Nat → List Nat → List Instr
  | _, [] => []
  | idx, v :: vs => .bufWr buf idx (fieldByte v) :: expandLdbuf buf (idx + 1) vs

/-- `GF.SQR a` (R97 (b)). -/
def expandGfSqr (a : Byte) : List Instr := [.gfMul a a]

/-- The first half of `FLIP idx, bit` (R97 (c)): the host reads `CW[idx]`. -/
def flipRead (idx : Nat) : Instr := .bufRd 0 idx

/-- The second half of `FLIP idx, bit` (R97 (c)), with the value `v` the host took from R. R97 gives no range for `bit`: the
shift is made inside a byte, so a `bit` above 7 flips nothing and `v` is written back (DESIGN CHOICE, log entry 19). -/
def flipWrite (idx bit : Nat) (v : Byte) : Instr := .bufWr 0 idx (v ^^^ ((1 : Byte) <<< bit))

/-- One command or one of the two pseudo-instructions with a fixed expansion. -/
def commandsOf (mnemonic : List Char) (operands : List Nat) : Option (List Instr) :=
  if mnemonic = "LDBUF".toList then
    match operands with
    | buf :: idx :: v :: vs => if (v :: vs).all fitsField then some (expandLdbuf buf idx (v :: vs)) else none
    | _ => none
  else if mnemonic = "GF.SQR".toList then
    match operands with
    | [a] => if fitsField a then some (expandGfSqr (fieldByte a)) else none
    | _ => none
  else
    match Opcode.all.find? fun o => (mnemonicOf o).toList == mnemonic with
    | some o => (commandOf o operands).map ([·])
    | none => none

/-- One line of text (R96): a comment runs from `;` to the end; an empty line is no command; `none` for a line that is
not of the form, or whose operands no command word can carry. -/
def assembleLine (line : List Char) : Option (List Instr) :=
  let body := trimBlanks (line.takeWhile (· != ';'))
  if body = [] then some []
  else
    match parseOperands (body.dropWhile (· != ' ')) with
    | some operands =>
      match commandsOf (body.takeWhile (· != ' ')) operands with
      | some is => if is.all Instr.wf then some is else none
      | none => none
    | none => none

/-- A number in decimal digits, the last digit first, bounded by the first argument. -/
def decimalReversed : Nat → Nat → List Char
  | 0, _ => []
  | fuel + 1, v =>
    if v < 10 then [Char.ofNat (v + '0'.toNat)]
    else Char.ofNat (v % 10 + '0'.toNat) :: decimalReversed fuel (v / 10)

/-- A number in decimal digits. -/
def decimal (v : Nat) : List Char := (decimalReversed (v + 1) v).reverse

/-- The textual form of a command (R96), a buffer written by id and every number in decimal. -/
def renderLine (i : Instr) : List Char :=
  let operands := (operandsOf i).map decimal
  (mnemonicOf i.opcode).toList ++
    match operands with
    | [] => []
    | first :: others => [' '] ++ first ++ (others.map fun t => [',', ' '] ++ t).flatten

end Sys2Proof.Machine
end

