-- ==== Sys2Proof/Tests/Slice0.lean ====
section
/-!
SUPPORT. The model's own tests. Every word and every expected value is from spec/95_test_vectors.md, or from the rule named
beside it, and not from a run of the model. The last part shows, for each statement with hypotheses, that concrete
operands and a concrete state meet them.
-/

namespace Sys2Proof.Tests

open Sys2Proof Sys2Proof.Machine Sys2Proof.Claims

/- One proof at a time: each is small, and many kernel evaluations waiting for each other would each hold a thread. -/
set_option Elab.async false

/-! ### Well-formedness: an ill-formed term for each check -/

theorem smoke_field_256 : fitsField 255 = true ∧ fitsField 256 = false := by decide
theorem smoke_bufRd_buf : (Instr.bufRd 256 0).wf = false := by decide
theorem smoke_bufRd_idx : (Instr.bufRd 0 65536).wf = false ∧ (Instr.bufRd 255 65535).wf = true := by decide
theorem smoke_bufWr_buf : (Instr.bufWr 256 0 0).wf = false := by decide
theorem smoke_bufWr_idx : (Instr.bufWr 0 256 0).wf = false := by decide
theorem smoke_setNpos : (Instr.setNpos 256).wf = false := by decide
theorem smoke_gfPow : (Instr.gfPow 0 256).wf = false := by decide
theorem smoke_polyEval : (Instr.polyEval 256 0 0).wf = false ∧ (Instr.polyEval 0 0 256).wf = false := by decide
theorem smoke_polyEvald : (Instr.polyEvald 256 0 0).wf = false ∧ (Instr.polyEvald 0 0 256).wf = false := by decide
theorem smoke_rsGen : (Instr.rsGen 256).wf = false := by decide
theorem smoke_rsEncode : (Instr.rsEncode 256 0).wf = false ∧ (Instr.rsEncode 0 256).wf = false := by decide
theorem smoke_rsSynd : (Instr.rsSynd 256 0).wf = false ∧ (Instr.rsSynd 0 256).wf = false := by decide
theorem smoke_rsKeyeq : (Instr.rsKeyeq 256).wf = false := by decide
theorem smoke_rsChien : (Instr.rsChien 256 0).wf = false ∧ (Instr.rsChien 0 256).wf = false := by decide
theorem smoke_rsLocate : (Instr.rsLocate 256 0).wf = false ∧ (Instr.rsLocate 0 256).wf = false := by decide
theorem smoke_rsForney : (Instr.rsForney 256 0).wf = false ∧ (Instr.rsForney 0 256).wf = false := by decide
theorem smoke_rsApply : (Instr.rsApply 256).wf = false := by decide
theorem smoke_rsCorrect : (Instr.rsCorrect 256 0).wf = false ∧ (Instr.rsCorrect 0 256).wf = false := by decide
theorem smoke_rsDecode : (Instr.rsDecode 256 0).wf = false ∧ (Instr.rsDecode 0 256).wf = false := by decide

/-! ### Decoding: a word of each command (95_test_vectors 2.2 to 2.9), and words that are no command -/

theorem test_decode_nop : decodeWord 0x00000000 = .ok .nop := by rfl
theorem test_decode_bufRd : decodeWord 0x07010701 = .ok (.bufRd 7 263) := by rfl
theorem test_decode_bufWr : decodeWord 0x026D0202 = .ok (.bufWr 2 2 109) := by rfl
theorem test_decode_setNpos : decodeWord 0x00007F03 = .ok (.setNpos 127) := by rfl
theorem test_decode_gfMul : decodeWord 0x00070310 = .ok (.gfMul 3 7) := by rfl
theorem test_decode_gfDiv : decodeWord 0x0064C811 = .ok (.gfDiv 200 100) := by rfl
theorem test_decode_gfInv : decodeWord 0x0000C812 = .ok (.gfInv 200) := by rfl
theorem test_decode_gfPow : decodeWord 0x00031D13 = .ok (.gfPow 29 3) := by rfl
theorem test_decode_polyEval : decodeWord 0x02038E20 = .ok (.polyEval 2 142 3) := by rfl
theorem test_decode_polyEvald : decodeWord 0x0600FF21 = .ok (.polyEvald 6 255 0) := by rfl
theorem test_decode_rsGen : decodeWord 0x0000FE30 = .ok (.rsGen 254) := by rfl
theorem test_decode_rsEncode : decodeWord 0x00050431 = .ok (.rsEncode 4 5) := by rfl
theorem test_decode_rsSynd : decodeWord 0x00030432 = .ok (.rsSynd 4 3) := by rfl
theorem test_decode_rsKeyeq : decodeWord 0x00000433 = .ok (.rsKeyeq 4) := by rfl
theorem test_decode_rsChien : decodeWord 0x00090434 = .ok (.rsChien 4 9) := by rfl
theorem test_decode_rsLocate : decodeWord 0x00090435 = .ok (.rsLocate 4 9) := by rfl
theorem test_decode_rsForney : decodeWord 0x00090436 = .ok (.rsForney 4 9) := by rfl
theorem test_decode_rsApply : decodeWord 0x00090037 = .ok (.rsApply 9) := by rfl
theorem test_decode_rsCorrect : decodeWord 0x00090438 = .ok (.rsCorrect 4 9) := by rfl
theorem test_decode_rsDecode : decodeWord 0x00FF2039 = .ok (.rsDecode 32 255) := by rfl

theorem test_decode_reserved_field : decodeWord 0x00000100 = .error .reservedField := by rfl
theorem test_decode_reserved_opcode : decodeWord 0x00000004 = .error .reservedOpcode := by rfl
theorem test_decode_opcode_first : decodeWord 0x010000FF = .error .reservedOpcode := by rfl

/-- The bytes of a word, lowest address first, and a short sequence (30_encoding R82). -/
theorem test_bytes_of_word : bytesOfWord 0x07010701 = [0x01, 0x07, 0x01, 0x07] := by rfl
theorem test_bytes_truncated : decodeBytes [0x10, 0x03, 0x07] = .error .truncated := by rfl

theorem test_table_word : decodeTableWord 32 0x00050431 = some (.rsEncode 4 5) := by rfl
theorem test_table_word_refused : decodeTableWord 32 0x00000022 = none := by rfl

/-! ### Running one command -/

/-- A buffer with these bytes from index 0 on, and zeros above (95_test_vectors, "How to read every vector"). -/
def bytes (l : List Byte) : Memory := Memory.ofBytesFrom 0 l

/-- The host presents the word and the engine makes its step. -/
def run (w : Nat) (s : State) : Result := step (s.withFetchWord 32 w)

/-- The state after reset with this word in CW. -/
def withWord (l : List Byte) : State := { State.reset with cw := bytes l }

/-- The codeword of the source's message "Hello" (95_test_vectors 2.5). -/
def helloWord : List Byte := [72, 101, 108, 108, 111, 248, 250, 105, 41]

/-- That codeword with the errors 5 at position 1 and 9 at position 6 (95_test_vectors 2.6). -/
def twoErrors : List Byte := [72, 96, 108, 108, 111, 248, 243, 105, 41]

/-- The state before the two-error Forney of 95_test_vectors 2.8. -/
def located : State :=
  { withWord twoErrors with loc := bytes [1, 66, 128], pos := bytes [1, 6], npos := 2 }

/-- The presented word is the one that runs, at the state as it was. -/
theorem test_step_runs_presented_word (w : Nat) (s : State) (i : Instr) (h : s.flags.rdy = true)
    (hd : decodeWord (tableWord 32 w) = .ok i) : run w s = exec i s := by
  have hs : { s with flags := { s.flags with rdy := true } } = s := by
    obtain ⟨r, st, inf, np, ⟨sz, rdy⟩, a, b, c, d, e, f, g, p⟩ := s
    cases h; rfl
  unfold run State.withFetchWord
  rw [step_present, hs, issue_of_decoded h hd]

theorem test_idle_step : step State.reset = .next State.reset := rfl

/-- 70_reset R232: a command presented while RDY = 0 is dropped. -/
theorem test_not_ready_drops :
    Answers (step { State.reset.beginReset with port := [.issue 0x00070310] })
      (fun t => decide (t = State.reset.beginReset)) = true := by decide +kernel

theorem test_nop : Answers (run 0x00000000 { State.reset with r := 7, status := .illegalCommand, info := 2 })
    (fun t => decide (t = { State.reset with r := 7 })) = true := by decide +kernel

theorem test_bufRd_exp_263 : Answers (run 0x07010701 State.reset)
    (fun t => decide (t = { State.reset with r := 29 })) = true := by decide +kernel
theorem test_bufRd_log_zero : Answers (run 0x08000001 { State.reset with r := 7 })
    (fun t => decide (t = { State.reset with r := 7, status := .invalidParameter, info := 5 })) = true := by decide +kernel

theorem test_bufWr_loc : Answers (run 0x026D0202 State.reset)
    (fun t => decide (t = { State.reset with loc := [(2, 109)] })) = true := by decide +kernel
theorem test_bufWr_readonly : Answers (run 0x08FF0002 State.reset)
    (fun t => decide (t = { State.reset with status := .invalidParameter, info := 6 })) = true := by decide +kernel

theorem test_setNpos_127 : Answers (run 0x00007F03 State.reset)
    (fun t => decide (t = { State.reset with npos := 127 })) = true := by decide +kernel
theorem test_setNpos_128 : Answers (run 0x00008003 State.reset)
    (fun t => decide (t = { State.reset with status := .invalidParameter, info := 8 })) = true := by decide +kernel

theorem test_gfMul_reduces : Answers (run 0x0064C810 State.reset)
    (fun t => decide (t = { State.reset with r := 79 })) = true := by decide +kernel
theorem test_gfMul_zero : Answers (run 0x00050010 { State.reset with r := 9 })
    (fun t => decide (t = State.reset)) = true := by decide +kernel

theorem test_gfDiv : Answers (run 0x00030111 State.reset)
    (fun t => decide (t = { State.reset with r := 244 })) = true := by decide +kernel
theorem test_gfDiv_zero_by_zero : Answers (run 0x00000011 { State.reset with r := 9 })
    (fun t => decide (t = { State.reset with r := 9, status := .divisionByZero, info := 1 })) = true := by decide +kernel

theorem test_gfInv : Answers (run 0x0000C812 State.reset)
    (fun t => decide (t = { State.reset with r := 210 })) = true := by decide +kernel
theorem test_gfInv_zero : Answers (run 0x00000012 State.reset)
    (fun t => decide (t = { State.reset with status := .divisionByZero, info := 1 })) = true := by decide +kernel

theorem test_gfPow_wraps : Answers (run 0x0064C813 State.reset)
    (fun t => decide (t = { State.reset with r := 172 })) = true := by decide +kernel
theorem test_gfPow_zero_zero : Answers (run 0x00000013 State.reset)
    (fun t => decide (t = { State.reset with r := 1 })) = true := by decide +kernel

theorem test_polyEval : Answers (run 0x02040320 { State.reset with loc := bytes [7, 6, 5, 4] })
    (fun t => decide (t.r = 32) && decide (t.status = .ok)) = true := by decide +kernel
theorem test_polyEval_length : Answers (run 0x0281FF20 State.reset)
    (fun t => decide (t = { State.reset with status := .invalidParameter, info := 8 })) = true := by decide +kernel

theorem test_polyEvald : Answers (run 0x02040321 { State.reset with loc := bytes [7, 6, 5, 4] })
    (fun t => decide (t.r = 18) && decide (t.status = .ok)) = true := by decide +kernel
theorem test_polyEvald_empty : Answers (run 0x0600FF21 { State.reset with r := 5 })
    (fun t => decide (t = State.reset)) = true := by decide +kernel

theorem test_rsGen_4 : Answers (run 0x00000430 { State.reset with gen := [(9, 1)] })
    (fun t => decide (t = { State.reset with gen := bytes [1, 101, 125, 47, 54] })) = true := by decide +kernel
theorem test_rsGen_zero : Answers (run 0x00000030 State.reset)
    (fun t => decide (t = { State.reset with status := .invalidParameter, info := 1 })) = true := by decide +kernel

theorem test_rsEncode_hello : Answers (run 0x00050431 (withWord [72, 101, 108, 108, 111]))
    (fun t => decide (t = { withWord helloWord with gen := bytes [1, 101, 125, 47, 54] })) = true := by decide +kernel
theorem test_rsEncode_too_long : Answers (run 0x0002FE31 State.reset)
    (fun t => decide (t = { State.reset with status := .invalidParameter, info := 2 })) = true := by decide +kernel

theorem test_rsSynd_two_errors : Answers (run 0x00090432 { withWord twoErrors with syn := [(9, 1)] })
    (fun t => decide (t = { withWord twoErrors with syn := bytes [12, 112, 255, 112] })) = true := by decide +kernel
theorem test_rsSynd_clean : Answers (run 0x00090432 (withWord helloWord))
    (fun t => decide (t = { withWord helloWord with flags := ⟨true, true⟩ })) = true := by decide +kernel

theorem test_rsKeyeq : Answers (run 0x00000433 { State.reset with syn := bytes [12, 112, 255, 112] })
    (fun t => decide (t.loc = bytes [1, 66, 128]) && decide (t.status = .ok)) = true := by decide +kernel
theorem test_rsKeyeq_const_zero : Answers (run 0x00000433 { State.reset with syn := bytes [0, 0, 5, 0] })
    (fun t => decide (t.loc = []) && decide (t.status = .uncorrectableError) && decide (t.info = 1)) = true := by
  decide +kernel

theorem test_rsForney : Answers (run 0x00090436 located)
    (fun t => decide (t = { located with syn := bytes [12, 112, 255, 112], omg := bytes [12, 79], mag := bytes [5, 9] })) =
      true := by decide +kernel
theorem test_rsForney_denominator : Answers
    (run 0x00090436 { State.reset with loc := bytes [1, 0, 1], npos := 1 })
    (fun t => decide (t.mag = []) && decide (t.status = .divisionByZero) && decide (t.info = 2)) = true := by decide +kernel

theorem test_rsApply_duplicates_cancel : Answers
    (run 0x00090037 { State.reset with cw := [(2, 109)], pos := bytes [2, 2], mag := bytes [1, 1], npos := 2 })
    (fun t => decide (t.cw = [(2, 109)]) && decide (t.status = .ok)) = true := by decide +kernel
theorem test_rsApply_position : Answers (run 0x00000037 { State.reset with npos := 127 })
    (fun t => decide (t = { State.reset with npos := 127, status := .invalidParameter, info := 7 })) = true := by
  decide +kernel

theorem test_rsCorrect : Answers (run 0x00090438 located)
    (fun t => decide (t.cw = bytes helloWord) && decide (t.mag = bytes [5, 9]) && decide (t.status = .ok)) = true := by
  decide +kernel
theorem test_rsCorrect_position : Answers (run 0x00090438 { located with pos := bytes [9] })
    (fun t => decide (t = { located with pos := bytes [9], status := .invalidParameter, info := 7 })) = true := by
  decide +kernel

/-! The root search: once for the locator of the two errors, for the tests that need it (95_test_vectors 2.7). -/

theorem test_keyeq_two_errors : rsKeyeq [12, 112, 255, 112] 4 = .ok [1, 66, 128, 0, 0] := by
  have h : rsKeyeq [12, 112, 255, 112] 4 = Except.ok ([1, 66, 128, 0, 0] : List Byte) := by decide +kernel
  exact h

/-- A locator as the search reads it: 128 entries. -/
theorem chien_padded (lam : List Byte) (m n : Nat) (nsym : Nat) (found : List Nat) (h : chienFound lam = found)
    (hn : ∀ j ∈ found, j < n) (hd : (found.length : Int) = polyDeg (lam ++ List.replicate m 0))
    (hc : found.length ≤ nsym / 2) : rsChien (lam ++ List.replicate m 0) nsym n = .ok found :=
  rsChien_of_found (by simpa using h) hn hd hc

theorem test_chien_two_errors : rsChien ([1, 66, 128] ++ List.replicate 125 0) 4 9 = .ok [1, 6] :=
  chien_padded _ _ _ _ _ (by decide +kernel) (by decide) (by decide +kernel) (by decide)

theorem test_rsChien : Answers (run 0x00090434 { State.reset with loc := bytes [1, 66, 128] })
    (fun t => decide (t.pos = bytes [1, 6]) && decide (t.npos = 2) && decide (t.status = .ok)) = true := by
  have hs : (bytes [1, 66, 128]).slice 128 = [1, 66, 128] ++ List.replicate 125 0 := by decide +kernel
  have hc : rsChien ((bytes [1, 66, 128]).slice 128) 4 9 = .ok [1, 6] :=
    (congrArg (fun l => rsChien l 4 9) hs).trans test_chien_two_errors
  have he : run 0x00090434 { State.reset with loc := bytes [1, 66, 128] } = _ :=
    (test_step_runs_presented_word 0x00090434 _ (.rsChien 4 9) rfl rfl).trans
      (execRsChien_of_found (by decide) (by decide) (by decide) hc)
  exact (congrArg (fun r => Answers r _) he).trans (by decide +kernel)

theorem test_rsChien_zero_locator : (∃ j ∈ chienFound [], 9 ≤ j) ∧ (chienFound []).length = 255 := by decide +kernel

theorem test_rsLocate : Answers (run 0x00090435 { State.reset with syn := bytes [12, 112, 255, 112] })
    (fun t => decide (t = { State.reset with syn := bytes [12, 112, 255, 112], loc := bytes [1, 66, 128],
                                             pos := bytes [1, 6], npos := 2 })) = true := by
  have hk : rsKeyeq ((bytes [12, 112, 255, 112]).slice 4) 4 = .ok [1, 66, 128, 0, 0] := test_keyeq_two_errors
  have hc : rsChien (fitTo 128 [1, 66, 128, 0, 0]) 4 9 = .ok [1, 6] := test_chien_two_errors
  rw [test_step_runs_presented_word 0x00090435 _ (.rsLocate 4 9) rfl rfl, exec,
    execRsLocate_of_located (by decide) (by decide) (by decide) hk hc]
  decide +kernel

theorem test_rsLocate_raise_keeps_loc : Answers
    (run 0x00090435 { State.reset with syn := bytes [0, 0, 5, 0], loc := bytes [1, 205] })
    (fun t => decide (t.loc = bytes [1, 205]) && decide (t.status = .uncorrectableError) && decide (t.info = 1)) = true := by
  decide +kernel

theorem test_forney_two_errors :
    forneyMagnitudes (evaluatorPoly [12, 112, 255, 112] (fitTo 128 [1, 66, 128, 0, 0]) 4)
      (fitTo 128 [1, 66, 128, 0, 0]) [1, 6] = Except.ok [5, 9] := by decide +kernel

/-- The two errors are corrected (95_test_vectors 2.8), and everything the stages computed is committed. -/
theorem test_rsDecode : Answers (run 0x00090439 (withWord twoErrors))
    (fun t => decide (t = { withWord helloWord with
      syn := bytes [12, 112, 255, 112], loc := bytes [1, 66, 128], pos := bytes [1, 6], npos := 2, omg := bytes [12, 79], mag := bytes [5, 9] })) = true := by
  have hk : rsKeyeq [12, 112, 255, 112] 4 = .ok [1, 66, 128, 0, 0] := test_keyeq_two_errors
  have hc : rsChien (fitTo 128 [1, 66, 128, 0, 0]) 4 9 = .ok [1, 6] := test_chien_two_errors
  have hy : rsSynd ((withWord twoErrors).cw.slice 9) 4 = [12, 112, 255, 112] := by decide +kernel
  rw [test_step_runs_presented_word 0x00090439 _ (.rsDecode 4 9) rfl rfl, exec,
    execRsDecode_of_operands (by decide) (by decide) (by decide), hy, decodeStages_of_located hk hc test_forney_two_errors]
  decide +kernel

/-- Four errors, nothing located: the verify stage raises, and nothing is committed. -/
theorem test_rsDecode_residual :
    allZero (rsSynd ((withWord [207, 52, 63, 236, 111, 248, 250, 105, 41]).cw.slice 9) 4) = false ∧
    rsKeyeq [5, 0, 0, 0] 4 = Except.ok [1, 0, 0, 0, 0] ∧ chienFound [1] = [] := by
  refine ⟨by decide +kernel, by decide +kernel, by decide +kernel⟩

/-! ### The flag byte, the textual form -/

theorem test_flags_byte : Flags.toByte ⟨true, true⟩ = 3 ∧ State.reset.flags.toByte = 2 := by decide

theorem test_assemble_bufRd : assembleLine "BUF.RD EXP, 263 ; second period".toList = some [.bufRd 7 263] := by decide +kernel
theorem test_assemble_ldbuf :
    assembleLine "LDBUF CW, 0, 72, 101".toList = some [.bufWr 0 0 72, .bufWr 0 1 101] := by decide +kernel
theorem test_render : renderLine (.rsEncode 4 5) = "RS.ENCODE 4, 5".toList := by decide +kernel

/-! ### Witnesses: operands and states that meet the hypotheses of each statement, clause by clause, at the boundaries

A reserved-field clause needs a ready engine and a nonzero reserved byte; a `WordRuns` clause only a ready engine. Both are
met by the reset state. -/

theorem witness_ready : State.reset.flags.rdy = true := rfl

theorem witness_invariant : State.reset.wf = true ∧ located.wf = true ∧ (withWord twoErrors).wf = true := by decide +kernel

/-- An answer that satisfies a test is a next state that does. -/
theorem next_of_answers {r : Result} {p : State → Bool} (h : Answers r p = true) : ∃ t, r = .next t ∧ p t = true := by
  cases r with
  | next t => exact ⟨t, rfl, h⟩
  | fault f => cases h
  | refused f => cases h

/-- One nonzero reserved byte for each field and format: F0, FA, FB, FAB (30_encoding R81). -/
theorem witness_reserved_fields :
    ((1 : Byte) ≠ 0 ∨ (0 : Byte) ≠ 0 ∨ (0 : Byte) ≠ 0) ∧ ((0 : Byte) ≠ 0 ∨ (255 : Byte) ≠ 0) ∧
    ((255 : Byte) ≠ 0 ∨ (0 : Byte) ≠ 0) ∧ (1 : Byte) ≠ 0 := by decide

theorem witness_NopClearsOnlyTheOutcome :
    State.reset.flags.rdy = true ∧ ((1 : Byte) ≠ 0 ∨ (0 : Byte) ≠ 0 ∨ (0 : Byte) ≠ 0) := by decide

theorem witness_BufRdLoadsTheAddressedByte :
    8 < 9 ∧ (Space.ofId 7 = some .exp ∧ Space.exp.size ≤ 512) ∧ (Space.ofId 8 = some .log ∧ Space.log.size ≤ 256) ∧
    (Space.ofId 0 = some (.data .cw) ∧ (Space.data .cw).size ≤ 255 ∧ 254 < Buf.cw.size) ∧
    (Space.ofId 4 = some (.data .pos) ∧ (Space.data .pos).size ≤ 127 ∧ 126 < Buf.pos.size) ∧ 511 < 512 ∧
    (1 ≤ 1 ∧ 1 < 256) ∧ (1 ≤ 255 ∧ 255 < 256) := by decide

theorem witness_BufWrStoresExactlyOneByte :
    8 < 9 ∧ (7 = 7 ∨ 7 = 8) ∧ (8 = 7 ∨ 8 = 8) ∧ (Space.ofId 2 = some (.data .loc) ∧ Buf.loc.size ≤ 128) ∧
    (State.reset.wf = true ∧ Space.ofId 2 = some (.data .loc) ∧ 127 < Buf.loc.size) ∧
    (Space.ofId 6 = some (.data .gen) ∧ 0 < Buf.gen.size) := by decide

theorem witness_SetNposWritesTheCount :
    127 < 128 ∧ 127 ≤ 127 ∧ 0 ≤ 127 ∧ State.reset.flags.rdy = true ∧
    (State.reset.present 0x00007F03).npos.toNat ≤ 127 ∧
    step (State.reset.present 0x00007F03) = .next { State.reset with npos := 127 } := ⟨by decide, by decide, by decide, rfl, by decide, rfl⟩

theorem witness_GfMulIsThePolynomialProduct :
    ((0 : Byte) = 0 ∨ (5 : Byte) = 0) ∧ logAt (255 : Byte).toNat = some 175 ∧ logAt (142 : Byte).toNat = some 254 ∧
    (1 : Byte) ≠ 0 := by decide

theorem witness_DerivativeIsTheOddPowerSum : ([] : List Byte).length ≤ 1 ∧ ([9] : List Byte).length ≤ 1 := by decide

theorem witness_GfMulLeavesTheProduct : State.reset.flags.rdy = true ∧ (1 : Byte) ≠ 0 := by decide

theorem witness_GfDivLeavesTheQuotient : State.reset.flags.rdy = true ∧ (1 : Byte) ≠ 0 ∧ (255 : Byte) ≠ 0 := by decide

theorem witness_GfInvLeavesTheInverse : State.reset.flags.rdy = true ∧ (1 : Byte) ≠ 0 ∧ (255 : Byte) ≠ 0 := by decide

theorem witness_GfPowLeavesThePower :
    State.reset.flags.rdy = true ∧ 1 ≤ 1 ∧ (1 ≤ 255 ∧ logAt (255 : Byte).toNat = some 175) ∧ logAt (1 : Byte).toNat = some 0 ∧
    (1 : Byte) ≠ 0 := by decide

theorem witness_FieldLaws :
    gfInv 2 = some 142 ∧ gfInv 1 = some 1 ∧ (2 : Byte) ≠ 0 ∧ gfMul 0 5 = 0 ∧ gfDiv 6 3 = some 2 := by decide +kernel

theorem witness_TableInvariants : (1 : Byte) ≠ 0 ∧ (255 : Byte) ≠ 0 ∧ 254 < 255 ∧ 256 ≤ 256 ∧ 511 < 512 ∧
    (expAt 8 = 29 ∧ 8 < 255) := by decide +kernel

theorem witness_ResetBuildsTheTables : 511 < 512 ∧ 255 < 256 ∧ 0 < 256 := by decide

theorem witness_PolyEvalLeavesTheValue :
    7 ≤ 7 ∧ 7 ≤ 9 ∧ (Space.ofId 2 = some (.data .loc) ∧ Buf.loc.size < 129 ∧ 128 ≤ Buf.loc.size) ∧
    (0 ≤ Buf.loc.size ∧ 1 ≤ 1 ∧ 1 ≤ Buf.loc.size) := by decide

theorem witness_PolyEvaldLeavesTheDerivative :
    7 ≤ 7 ∧ 7 ≤ 9 ∧ (Space.ofId 6 = some (.data .gen) ∧ Buf.gen.size < 256 ∧ 255 ≤ Buf.gen.size) ∧
    (1 ≤ 1 ∧ 2 ≤ 2 ∧ 2 ≤ Buf.gen.size) := by decide

theorem witness_RsGenWritesTheGenerator :
    (0 = 0 ∨ 254 < 0) ∧ (255 = 0 ∨ 254 < 255) ∧ (1 ≤ 1 ∧ 1 ≤ 254) ∧ (1 ≤ 254 ∧ 254 ≤ 254) ∧ (254 ≤ 254) ∧
    (4 < 5 ∧ 254 < 255) := by decide

theorem witness_GeneratorHasTheStatedRoots : 253 < 254 ∧ (1 ≤ 1 ∧ 1 ≤ 254) ∧ (1 ≤ 254 ∧ 254 ≤ 254) ∧ 254 < 255 := by decide

theorem witness_RsEncodeAppendsTheParity :
    (0 = 0 ∨ 254 < 0) ∧ (1 ≤ 254 ∧ 254 ≤ 254 ∧ 255 < 254 + 2) ∧
    ((withWord [72, 101, 108, 108, 111]).wf = true ∧ 1 ≤ 4 ∧ 4 + 251 ≤ 255 ∧ 4 ≤ 254) ∧
    (3 < 4 ∧ (0 < 5 ∨ 5 + 4 ≤ 0) ∧ (9 < 5 ∨ 5 + 4 ≤ 9)) ∧ (∀ j, j < 5 → State.reset.cw.read j = 0) ∧ 1 = 1 :=
  ⟨by decide, by decide, by decide +kernel, by decide, fun _ _ => rfl, rfl⟩

theorem witness_EncodedWordsHaveZeroSyndromes :
    (withWord [72, 101, 108, 108, 111]).wf = true ∧ 1 ≤ 4 ∧ 4 ≤ 254 ∧ 4 + 251 ≤ 255 := by decide +kernel

theorem witness_RsSyndWritesSyndromesAndSz :
    (255 = 0 ∨ 254 < 255) ∧ (1 ≤ 4 ∧ 4 ≤ 254 ∧ 3 < 4) ∧ (1 ≤ 4 ∧ 4 ≤ 254 ∧ 4 ≤ 4) ∧ (3 < 4 ∧ 4 ≤ 253 ∧ 253 < 254) ∧
    ∀ j, j < 4 → State.reset.cw.read j = 0 :=
  ⟨by decide, by decide, by decide, by decide, fun _ _ => rfl⟩

theorem witness_SyndromesAreValuesAtTheRoots : 0 < 1 ∧ 253 < 254 := by decide

theorem witness_SyndromesAreLinear : helloWord.length = twoErrors.length ∧ 8 < 9 ∧ 3 < 4 := by decide

theorem witness_DivisionGivesQuotientAndRemainder :
    ([1, 2, 3] : List Byte).length = ([4, 5, 0] : List Byte).length ∧ 0 ≤ polyDeg [4, 5, 0] ∧
    ([9] : List Byte).length = ([1] : List Byte).length ∧ 0 ≤ polyDeg [1] := by decide +kernel

theorem witness_TruncatedProductIsTheConvolution : 0 < 1 ∧ 3 < 4 := by decide

theorem witness_LocatorSolvesTheKeyEquation :
    1 ≤ 4 ∧ 4 ≤ 254 ∧ ([12, 112, 255, 112] : List Byte).length = 4 ∧
    rsKeyeq [12, 112, 255, 112] 4 = .ok [1, 66, 128, 0, 0] := ⟨by decide, by decide, rfl, test_keyeq_two_errors⟩

theorem witness_RsKeyeqWritesTheLocator :
    (0 = 0 ∨ 254 < 0) ∧ (1 ≤ 4 ∧ 4 ≤ 254 ∧ rsKeyeq ((bytes [0, 0, 5, 0]).slice 4) 4 = .error .locatorConstZero) ∧
    rsKeyeq ((bytes [12, 112, 255, 112]).slice 4) 4 = .ok [1, 66, 128, 0, 0] ∧ (1 = 1 ∨ ∀ i, i < 1 → State.reset.syn.read i = 0) ∧
    (4 ≤ min 4 127 ∧ min 4 127 < 5 ∧ 5 < 128) ∧ (127 ≤ min 254 127) := by
  refine ⟨by decide, ⟨by decide, by decide, ?_⟩, test_keyeq_two_errors, .inl rfl, by decide, by decide⟩
  have h : rsKeyeq ((bytes [0, 0, 5, 0]).slice 4) 4 = Except.error Cause.locatorConstZero := by decide +kernel
  exact h

/-- A locator of LOC with these coefficients: what the search finds, and the slice it reads. -/
theorem slice_of_bytes (l : List Byte) (h : (bytes l).slice 128 = l ++ List.replicate (128 - l.length) 0) :
    chienFound ((bytes l).slice 128) = chienFound l := by rw [h]; exact chienFound_append_zeros l _

/-- The locators of 95_test_vectors 2.7 for the three raises, the success and the two corners of the search, in the order
of the statement's clauses. -/
theorem witness_RsChienWritesThePositions :
    (0 = 0 ∨ 254 < 0) ∧ (1 ≤ 4 ∧ 4 ≤ 254 ∧ 3 < 4) ∧
    (chienFound ((bytes [1, 29]).slice 128) = [8] ∧ 8 ≤ 8) ∧
    (chienFound ((bytes [1, 0, 1]).slice 128) = [0] ∧ ((1 : Nat) : Int) ≠ polyDeg ((bytes [1, 0, 1]).slice 128)) ∧
    ((∀ j ∈ chienFound ((bytes [1, 7, 6]).slice 128), j < 255) ∧
      ((chienFound ((bytes [1, 7, 6]).slice 128)).length : Int) = polyDeg ((bytes [1, 7, 6]).slice 128) ∧
      2 / 2 < (chienFound ((bytes [1, 7, 6]).slice 128)).length) ∧
    (chienFound ((bytes [1, 66, 128]).slice 128) = [1, 6] ∧ ((2 : Nat) : Int) = polyDeg ((bytes [1, 66, 128]).slice 128) ∧
      2 ≤ 4 / 2) ∧
    (∀ i, i < 128 → State.reset.loc.read i = 0) ∧ 254 < 255 ∧
    ((bytes [1]).read 0 = 1 ∧ ∀ i, 1 ≤ i → i < 128 → (bytes [1]).read i = 0) := by
  have h0 : chienFound ((bytes [1, 29]).slice 128) = [8] := by
    rw [slice_of_bytes _ (by decide +kernel)]; decide +kernel
  have h1 : chienFound ((bytes [1, 0, 1]).slice 128) = [0] := by
    rw [slice_of_bytes _ (by decide +kernel)]; decide +kernel
  have h2 : chienFound ((bytes [1, 7, 6]).slice 128) = chienFound [1, 7, 6] := slice_of_bytes _ (by decide +kernel)
  have h3 : chienFound ((bytes [1, 66, 128]).slice 128) = [1, 6] := by
    rw [slice_of_bytes _ (by decide +kernel)]; decide +kernel
  refine ⟨by decide, by decide, ⟨h0, by decide⟩, ⟨h1, by decide +kernel⟩, ?_, ⟨h3, by decide +kernel, by decide⟩,
    fun _ _ => rfl, by decide, by decide +kernel, by decide +kernel⟩
  rw [h2]
  refine ⟨by decide +kernel, by decide +kernel, by decide +kernel⟩

/-- The syndromes 155, 240, 101, 109 of 95_test_vectors 2.7: the key equation answers and the search raises. -/
theorem witness_keyeq_then_chien_raises :
    rsKeyeq [155, 240, 101, 109] 4 = .ok [1, 205, 112, 0, 0] ∧
    rsChien (fitTo 128 [1, 205, 112, 0, 0]) 4 9 = .error .rootCount := by
  have hk : rsKeyeq [155, 240, 101, 109] 4 = Except.ok ([1, 205, 112, 0, 0] : List Byte) := by decide +kernel
  have hp : fitTo 128 ([1, 205, 112, 0, 0] : List Byte) = [1, 205, 112] ++ List.replicate 125 0 := by decide
  have hf : chienFound (fitTo 128 [1, 205, 112, 0, 0]) = chienFound [1, 205, 112] := by
    rw [hp]; exact chienFound_append_zeros _ _
  have hd : polyDeg (fitTo 128 ([1, 205, 112, 0, 0] : List Byte)) = 2 := by decide +kernel
  have hn : (chienFound [1, 205, 112]).any (fun j => decide (9 ≤ j)) = false := by decide +kernel
  have hl : ((chienFound [1, 205, 112]).length : Int) ≠ 2 := by decide +kernel
  refine ⟨hk, ?_⟩
  unfold rsChien
  simp only [hf, hd, hn, Bool.false_eq_true, if_false, ne_eq, not_false_eq_true, if_true, hl]

theorem witness_RsLocateSolvesThenSearches :
    (1 ≤ 4 ∧ 4 ≤ 254 ∧ 3 < 4) ∧ (1 ≤ 4 ∧ 4 ≤ 254 ∧ 4 ≤ 4) ∧
    rsKeyeq ((bytes [0, 0, 5, 0]).slice 4) 4 = .error .locatorConstZero ∧
    (rsKeyeq ((bytes [155, 240, 101, 109]).slice 4) 4 = .ok [1, 205, 112, 0, 0] ∧
      rsChien (fitTo 128 [1, 205, 112, 0, 0]) 4 9 = .error .rootCount) ∧
    (rsKeyeq ((bytes [12, 112, 255, 112]).slice 4) 4 = .ok [1, 66, 128, 0, 0] ∧
      rsChien (fitTo 128 [1, 66, 128, 0, 0]) 4 9 = .ok [1, 6]) ∧
    (∀ i, i < 4 → State.reset.syn.read i = 0) ∧
    (∃ t u, exec (.rsKeyeq 4) { State.reset with syn := bytes [12, 112, 255, 112] } = .next t ∧ t.status = .ok ∧
      exec (.rsChien 4 9) t = .next u ∧ u.status = .ok) := by
  refine ⟨by decide, by decide, witness_RsKeyeqWritesTheLocator.2.1.2.2, witness_keyeq_then_chien_raises,
    ⟨test_keyeq_two_errors, test_chien_two_errors⟩, fun _ _ => rfl, ?_⟩
  have hs : (bytes [1, 66, 128]).slice 128 = [1, 66, 128] ++ List.replicate 125 0 := by decide +kernel
  have hc : rsChien ((bytes [1, 66, 128]).slice 128) 4 9 = .ok [1, 6] :=
    (congrArg (fun l => rsChien l 4 9) hs).trans test_chien_two_errors
  have h : Answers (exec (.rsKeyeq 4) { State.reset with syn := bytes [12, 112, 255, 112] })
      (fun t => decide (t.loc = bytes [1, 66, 128]) && decide (t.status = .ok)) = true := by decide +kernel
  obtain ⟨t, ht, hp⟩ := next_of_answers h
  simp only [Bool.and_eq_true, decide_eq_true_eq] at hp
  have hu : execRsChien 4 9 t = .next (t.storePositions [1, 6]).succeed :=
    execRsChien_of_found (by decide) (by decide) (by decide) (hp.1 ▸ hc)
  exact ⟨t, _, ht, hp.2, hu, rfl⟩

/-- In the located state both listed positions are below 9 and both Forney denominators are 66 (95_test_vectors 2.8). -/
theorem witness_located :
    (∀ i, i < located.npos.toNat → (located.pos.read i).toNat < 9) ∧
    (∀ i, i < located.npos.toNat → polyEvald (located.loc.slice 128) (rootOf (located.pos.read i).toNat) ≠ 0) := by
  decide +kernel

theorem witness_RsForneyWritesTheMagnitudes :
    (0 = 0 ∨ 254 < 0) ∧ (1 ≤ 4 ∧ 4 ≤ 254 ∧ 3 < 4) ∧ (1 ≤ 4 ∧ 4 ≤ 254 ∧ 4 ≤ 9) ∧
    (0 < ({ State.reset with pos := bytes [9], npos := 1 } : State).npos.toNat ∧ 9 ≤ ((bytes [9]).read 0).toNat) ∧
    ((∀ i, i < 1 → (State.reset.pos.read i).toNat < 9) ∧
      polyEvald ((bytes [1, 0, 1]).slice 128) (rootOf (State.reset.pos.read 0).toNat) = 0) ∧
    located.npos.toNat ≤ 127 ∧ (∀ i, i < located.npos.toNat → (located.pos.read i).toNat < 9) ∧
    (∀ i, i < located.npos.toNat → polyEvald (located.loc.slice 128) (rootOf (located.pos.read i).toNat) ≠ 0) :=
  ⟨by decide, by decide, by decide, by decide +kernel, ⟨fun _ _ => Nat.succ_pos 8, by decide +kernel⟩, by decide,
    witness_located.1, witness_located.2⟩

theorem witness_RsApplyXorsTheListedMagnitudes :
    (0 < ({ State.reset with npos := 127 } : State).npos.toNat ∧ 0 ≤ (State.reset.pos.read 0).toNat) ∧
    (located.wf = true ∧ ∀ i, i < located.npos.toNat → (located.pos.read i).toNat < 7) := by decide +kernel

theorem witness_CorrectEqualsForneyThenApply :
    (∃ t, exec (.rsForney 4 9) located = .next t ∧ t.status = .ok) ∧
    (∃ t, exec (.rsForney 4 3) located = .next t ∧ t.status ≠ .ok) := by
  constructor
  · obtain ⟨t, h, hp⟩ := next_of_answers (r := exec (.rsForney 4 9) located) (p := fun t => decide (t.status = .ok))
      (by decide +kernel)
    exact ⟨t, h, by simpa using hp⟩
  · obtain ⟨t, h, hp⟩ := next_of_answers (r := exec (.rsForney 4 3) located) (p := fun t => decide (t.status ≠ .ok))
      (by decide +kernel)
    exact ⟨t, h, by simpa using hp⟩

theorem witness_RsCorrectCompletes :
    located.wf = true ∧ 1 ≤ 4 ∧ 4 ≤ 254 ∧ 4 ≤ 9 ∧ (∀ i, i < located.npos.toNat → (located.pos.read i).toNat < 9) ∧
    (∀ i, i < located.npos.toNat → polyEvald (located.loc.slice 128) (rootOf (located.pos.read i).toNat) ≠ 0) :=
  ⟨witness_invariant.2.1, by decide, by decide, by decide, witness_located.1, witness_located.2⟩

theorem witness_syndromes_two_errors : rsSynd ((withWord twoErrors).cw.slice 9) 4 = [12, 112, 255, 112] := by
  decide +kernel

theorem witness_RsDecodeRaises :
    (0 = 0 ∨ 254 < 0) ∧ (1 ≤ 4 ∧ 4 ≤ 254 ∧ 3 < 4) ∧
    (∃ w, allZero (rsSynd ((withWord w).cw.slice 9) 4) = false ∧
      rsKeyeq (rsSynd ((withWord w).cw.slice 9) 4) 4 = .error .locatorConstZero) ∧
    (∃ w lam, allZero (rsSynd ((withWord w).cw.slice 9) 4) = false ∧
      rsKeyeq (rsSynd ((withWord w).cw.slice 9) 4) 4 = .ok lam ∧ rsChien (fitTo 128 lam) 4 9 = .error .rootCount) := by
  refine ⟨by decide, by decide, ⟨[183, 101, 108, 86, 111, 248, 250, 133, 41], by decide +kernel, ?_⟩,
    ⟨[72, 101, 108, 108, 222, 10, 34, 105, 41], [1, 205, 112, 0, 0], by decide +kernel, ?_,
      witness_keyeq_then_chien_raises.2⟩⟩
  · have h : rsKeyeq (rsSynd ((withWord [183, 101, 108, 86, 111, 248, 250, 133, 41]).cw.slice 9) 4) 4 =
        Except.error Cause.locatorConstZero := by decide +kernel
    exact h
  · have h : rsKeyeq (rsSynd ((withWord [72, 101, 108, 108, 222, 10, 34, 105, 41]).cw.slice 9) 4) 4 =
        Except.ok ([1, 205, 112, 0, 0] : List Byte) := by decide +kernel
    exact h

/-- The committing path on the two errors, and the residual on the four errors of 95_test_vectors 2.8, whose locator is 1. -/
theorem witness_RsDecodeCommitsOrRaisesResidual :
    (1 ≤ 4 ∧ 4 ≤ 254 ∧ 4 ≤ 9 ∧ 9 ≤ 255) ∧ (withWord twoErrors).wf = true ∧
    allZero (rsSynd ((withWord twoErrors).cw.slice 9) 4) = false ∧
    rsKeyeq (rsSynd ((withWord twoErrors).cw.slice 9) 4) 4 = .ok [1, 66, 128, 0, 0] ∧
    rsChien (fitTo 128 [1, 66, 128, 0, 0]) 4 9 = .ok [1, 6] ∧
    forneyMagnitudes (evaluatorPoly (rsSynd ((withWord twoErrors).cw.slice 9) 4) (fitTo 128 [1, 66, 128, 0, 0]) 4)
      (fitTo 128 [1, 66, 128, 0, 0]) [1, 6] = .ok [5, 9] ∧
    allZero (rsSynd ((List.range 9).map fun j => (withWord twoErrors).cw.read j ^^^
      xorAll ((List.range 2).map fun i => if ([1, 6] : List Nat).getD i 0 = j then ([5, 9] : List Byte).getD i 0 else 0)) 4) =
      true := by
  rw [witness_syndromes_two_errors]
  exact ⟨by decide, witness_invariant.2.2, by decide, test_keyeq_two_errors, test_chien_two_errors,
    test_forney_two_errors, by decide +kernel⟩

theorem witness_residual :
    rsKeyeq [5, 0, 0, 0] 4 = Except.ok [1, 0, 0, 0, 0] ∧ rsChien (fitTo 128 [1, 0, 0, 0, 0]) 4 9 = .ok [] ∧
    forneyMagnitudes (evaluatorPoly [5, 0, 0, 0] (fitTo 128 [1, 0, 0, 0, 0]) 4) (fitTo 128 [1, 0, 0, 0, 0]) [] = .ok [] ∧
    allZero (rsSynd [207, 52, 63, 236, 111, 248, 250, 105, 41] 4) = false := by
  have hp : fitTo 128 ([1, 0, 0, 0, 0] : List Byte) = [1] ++ List.replicate 127 0 := by decide
  refine ⟨by decide +kernel, ?_, rfl, by decide +kernel⟩
  rw [hp]
  exact chien_padded _ _ _ _ _ (by decide +kernel) (by decide) (by decide +kernel) (by decide)

theorem witness_CleanWordTakesTheFastPath :
    1 ≤ 4 ∧ 4 ≤ 254 ∧ 4 ≤ 9 ∧ allZero (rsSynd ((withWord helloWord).cw.slice 9) 4) = true := by decide +kernel

/-- A decode that corrects, for the statements about a successful one. -/
theorem witness_decode_corrects :
    ∃ t, exec (.rsDecode 4 9) (withWord twoErrors) = .next t ∧ t.status = .ok ∧ t.flags.sz = false := by
  obtain ⟨t, h, hp⟩ := next_of_answers test_rsDecode
  rw [test_step_runs_presented_word 0x00090439 _ (.rsDecode 4 9) rfl rfl] at h
  have ht := of_decide_eq_true hp
  exact ⟨t, h, by rw [ht]; rfl, by rw [ht]; rfl⟩

theorem witness_SuccessfulDecodeLeavesACodeword :
    ∃ t, exec (.rsDecode 4 9) (withWord twoErrors) = .next t ∧ t.status = .ok := by
  obtain ⟨t, h, hs, -⟩ := witness_decode_corrects; exact ⟨t, h, hs⟩

theorem witness_DecodeNeverDividesByZero :
    (∃ t, exec (.rsDecode 4 9) (withWord twoErrors) = .next t) ∧
    (∃ t, exec (.rsDecode 4 3) (withWord twoErrors) = .next t ∧ t.status = .invalidParameter) := by
  refine ⟨exec_next _ _, ?_⟩
  obtain ⟨t, h, hp⟩ := next_of_answers (r := exec (.rsDecode 4 3) (withWord twoErrors))
    (p := fun t => decide (t.status = .invalidParameter)) (by decide +kernel)
  exact ⟨t, h, by simpa using hp⟩

theorem witness_EncodeThenDecodeReturnsTheMessage :
    (withWord [72, 101, 108, 108, 111]).wf = true ∧ 1 ≤ 1 ∧ 1 ≤ 4 ∧ 4 ≤ 254 ∧ 4 + 251 ≤ 255 := by decide +kernel

theorem witness_SecondDecodeIsClean :
    ∃ t, exec (.rsDecode 4 9) (withWord twoErrors) = .next t ∧ t.status = .ok :=
  witness_SuccessfulDecodeLeavesACodeword

theorem witness_DecodeEqualsItsStages :
    ∃ t, exec (.rsDecode 4 9) (withWord twoErrors) = .next t ∧ t.status = .ok ∧ t.flags.sz = false :=
  witness_decode_corrects

theorem witness_DecodeOfEncodeIsTheCommand :
    (Instr.bufRd 255 65535).wf = true ∧ (Instr.bufWr 255 255 255).wf = true ∧ (Instr.rsDecode 255 255).wf = true := by decide

theorem witness_EncodeOfDecodeIsTheWord :
    decodeWord 0xFFFFFF01 = .ok (.bufRd 255 65535) ∧ decodeWord 0x00000000 = .ok .nop := ⟨rfl, rfl⟩

/-- The first and the last opcode of each reserved range (30_encoding R85). -/
theorem witness_ReservedOpcodeRaises :
    State.reset.flags.rdy = true ∧
    ([0x04, 0x0F, 0x14, 0x1F, 0x22, 0x2F, 0x3A, 0xFF] : List Byte).all fun op =>
      decide (4 ≤ op.toNat ∧ op.toNat ≤ 15 ∨ 20 ≤ op.toNat ∧ op.toNat ≤ 31 ∨ 34 ≤ op.toNat ∧ op.toNat ≤ 47 ∨
        58 ≤ op.toNat) := by decide

/-- A word that decodes, one of each kind that does not, and an engine that is not ready. -/
theorem witness_StepRunsTheDecodedCommand :
    (State.reset.present 0x00070310).port = .issue 0x00070310 :: [] ∧ (State.reset.present 0x00070310).flags.rdy = true ∧
    decodeWord 0x00070310 = .ok (.gfMul 3 7) ∧ decodeWord 0x00000004 = .error .reservedOpcode ∧
    decodeWord 0x00000100 = .error .reservedField ∧ State.reset.beginReset.flags.rdy = false := ⟨rfl, rfl, rfl, rfl, rfl, rfl⟩

theorem witness_EveryWordEndsDefined : State.reset.flags.rdy = true := rfl

/-- A word that raises for its operands, and one that is no command. -/
theorem witness_RaiseChangesOnlyTheOutcome :
    (∃ t, issue 0x00000012 State.reset = .next t ∧ t.status ≠ .ok) ∧
    (∃ t, issue 0xFFFFFFFF State.reset = .next t ∧ t.status ≠ .ok) := by
  refine ⟨⟨State.reset.raise .operand, rfl, by decide⟩, ⟨State.reset.raise .reservedOpcode, rfl, by decide⟩⟩

/-- The statements about every command that ends in a next state: one that succeeds and one that raises. -/
theorem witness_CommandsRaiseOnlyTheirCauses :
    exec (.gfMul 3 7) State.reset = .next { State.reset with r := 9 } ∧
    exec (.gfInv 0) State.reset = .next (State.reset.raise .operand) := ⟨rfl, rfl⟩

theorem witness_RegistersOthersKeep :
    exec (.bufWr 0 2 109) State.reset = .next { State.reset with cw := [(2, 109)] } ∧
    writesR (.bufWr 0 2 109) = false ∧ writesNpos (.bufWr 0 2 109) = false ∧ writesSz (.bufWr 0 2 109) = false :=
  ⟨rfl, rfl, rfl, rfl⟩

theorem witness_BytesOutsideTheWriteSetStay :
    State.reset.wf = true ∧ exec (.bufWr 0 2 109) State.reset = .next { State.reset with cw := [(2, 109)] } ∧
    writesByte (.bufWr 0 2 109) { State.reset with cw := [(2, 109)] } .cw 3 = false ∧
    writesByte (.bufWr 0 2 109) { State.reset with cw := [(2, 109)] } .syn 2 = false := ⟨by decide, rfl, by decide, by decide⟩

/-- Two states that agree on what a command reads and differ elsewhere. -/
theorem witness_ResultsDependOnlyOnTheReadSet :
    State.reset.wf = true ∧ ({ State.reset with r := 7, syn := bytes [1] } : State).wf = true ∧
    readContents (.rsEncode 4 5) State.reset = readContents (.rsEncode 4 5) { State.reset with r := 7, syn := bytes [1] } ∧
    (∃ t, exec (.rsEncode 4 5) State.reset = .next t) ∧
    (∃ t, exec (.rsEncode 4 5) { State.reset with r := 7, syn := bytes [1] } = .next t) :=
  ⟨by decide, by decide +kernel, rfl, exec_next _ _, exec_next _ _⟩

theorem witness_NoCommandReadsROrFlagsOrTheOutcome :
    (∃ t, exec (.rsSynd 4 9) State.reset = .next t) ∧ writesSz (.rsSynd 4 9) = true ∧
    exec (.gfMul 3 7) State.reset = .next { State.reset with r := 9 } ∧ writesR (.gfMul 3 7) = true :=
  ⟨exec_next _ _, rfl, rfl, rfl⟩

theorem witness_StepKeepsTheInvariant :
    (State.reset.present 0x00070310).wf = true ∧
    step (State.reset.present 0x00070310) = .next { State.reset with r := 9 } := ⟨by decide, rfl⟩

/-- RESET with no word, one and two words in its window, and a second RESET inside it. -/
theorem witness_ResetRestoresTheResetState :
    ({ located with port := [.assertReset, .finishReset] } : State).port =
      .assertReset :: (([] : List Word).map .issue ++ .finishReset :: []) ∧
    ({ located with port := [.assertReset, .issue 0x00070310, .issue 0, .finishReset, .issue 0] } : State).port =
      .assertReset :: (([0x00070310, 0] : List Word).map .issue ++ .finishReset :: [.issue 0]) ∧
    ({ State.reset.beginReset with port := [.assertReset, .finishReset] } : State).port = .assertReset :: [.finishReset] ∧
    ({ State.reset.beginReset with port := [.issue 0] } : State).flags.rdy = false := ⟨rfl, rfl, rfl, rfl⟩

/-- A port map with five different addresses, and the register ports it is asked about. -/
theorem witness_RegisterPortsShowTheRegisters :
    ∃ portMap : HostPort → Nat, (∀ p q, portMap p = portMap q → p = q) ∧ HostPort.flags ∈ HostPort.registers ∧ 2 ≤ 2 ∧ 2 ≤ 7 := by
  refine ⟨fun p => match p with | .command => 0 | .r => 4 | .status => 5 | .info => 6 | .npos => 7 | .flags => 8, ?_, by decide,
    by decide, by decide⟩
  intro p q
  cases p <;> cases q <;> decide

theorem witness_EnginesShareNothing :
    (Platform.reset 2).engines[1]? = some State.reset ∧ 0 ≠ 1 := ⟨rfl, by decide⟩

theorem witness_BufferMapIsAsStated : Space.ofId 6 = some (.data .gen) ∧ Space.ofId 0 = some (.data .cw) ∧ 9 ≤ 9 := by decide

end Sys2Proof.Tests
end

/-!
PROOFS. The exponent and log tables are inverse to each other (10_state R35). The two table facts (`gfLog_expAt`,
`gfLog_eq_some`) are read off the printed values; the bijection, the period and the absence of zero follow from them.
-/

namespace Sys2Proof.Machine

/-- 10_state R35 (c). -/
theorem gfLog_expAt {i : Nat} (hi : i < 255) : gfLog (expAt i) = some i := by
  have table : ∀ i < 255, gfLog (expAt i) = some i := by decide +kernel
  exact table i hi

/-- 10_state R35 (b): a log is an index of the first period, and the exponential undoes it. -/
theorem gfLog_eq_some {a : Byte} {i : Nat} (ha : gfLog a = some i) : i < 255 ∧ expAt i = a := by
  have table : ∀ a : Byte, ∀ i ∈ gfLog a, i < 255 ∧ expAt i = a := by decide +kernel
  exact table a i ha

/-- Within the first period no exponential repeats (10_state R35 (a)). -/
theorem expAt_inj {i j : Nat} (hi : i < 255) (hj : j < 255) (h : expAt i = expAt j) : i = j := by
  have hlog : some i = some j := by rw [← gfLog_expAt hi, h, gfLog_expAt hj]
  exact Option.some.inj hlog

/-- 10_state R35 (d), at every index. -/
@[simp] theorem expAt_add_order (i : Nat) : expAt (i + 255) = expAt i := by
  rw [← expAt_mod (i + 255), Nat.add_mod_right, expAt_mod]

/-- 10_state R35 (e), at every index: each exponential has a log, and zero has none. -/
@[simp] theorem expAt_ne_zero (i : Nat) : expAt i ≠ 0#8 := by
  intro hzero
  have hlog : gfLog (expAt (i % 255)) = some (i % 255) := gfLog_expAt (Nat.mod_lt i (by decide))
  rw [expAt_mod, gfLog_none_iff.mpr hzero] at hlog
  cases hlog

/-- Every nonzero byte has a log in the first period, which the exponential undoes. -/
theorem exists_gfLog_of_ne {a : Byte} (ha : a ≠ 0) : ∃ i, gfLog a = some i ∧ i < 255 ∧ expAt i = a := by
  obtain ⟨i, hi⟩ := gfLog_some_of_ne ha
  exact ⟨i, hi, gfLog_eq_some hi⟩

/-- Settles O11: each clause is a lemma above; the index at which a nonzero byte occurs is its log. -/
theorem tableInvariants : Obligations.TableInvariants := by
  refine ⟨?bijection, fun v hv => exists_gfLog_of_ne hv, fun i hi => gfLog_expAt hi,
    fun i _ => expAt_add_order i, fun i _ => expAt_ne_zero i⟩
  case bijection =>
    intro v hv
    obtain ⟨i, -, hi, hexp⟩ := exists_gfLog_of_ne hv
    exact ⟨i, hi, hexp, fun j hj hjv => expAt_inj hj hi (hjv.trans hexp.symm)⟩

end Sys2Proof.Machine

/-!
PROOFS. The two ways a command word is rejected and the one way it is read, stated on its four fields (30_encoding R82, R84
to R86): a reserved opcode names no row, and four bytes decode as the word they are the fields of.
-/

namespace Sys2Proof

/-- The ranges 30_encoding R85 lists: 0x04..0x0F, 0x14..0x1F, 0x22..0x2F and 0x3A..0xFF. -/
def ReservedOpcodeRange (op : Byte) : Prop :=
  4 ≤ op.toNat ∧ op.toNat ≤ 15 ∨ 20 ≤ op.toNat ∧ op.toNat ≤ 31 ∨ 34 ≤ op.toNat ∧ op.toNat ≤ 47 ∨ 58 ≤ op.toNat

/-- No row of R84 has its opcode in a reserved range. -/
theorem code_not_reserved (o : Opcode) : ¬ ReservedOpcodeRange o.code := by
  unfold ReservedOpcodeRange
  cases o <;> decide

/-- An opcode byte in a reserved range names no row. -/
theorem ofByte_of_reserved {op : Byte} (h : ReservedOpcodeRange op) : Opcode.ofByte op = none := by
  cases hrow : Opcode.ofByte op with
  | none => rfl
  | some o =>
    have hcode : o.code = op := code_of_ofByte hrow
    exact absurd (hcode ▸ h) (code_not_reserved o)

/-- A word whose opcode names no row is rejected for its opcode, whatever its operand fields hold. -/
theorem decodeWord_reservedOpcode {op : Byte} (h : Opcode.ofByte op = none) (a b c : Byte) :
    decodeWord (mkWord op a b c) = .error .reservedOpcode := by
  unfold decodeWord
  simp [h]

/-- The four bytes of a command with zero reserved fields, and the bytes after it. -/
theorem decodeBytes_command (o : Opcode) (a b c : Byte) (rest : List Byte) (h : o.format.reservedZero a b c) :
    decodeBytes (o.code :: a :: b :: c :: rest) = .ok (o.build a b c, rest) := by
  simp [decodeBytes, wordOfBytes, decodeWord_mkWord o a b c h]

/-- Four bytes with a defined opcode and a nonzero reserved field. -/
theorem decodeBytes_reservedField (o : Opcode) (a b c : Byte) (rest : List Byte) (h : ¬ o.format.reservedZero a b c) :
    decodeBytes (o.code :: a :: b :: c :: rest) = .error (.illegal .reservedField) := by
  simp [decodeBytes, wordOfBytes, decodeWord_reservedField o a b c h]

/-- Four bytes whose first is a reserved opcode. -/
theorem decodeBytes_reservedOpcode {op : Byte} (h : ReservedOpcodeRange op) (a b c : Byte) (rest : List Byte) :
    decodeBytes (op :: a :: b :: c :: rest) = .error (.illegal .reservedOpcode) := by
  simp [decodeBytes, wordOfBytes, decodeWord_reservedOpcode (ofByte_of_reserved h)]

/-- Settles O45: the word does not decode, and an engine that is ready raises for it. -/
theorem reservedOpcodeRaises : Obligations.ReservedOpcodeRaises := by
  intro op a b c s hrdy hop
  exact Machine.issue_of_illegal hrdy (decodeWord_reservedOpcode (ofByte_of_reserved hop) a b c)

/-- Settles O46: each sequence is a row's opcode with its operands or a rejected word, and a word is made of its fields. -/
theorem bytesDecodeLittleEndian : Obligations.BytesDecodeLittleEndian := by
  refine ⟨?gfMul, ?rsEncode, ?bufRd, ?bufWr, ?polyEval, ?rsApply, ?reservedField, ?reservedOpcode, mkWord_fields⟩
  case gfMul => exact decodeBytes_command .gfMul 3 7 0 [] rfl
  case rsEncode => exact decodeBytes_command .rsEncode 4 5 0 [] rfl
  case bufRd => exact decodeBytes_command .bufRd 7 1 7 [] trivial
  case bufWr => exact decodeBytes_command .bufWr 2 109 0 [] trivial
  case polyEval => exact decodeBytes_command .polyEval 142 3 2 [] trivial
  case rsApply => exact decodeBytes_command .rsApply 0 9 0 [] ⟨rfl, rfl⟩
  case reservedField =>
    have hfield : ¬ Opcode.rsApply.format.reservedZero 1 9 0 := fun ⟨ha, _⟩ => absurd ha (by decide)
    exact decodeBytes_reservedField .rsApply 1 9 0 [] hfield
  case reservedOpcode =>
    have hrange : ReservedOpcodeRange 0xFF := .inr (.inr (.inr (by decide)))
    exact decodeBytes_reservedOpcode hrange 0 0 1 []

end Sys2Proof

/-!
PROOFS. The field laws (40_gf_arithmetic R109). Every nonzero byte is an exponential, so each law of the product is a law of
exponents (`gfMul_expAt`). Distributivity is not one of these: it holds because multiplying by an exponential is multiplying
by x so many times (`gfMul_expAt_eq_iterate`), and multiplying by x modulo 0x11D is additive (`timesX_xor`).
-/

namespace Sys2Proof.Machine

open Sys2Proof.Claims

/-! ### Exponentials -/

@[simp] theorem expAt_zero : expAt 0 = 1#8 := rfl

theorem expAt_one : expAt 1 = 2#8 := rfl

theorem expAt_congr {i j : Nat} (h : i % 255 = j % 255) : expAt i = expAt j := by
  rw [← expAt_mod i, h, expAt_mod]

/-- `gfLog_expAt` at every index. -/
@[simp] theorem gfLog_expAt_mod (i : Nat) : gfLog (expAt i) = some (i % 255) := by
  rw [← expAt_mod, gfLog_expAt (Nat.mod_lt i (by decide))]

/-- The case split of the proofs below: a byte is zero or an exponential. -/
theorem eq_zero_or_eq_expAt (a : Byte) : a = 0#8 ∨ ∃ i, a = expAt i := by
  by_cases ha : a = 0
  · exact .inl ha
  · obtain ⟨i, -, -, hexp⟩ := exists_gfLog_of_ne ha
    exact .inr ⟨i, hexp.symm⟩

@[simp] theorem gfMul_expAt (i j : Nat) : gfMul (expAt i) (expAt j) = expAt (i + j) := by
  rw [gfMul_of_log (gfLog_expAt_mod i) (gfLog_expAt_mod j), ← Nat.add_mod, expAt_mod]

@[simp] theorem gfInv_expAt (i : Nat) : gfInv (expAt i) = some (expAt (255 - i % 255)) :=
  gfInv_of_log (gfLog_expAt_mod i)

@[simp] theorem gfPow_expAt (i e : Nat) : gfPow (expAt i) e = expAt (i * e) := by
  by_cases he : e = 0
  · rw [he, gfPow_exponent_zero, Nat.mul_zero]; rfl
  · rw [gfPow_of_log (gfLog_expAt_mod i) he]
    exact expAt_congr (by simp [Nat.mul_mod])

theorem gfPow_zero {e : Nat} (he : e ≠ 0) : gfPow 0#8 e = 0#8 := by
  unfold gfPow; rw [if_neg he]; rfl

/-! ### The multiplicative laws -/

@[simp] theorem gfMul_one_right (a : Byte) : gfMul a 1#8 = a := by
  rcases eq_zero_or_eq_expAt a with rfl | ⟨i, rfl⟩
  · exact gfMul_zero_left _
  · exact gfMul_expAt i 0

/-- R109 (a). -/
theorem gfMul_comm (a b : Byte) : gfMul a b = gfMul b a := by
  rcases eq_zero_or_eq_expAt a with rfl | ⟨i, rfl⟩
  · simp
  rcases eq_zero_or_eq_expAt b with rfl | ⟨j, rfl⟩
  · simp
  · rw [gfMul_expAt, gfMul_expAt, Nat.add_comm]

@[simp] theorem gfMul_one_left (a : Byte) : gfMul 1#8 a = a := by
  rw [gfMul_comm, gfMul_one_right]

/-- R109 (b). -/
theorem gfMul_assoc (a b c : Byte) : gfMul (gfMul a b) c = gfMul a (gfMul b c) := by
  rcases eq_zero_or_eq_expAt a with rfl | ⟨i, rfl⟩
  · simp
  rcases eq_zero_or_eq_expAt b with rfl | ⟨j, rfl⟩
  · simp
  rcases eq_zero_or_eq_expAt c with rfl | ⟨k, rfl⟩
  · simp
  · simp only [gfMul_expAt, Nat.add_assoc]

/-- R109 (f). -/
theorem gfMul_eq_zero {a b : Byte} : gfMul a b = 0#8 ↔ a = 0#8 ∨ b = 0#8 := by
  rcases eq_zero_or_eq_expAt a with rfl | ⟨i, rfl⟩
  · simp
  rcases eq_zero_or_eq_expAt b with rfl | ⟨j, rfl⟩ <;> simp

/-! ### Inverse and quotient -/

/-- A byte with an inverse is an exponential, and its inverse the one at the opposite exponent. -/
theorem eq_expAt_of_gfInv {a ia : Byte} (h : gfInv a = some ia) : ∃ i, i < 255 ∧ a = expAt i ∧ ia = expAt (255 - i) := by
  have ha : a ≠ 0 := fun hz => by rw [gfInv_none_iff.mpr hz] at h; cases h
  obtain ⟨i, hlog, hi, hexp⟩ := exists_gfLog_of_ne ha
  rw [gfInv_of_log hlog] at h
  exact ⟨i, hi, hexp.symm, (Option.some.inj h).symm⟩

/-- R109 (e). -/
theorem gfMul_gfInv {a ia : Byte} (h : gfInv a = some ia) : gfMul a ia = 1#8 := by
  obtain ⟨i, hi, rfl, rfl⟩ := eq_expAt_of_gfInv h
  rw [gfMul_expAt, ← expAt_zero]
  exact expAt_congr (by omega)

/-- R107: the inverse of the inverse is the operand. -/
theorem gfInv_gfInv {a ia : Byte} (h : gfInv a = some ia) : gfInv ia = some a := by
  obtain ⟨i, hi, rfl, rfl⟩ := eq_expAt_of_gfInv h
  rw [gfInv_expAt]
  exact congrArg some (expAt_congr (by omega))

@[simp] theorem gfInv_one : gfInv 1#8 = some 1#8 := gfInv_expAt 0

/-- R102 without its test of the dividend, which the product makes itself. -/
theorem gfDiv_eq_gfMul_gfInv (a : Byte) {b ib : Byte} (h : gfInv b = some ib) : gfDiv a b = some (gfMul a ib) := by
  rw [gfDiv_of_inv h]
  split
  · next ha => rw [ha, BitVec.ofNat_eq_ofNat, gfMul_zero_left]
  · rfl

/-- R109 (g). -/
theorem gfMul_of_gfDiv {a b q : Byte} (h : gfDiv a b = some q) : gfMul q b = a := by
  cases hinv : gfInv b with
  | none => rw [gfInv_none_iff.mp hinv] at h; cases h
  | some ib =>
    rw [gfDiv_eq_gfMul_gfInv a hinv] at h
    cases h
    rw [gfMul_assoc, gfMul_comm ib, gfMul_gfInv hinv, gfMul_one_right]

theorem gfDiv_isSome (a : Byte) {b : Byte} (hb : b ≠ 0) : (gfDiv a b).isSome = true := by
  obtain ⟨ib, hinv⟩ := gfInv_some_of_ne hb
  rw [gfDiv_eq_gfMul_gfInv a hinv, Option.isSome_some]

/-! ### Powers -/

/-- R104: the power is the repeated product. -/
theorem gfPow_eq_repeatedProduct (a : Byte) (e : Nat) : gfPow a e = repeatedProduct a e := by
  induction e with
  | zero => rfl
  | succ e ih =>
    rw [repeatedProduct, ← ih]
    rcases eq_zero_or_eq_expAt a with rfl | ⟨i, rfl⟩
    · rw [gfPow_zero e.succ_ne_zero, gfMul_zero_right]
    · rw [gfPow_expAt, gfPow_expAt, gfMul_expAt, Nat.mul_succ]

/-- R108 at the exponent 1. -/
theorem gfPow_exponent_one (a : Byte) : gfPow a 1 = a := by
  rw [gfPow_eq_repeatedProduct]; exact gfMul_one_left a

/-- R108 at the exponent 255: the order of the multiplicative group. -/
theorem gfPow_order {a : Byte} (ha : a ≠ 0) : gfPow a 255 = 1#8 := by
  obtain ⟨i, -, -, rfl⟩ := exists_gfLog_of_ne ha
  rw [gfPow_expAt, ← expAt_zero]
  exact expAt_congr (Nat.mul_mod_left i 255)

/-- R108 at the exponent 254. -/
theorem gfInv_eq_gfPow {a : Byte} (ha : a ≠ 0) : gfInv a = some (gfPow a 254) := by
  obtain ⟨i, -, hi, rfl⟩ := exists_gfLog_of_ne ha
  rw [gfInv_expAt, gfPow_expAt]
  exact congrArg some (expAt_congr (by omega))

/-! ### Multiplying by x, and the product as a polynomial product -/

/-- Reduction modulo 0x11D adds 0x1D to the shifted byte. -/
theorem timesX_eq (a : Byte) : timesX a = (a <<< 1) ^^^ (if a.getLsbD 7 then 0x1D#8 else 0#8) := by
  unfold timesX
  split <;> simp

theorem timesX_xor (a b : Byte) : timesX (a ^^^ b) = timesX a ^^^ timesX b := by
  have hred : ∀ p q : Bool, (if p ^^ q then 0x1D#8 else 0#8) =
      (if p then 0x1D#8 else 0#8) ^^^ (if q then 0x1D#8 else 0#8) := by decide
  simp only [timesX_eq, BitVec.getLsbD_xor, hred, BitVec.shiftLeft_xor_distrib]
  ac_rfl

/-- The exponential table is built by multiplying by x (10_state R31), at every index. -/
theorem timesX_expAt (i : Nat) : timesX (expAt i) = expAt (i + 1) := by
  have table : ∀ i < 255, timesX (expAt i) = expAt (i + 1) := by decide +kernel
  rw [← expAt_mod i, table _ (Nat.mod_lt i (by decide))]
  exact expAt_congr (by omega)

/-- R109 (h): the byte 2 is the polynomial x. -/
theorem gfMul_two (a : Byte) : gfMul a 2#8 = timesX a := by
  rcases eq_zero_or_eq_expAt a with rfl | ⟨i, rfl⟩
  · rfl
  · rw [← expAt_one, gfMul_expAt, timesX_expAt]

theorem gfMul_timesX (a b : Byte) : gfMul a (timesX b) = timesX (gfMul a b) := by
  rw [← gfMul_two, ← gfMul_two, gfMul_assoc]

theorem gfMul_expAt_eq_iterate (i : Nat) (b : Byte) : gfMul (expAt i) b = timesX^[i] b := by
  induction i with
  | zero => exact gfMul_one_left b
  | succ i ih =>
    calc gfMul (expAt (i + 1)) b = gfMul b (timesX (expAt i)) := by rw [timesX_expAt, gfMul_comm]
      _ = timesX (timesX^[i] b) := by rw [gfMul_timesX, gfMul_comm, ih]
      _ = timesX^[i + 1] b := (Function.iterate_succ_apply' timesX i b).symm

/-- R109 (c): multiplying by x is additive, so multiplying by any power of it is. -/
theorem gfMul_xor (a b c : Byte) : gfMul a (b ^^^ c) = gfMul a b ^^^ gfMul a c := by
  rcases eq_zero_or_eq_expAt a with rfl | ⟨i, rfl⟩
  · simp
  · simp only [gfMul_expAt_eq_iterate]
    induction i with
    | zero => rfl
    | succ i ih => simp only [Function.iterate_succ_apply', ih, timesX_xor]

/-- A byte is its upper seven bits times x, plus its bit 0. -/
theorem timesX_ushiftRight_xor_bit (b : Byte) : timesX (b >>> 1) ^^^ (if b.getLsbD 0 then 1#8 else 0#8) = b := by
  have htop : (b >>> 1).getLsbD 7 = false := by simp
  rw [timesX_eq, htop, if_neg Bool.false_ne_true, BitVec.xor_zero]
  ext k hk
  cases k with
  | zero => cases hbit : b[0] <;> simp [hbit]
  | succ k => split <;> simp [Nat.add_comm 1 k, BitVec.getLsbD_eq_getElem hk]

/-- R101: shift and add over the low `n` bits is the field product, when the second factor has no bit above them. -/
theorem shiftAddProduct_eq_gfMul (a b : Byte) (n : Nat) (hb : b.toNat < 2 ^ n) : shiftAddProduct a b n = gfMul a b := by
  induction n generalizing b with
  | zero =>
    have hzero : b = 0#8 := BitVec.eq_of_toNat_eq (by simpa using hb)
    rw [hzero, gfMul_zero_right]; rfl
  | succ n ih =>
    have hshift : (b >>> 1).toNat < 2 ^ n := by
      rw [BitVec.toNat_ushiftRight, Nat.shiftRight_eq_div_pow]; omega
    have hbit : (if b.getLsbD 0 then a else 0) = gfMul a (if b.getLsbD 0 then 1#8 else 0#8) := by
      split <;> simp
    rw [shiftAddProduct, ih _ hshift, hbit, ← gfMul_timesX, ← gfMul_xor, timesX_ushiftRight_xor_bit]

/-- Settles O9: the table form is the definition and the period of EXP, the polynomial form is shift and add over 8 bits. -/
theorem gfMulIsThePolynomialProduct : Obligations.GfMulIsThePolynomialProduct := by
  refine ⟨fun a b h => gfMul_eq_zero.mpr h, ?tables, fun a ha => gfLog_some_of_ne ha,
    fun a b => (shiftAddProduct_eq_gfMul a b 8 b.isLt).symm⟩
  case tables =>
    intro a b i j ha hb
    have hmul : gfMul a b = expAt ((i + j) % 255) := gfMul_of_log ha hb
    obtain ⟨hi, -⟩ := gfLog_eq_some ha
    obtain ⟨hj, -⟩ := gfLog_eq_some hb
    exact ⟨hmul, hmul.trans (expAt_mod _), by omega⟩

/-- Settles O10: each clause is a law above. -/
theorem fieldLaws : Obligations.FieldLaws := by
  refine ⟨gfMul_comm, fun a b c => (gfMul_assoc a b c).symm, gfMul_xor,
    fun a => ⟨gfMul_one_right a, gfMul_zero_right a⟩, fun a ia h => gfMul_gfInv h, ?inverse,
    fun a b h => gfMul_eq_zero.mp h, fun a b q h => gfMul_of_gfDiv h, fun a b hb => gfDiv_isSome a hb, gfMul_two⟩
  case inverse =>
    intro a ha
    exact Option.isSome_iff_exists.mpr (gfInv_some_of_ne ha)

end Sys2Proof.Machine

/-!
PROOFS. The field commands GF.MUL, GF.DIV, GF.INV and GF.POW (R105 to R108): the word of a command runs it or is rejected
for a reserved field, for every row of the opcode table at once; then each command's next state.
-/

namespace Sys2Proof.Claims

open Sys2Proof Sys2Proof.Machine

/-! ### The word of a command -/

/-- A word with a defined opcode and zero reserved fields runs its row's instruction (30_encoding R84). -/
theorem wordRuns_build (o : Opcode) {a b c : Byte} (h : o.format.reservedZero a b c) :
    WordRuns (mkWord o.code a b c) (o.build a b c) :=
  fun _ hrdy => issue_of_decoded hrdy (decodeWord_mkWord o a b c h)

/-- A word with a defined opcode and a nonzero reserved field raises IllegalCommand(2) (30_encoding R86). -/
theorem reservedFieldRaises_of_format (o : Opcode) {bad : Byte → Byte → Byte → Prop}
    (h : ∀ a b c, bad a b c → ¬ o.format.reservedZero a b c) : ReservedFieldRaises o.code bad :=
  fun a b c _ hrdy hbad => issue_of_illegal hrdy (decodeWord_reservedField o a b c (h a b c hbad))

/-- The rows that reserve the field `c` only. -/
theorem reservedFieldRaises_of_fab {o : Opcode} (h : o.format = .fab) : ReservedFieldRaises o.code fun _ _ c => c ≠ 0 := by
  refine reservedFieldRaises_of_format o fun a b c hc hzero => ?_
  rw [h] at hzero
  exact hc hzero

/-- The rows that reserve the fields `b` and `c`. -/
theorem reservedFieldRaises_of_fa {o : Opcode} (h : o.format = .fa) :
    ReservedFieldRaises o.code fun _ b c => b ≠ 0 ∨ c ≠ 0 := by
  refine reservedFieldRaises_of_format o fun a b c hbad hzero => ?_
  rw [h] at hzero
  obtain ⟨hb, hc⟩ := hzero
  exact hbad.elim (fun h => h hb) (fun h => h hc)

/-! ### The next state -/

theorem exec_gfMul (a b : Byte) (s : State) :
    exec (.gfMul a b) s = .next { s with r := gfMul a b, status := .ok, info := 0 } := rfl

theorem exec_gfPow (a : Byte) (e : Nat) (s : State) :
    exec (.gfPow a e) s = .next { s with r := gfPow a e, status := .ok, info := 0 } := rfl

theorem exec_gfDiv_of_some {a b q : Byte} (s : State) (h : gfDiv a b = some q) :
    exec (.gfDiv a b) s = .next { s with r := q, status := .ok, info := 0 } := by
  change execGfDiv a b s = _
  unfold execGfDiv; rw [h]; rfl

theorem exec_gfDiv_by_zero (a : Byte) (s : State) : Fails (exec (.gfDiv a 0) s) s .divisionByZero 1 := rfl

theorem exec_gfInv_of_some {a ia : Byte} (s : State) (h : gfInv a = some ia) :
    exec (.gfInv a) s = .next { s with r := ia, status := .ok, info := 0 } := by
  change execGfInv a s = _
  unfold execGfInv; rw [h]; rfl

theorem exec_gfInv_zero (s : State) : Fails (exec (.gfInv 0) s) s .divisionByZero 1 := rfl

/-! ### The obligations -/

/-- Settles O5: the next state is the meaning itself, the corner cases are laws of the product. -/
theorem gfMulLeavesTheProduct : Obligations.GfMulLeavesTheProduct :=
  ⟨fun _ _ => wordRuns_build .gfMul rfl, exec_gfMul,
    fun a => ⟨gfMul_zero_right a, gfMul_zero_left a, gfMul_one_right a, gfMul_one_left a⟩, by decide,
    reservedFieldRaises_of_fab (o := .gfMul) rfl⟩

/-- Settles O6: the quotient is `a` times the inverse of the divisor, also for `a = 0`. -/
theorem gfDivLeavesTheQuotient : Obligations.GfDivLeavesTheQuotient := by
  refine ⟨fun _ _ => wordRuns_build .gfDiv rfl, exec_gfDiv_by_zero, ?quotient, by decide,
    reservedFieldRaises_of_fab (o := .gfDiv) rfl⟩
  case quotient =>
    intro a b s hb
    obtain ⟨ib, hinv⟩ := gfInv_some_of_ne hb
    have hquot : gfDiv a b = some (gfMul a ib) := gfDiv_eq_gfMul_gfInv a hinv
    refine ⟨ib, gfMul a ib, hinv, ?value, exec_gfDiv_of_some s hquot, ?self, ?byOne⟩
    case value => exact Option.some.inj (hquot.symm.trans (gfDiv_of_inv hinv))
    case self => rintro rfl; exact gfMul_gfInv hinv
    case byOne =>
      rintro rfl
      obtain rfl : 1#8 = ib := Option.some.inj (gfInv_one.symm.trans hinv)
      exact gfMul_one_right a

/-- Settles O7: a nonzero operand has a log, and the byte at the opposite exponent is its inverse, whose inverse it is. -/
theorem gfInvLeavesTheInverse : Obligations.GfInvLeavesTheInverse := by
  refine ⟨fun _ => wordRuns_build .gfInv ⟨rfl, rfl⟩, exec_gfInv_zero, ?inverse, by decide,
    reservedFieldRaises_of_fa (o := .gfInv) rfl⟩
  case inverse =>
    intro a s ha
    obtain ⟨i, hlog⟩ := gfLog_some_of_ne ha
    have hinv : gfInv a = some (expAt (255 - i)) := gfInv_of_log hlog
    refine ⟨i, expAt (255 - i), hlog, rfl, exec_gfInv_of_some s hinv, gfInv_gfInv hinv, ?one⟩
    case one => rintro rfl; exact Option.some.inj (hinv.symm.trans gfInv_one)

/-- Settles O8: the exponents 0, 1, 254 and 255 are laws of exponents modulo 255. -/
theorem gfPowLeavesThePower : Obligations.GfPowLeavesThePower := by
  refine ⟨fun _ _ => wordRuns_build .gfPow rfl, exec_gfPow, fun a => ⟨gfPow_exponent_zero a, gfPow_exponent_one a⟩,
    fun e he => gfPow_zero (Nat.ne_of_gt he), fun a e i he hlog => gfPow_of_log hlog (Nat.ne_of_gt he),
    fun a ha => ⟨gfPow_order ha, gfInv_eq_gfPow ha⟩, gfPow_eq_repeatedProduct, by decide,
    reservedFieldRaises_of_fab (o := .gfPow) rfl⟩

end Sys2Proof.Claims

/-!
PROOFS. The two evaluation loops (41_polynomial R120, R121) against their sums term by term. Horner's rule is the power sum by
induction on the coefficients. The derivative loop is Horner's rule on the coefficients of the formal derivative
(`formalDerivative`, `polyEvald_eq_polyEval`), so its sum is a power sum too.
-/

namespace Sys2Proof.Machine

open Sys2Proof.Claims

/-! ### Sums in the field -/

@[simp] theorem xorAll_nil : xorAll [] = 0#8 := rfl

@[simp] theorem xorAll_cons (a : Byte) (l : List Byte) : xorAll (a :: l) = a ^^^ xorAll l := rfl

/-- `gfMul_xor` for any number of terms. -/
theorem gfMul_xorAll (x : Byte) (l : List Byte) : gfMul x (xorAll l) = xorAll (l.map (gfMul x)) := by
  induction l with
  | nil => exact gfMul_zero_right x
  | cons a l ih => rw [xorAll_cons, gfMul_xor, ih, List.map_cons, xorAll_cons]

/-! ### Horner's rule -/

/-- The first coefficient apart, `x` is a factor of the power sum. -/
theorem powerSum_cons (c : Byte) (p : List Byte) (x : Byte) : powerSum (c :: p) x = c ^^^ gfMul (powerSum p x) x := by
  have hterm : ∀ i, gfMul (p.getD i 0) (repeatedProduct x (i + 1)) = gfMul x (gfMul (p.getD i 0) (repeatedProduct x i)) := by
    intro i
    rw [repeatedProduct, ← gfMul_assoc, gfMul_comm x]
  have hfirst : gfMul c (repeatedProduct x 0) = c := gfMul_one_right c
  rw [gfMul_comm, powerSum, powerSum, gfMul_xorAll, List.length_cons, List.range_succ_eq_map]
  simp only [List.map_cons, List.map_map, xorAll_cons, List.getD_cons_zero, hfirst, Function.comp_def, Nat.succ_eq_add_one,
    List.getD_cons_succ, hterm]

/-- R120: Horner's rule gives the power sum. -/
theorem polyEval_eq_powerSum (p : List Byte) (x : Byte) : polyEval p x = powerSum p x := by
  induction p with
  | nil => rfl
  | cons c p ih => rw [polyEval_cons, powerSum_cons, ih, BitVec.xor_comm]

/-- R120 at the point 0. -/
@[simp] theorem polyEval_at_zero (p : List Byte) : polyEval p 0#8 = p.getD 0 0 := by
  cases p with
  | nil => rfl
  | cons c p => rw [polyEval_cons, gfMul_zero_right, BitVec.zero_xor, List.getD_cons_zero]

/-- R120 at the point 1. -/
theorem polyEval_at_one (p : List Byte) : polyEval p 1#8 = xorAll p := by
  induction p with
  | nil => rfl
  | cons c p ih => rw [polyEval_cons, gfMul_one_right, ih, xorAll_cons, BitVec.xor_comm]

/-- Settles O15: each clause is a lemma above or an equation of the loop. -/
theorem hornerIsThePowerSum : Obligations.HornerIsThePowerSum :=
  ⟨polyEval_eq_powerSum, polyEval_nil, polyEval_cons, polyEval_append_zeros, fun c p => polyEval_at_zero (c :: p),
    polyEval_at_one⟩

/-! ### The formal derivative -/

/-- The coefficients at every other index, from the first on if `keep` and from the second on otherwise; 0 elsewhere. -/
def alternateCoeffs : Bool → List Byte → List Byte
  | _, [] => []
  | keep, c :: cs => (if keep then c else 0) :: alternateCoeffs (!keep) cs

/-- The coefficients of the formal derivative (R121): `p[i]` at index `i - 1` for every odd `i`. -/
def formalDerivative (p : List Byte) : List Byte := alternateCoeffs true p.tail

@[simp] theorem alternateCoeffs_length (keep : Bool) (p : List Byte) : (alternateCoeffs keep p).length = p.length := by
  induction p generalizing keep with
  | nil => rfl
  | cons c p ih => rw [alternateCoeffs, List.length_cons, List.length_cons, ih]

/-- The loop of R121 is Horner's rule on the coefficients it does not skip. -/
theorem derivFrom_eq_polyEval (x : Byte) (odd : Bool) (p : List Byte) :
    derivFrom x odd p = polyEval (alternateCoeffs odd p) x := by
  induction p generalizing odd with
  | nil => rfl
  | cons c p ih => rw [derivFrom, ih, alternateCoeffs, polyEval_cons]

/-- R121: the value of the formal derivative. -/
theorem polyEvald_eq_polyEval (p : List Byte) (x : Byte) : polyEvald p x = polyEval (formalDerivative p) x :=
  derivFrom_eq_polyEval x true p.tail

theorem alternateCoeffs_getD (keep : Bool) (p : List Byte) (i : Nat) :
    (alternateCoeffs keep p).getD i 0 = if i % 2 = (if keep then 0 else 1) then p.getD i 0 else 0 := by
  induction p generalizing keep i with
  | nil => simp [alternateCoeffs]
  | cons c p ih =>
    cases i with
    | zero => cases keep <;> simp [alternateCoeffs]
    | succ i =>
      have hparity : i % 2 = (if !keep then 0 else 1) ↔ (i + 1) % 2 = (if keep then 0 else 1) := by
        cases keep <;> simp <;> omega
      simp only [alternateCoeffs, List.getD_cons_succ, ih, hparity]

/-- R121: the loop gives the sum over the odd indices. Index `i + 1` is odd exactly when index `i` of the tail is kept. -/
theorem polyEvald_eq_oddPowerSum (p : List Byte) (x : Byte) : polyEvald p x = oddPowerSum p x := by
  cases p with
  | nil => rfl
  | cons c p =>
    have hterm : ∀ i, gfMul ((alternateCoeffs true p).getD i 0) (repeatedProduct x i) =
        if (i + 1) % 2 = 1 then gfMul (p.getD i 0) (repeatedProduct x i) else 0#8 := by
      intro i
      rw [alternateCoeffs_getD]
      rcases Nat.mod_two_eq_zero_or_one i with hi | hi
      · simp [hi, show (i + 1) % 2 = 1 by omega]
      · simp [hi, show (i + 1) % 2 = 0 by omega]
    rw [polyEvald_eq_polyEval, polyEval_eq_powerSum, formalDerivative, List.tail_cons, powerSum, oddPowerSum,
      alternateCoeffs_length, List.length_cons, List.range_succ_eq_map]
    simp only [hterm, List.map_cons, List.map_map, xorAll_cons, Function.comp_def, Nat.succ_eq_add_one,
      List.getD_cons_succ, Nat.add_sub_cancel]
    exact BitVec.zero_xor.symm

/-- R121: `p[0]` never contributes. -/
theorem polyEvald_cons_congr (c d : Byte) (p : List Byte) (x : Byte) : polyEvald (c :: p) x = polyEvald (d :: p) x := rfl

/-- R121 for L = 0 and L = 1. -/
theorem polyEvald_of_length_le_one {p : List Byte} (hp : p.length ≤ 1) (x : Byte) : polyEvald p x = 0#8 := by
  have htail : p.tail = [] := List.eq_nil_of_length_eq_zero (by rw [List.length_tail]; omega)
  rw [polyEvald, htail]; rfl

/-- R123 at the point 0: the derivative's constant coefficient. -/
@[simp] theorem polyEvald_at_zero (p : List Byte) : polyEvald p 0#8 = p.getD 1 0 := by
  have hfirst : (formalDerivative p).getD 0 0 = p.tail.getD 0 0 := alternateCoeffs_getD true p.tail 0
  rw [polyEvald_eq_polyEval, polyEval_at_zero, hfirst]
  cases p <;> rfl

/-- Settles O16: each clause is a lemma above. -/
theorem derivativeIsTheOddPowerSum : Obligations.DerivativeIsTheOddPowerSum :=
  ⟨polyEvald_eq_oddPowerSum, polyEvald_cons_congr, fun _ x hp => polyEvald_of_length_le_one hp x⟩

/-! ### The two commands -/

/-- No id from 7 on names a buffer that can be evaluated (R122). -/
theorem evaluable_of_seven_le {id : Nat} (h : 7 ≤ id) : evaluable id = .error .bufId := by
  unfold evaluable
  cases hsp : Space.ofId id with
  | none => rfl
  | some sp =>
    rcases Space.ofId_cases hsp with ⟨b, rfl, rfl⟩ | ⟨-, rfl⟩ | ⟨-, rfl⟩
    · exact absurd h (by cases b <;> decide)
    · rfl
    · rfl

/-- What POLY.EVAL and POLY.EVALD have in common: `R` becomes a function of the first `len` bytes of a data buffer. -/
def execOnSlice (f : List Byte → Byte) (buf len : Nat) (s : State) : Result :=
  s.commit do
    let b ← evaluable buf
    checkEvalLength b len
    return s.setR (f ((s.buf b).slice len))

theorem exec_polyEval (buf : Nat) (x : Byte) (len : Nat) (s : State) :
    exec (.polyEval buf x len) s = execOnSlice (fun p => polyEval p x) buf len s := rfl

theorem exec_polyEvald (buf : Nat) (x : Byte) (len : Nat) (s : State) :
    exec (.polyEvald buf x len) s = execOnSlice (fun p => polyEvald p x) buf len s := rfl

section
variable {buf len : Nat} {b : Buf} (f : List Byte → Byte) (s : State)

theorem execOnSlice_bad_id (h : 7 ≤ buf) : Fails (execOnSlice f buf len s) s .invalidParameter 3 := by
  unfold execOnSlice
  rw [evaluable_of_seven_le h]; rfl

theorem execOnSlice_bad_length (hb : Space.ofId buf = some (.data b)) (hlen : b.size < len) :
    Fails (execOnSlice f buf len s) s .invalidParameter 8 := by
  unfold execOnSlice
  rw [evaluable_of_data hb, except_ok_bind, checkEvalLength_spec, if_neg (Nat.not_le.mpr hlen)]; rfl

theorem execOnSlice_ok (hb : Space.ofId buf = some (.data b)) (hlen : len ≤ b.size) :
    execOnSlice f buf len s = .next { s with r := f ((s.buf b).slice len), status := .ok, info := 0 } := by
  unfold execOnSlice
  rw [evaluable_of_data hb, except_ok_bind, checkEvalLength_spec, if_pos hlen]; rfl

end

/-- The byte at an index below the length of a slice is the buffer's. -/
theorem State.slice_buf_getD (s : State) (b : Buf) {len i : Nat} (h : i < len) :
    ((s.buf b).slice len).getD i 0 = s.readByte b i := by
  rw [Memory.slice_getD, if_pos h]; rfl

/-- Settles O13: the checks in order, then the value; its corner cases are those of Horner's rule. -/
theorem polyEvalLeavesTheValue : Obligations.PolyEvalLeavesTheValue := by
  refine ⟨fun _ _ _ => wordRuns_build .polyEval trivial, ?badId, ?badLength, ?value, by decide⟩
  case badId =>
    intro buf x len s hbuf
    rw [exec_polyEval]; exact execOnSlice_bad_id _ s hbuf
  case badLength =>
    intro buf x len b s hb hlen
    rw [exec_polyEval]; exact execOnSlice_bad_length _ s hb hlen
  case value =>
    intro buf x len b s hb hlen
    rw [exec_polyEval]
    refine ⟨execOnSlice_ok _ s hb hlen, ?empty, ?zero⟩
    case empty => rintro rfl; exact polyEval_nil x
    case zero =>
      rintro rfl hpos
      exact (polyEval_at_zero _).trans (s.slice_buf_getD b hpos)

/-- Settles O14: the checks in order, then the value; its corner cases are those of the derivative loop. -/
theorem polyEvaldLeavesTheDerivative : Obligations.PolyEvaldLeavesTheDerivative := by
  refine ⟨fun _ _ _ => wordRuns_build .polyEvald trivial, ?badId, ?badLength, ?value, by decide⟩
  case badId =>
    intro buf x len s hbuf
    rw [exec_polyEvald]; exact execOnSlice_bad_id _ s hbuf
  case badLength =>
    intro buf x len b s hb hlen
    rw [exec_polyEvald]; exact execOnSlice_bad_length _ s hb hlen
  case value =>
    intro buf x len b s hb hlen
    rw [exec_polyEvald]
    refine ⟨execOnSlice_ok _ s hb hlen, ?short, ?zero⟩
    case short =>
      intro hshort
      exact polyEvald_of_length_le_one (by rw [Memory.slice_length]; exact hshort) x
    case zero =>
      rintro rfl htwo
      exact (polyEvald_at_zero _).trans (s.slice_buf_getD b htwo)

end Sys2Proof.Machine

/-!
PROOFS. Coefficient arrays read entry by entry, and the inner loop the encoder shares with the polynomial commands (R130,
R132, R150, R151): adding a multiple of `x^i G` to an array adds that multiple to the array's value at every point.
-/

namespace Sys2Proof.Machine

open Sys2Proof.Claims

/-! ### Entries -/

/-- A missing entry reads as 0, so arrays of one length that read the same are equal. -/
theorem coeffs_ext {p q : List Byte} (hlen : p.length = q.length) (h : ∀ j, p.getD j 0#8 = q.getD j 0#8) : p = q := by
  refine List.ext_getElem hlen fun j hp hq => ?_
  rw [← List.getD_eq_getElem p 0#8 hp, ← List.getD_eq_getElem q 0#8 hq, h]

theorem getD_zeros (n j : Nat) : (List.replicate n 0#8).getD j 0#8 = 0#8 := by
  rcases Nat.lt_or_ge j n with h | h
  · exact List.getD_replicate 0#8 h
  · exact List.getD_eq_default _ 0#8 (by rwa [List.length_replicate])

theorem getD_snoc_zero (p : List Byte) (j : Nat) : (p ++ [0#8]).getD j 0#8 = p.getD j 0#8 := by
  rcases Nat.lt_or_ge j p.length with h | h
  · exact List.getD_append p [0#8] 0#8 j h
  · rw [List.getD_append_right p [0#8] 0#8 j h, List.getD_eq_default p 0#8 h]
    exact getD_zeros 1 _

/-- The inner loop of R130, R132 and R151, entry by entry: the entries below `i` stay. -/
theorem addScaledAt_getD (w : List Byte) (i : Nat) (f : Byte) (g : List Byte) (j : Nat) :
    (addScaledAt w i f g).getD j 0#8 =
      if i ≤ j ∧ j < w.length then w.getD j 0#8 ^^^ gfMul f (g.getD (j - i) 0#8) else w.getD j 0#8 := by
  have htake : (w.take i).length = min i w.length := List.length_take
  unfold addScaledAt
  by_cases hj : i ≤ j ∧ j < w.length
  · have hadd : (addScaled f (w.drop i) g).getD (j - i) 0#8 =
        (w.drop i).getD (j - i) 0#8 ^^^ gfMul f (g.getD (j - i) 0#8) :=
      (addScaled_getD f _ g _).trans (if_pos (by rw [List.length_drop]; omega))
    rw [if_pos hj, List.getD_append_right _ _ _ _ (by omega), htake, Nat.min_eq_left (by omega), hadd]
    simp [List.getD, List.getElem?_drop, Nat.add_sub_cancel' hj.1]
  · rw [if_neg hj]
    rcases Nat.lt_or_ge j w.length with hlen | hlen
    · have hij : j < i := Nat.lt_of_not_le fun h => hj ⟨h, hlen⟩
      rw [List.getD_append _ _ _ _ (by omega)]
      simp [List.getD, hij]
    · rw [List.getD_eq_default w 0#8 hlen, List.getD_eq_default]
      rw [List.length_append, addScaled_length, ← List.length_append, List.take_append_drop]
      exact hlen

/-- The factor 0 adds nothing. -/
theorem addScaledAt_zero (w : List Byte) (i : Nat) (g : List Byte) : addScaledAt w i 0#8 g = w := by
  refine coeffs_ext (addScaledAt_length ..) fun j => ?_
  rw [addScaledAt_getD]
  split <;> simp

/-! ### Values -/

theorem xorAll_concat (l : List Byte) (a : Byte) : xorAll (l ++ [a]) = xorAll l ^^^ a := by
  induction l with
  | nil => simp
  | cons b l ih => rw [List.cons_append, xorAll_cons, ih, xorAll_cons, BitVec.xor_assoc]

/-- R109 (c) on the other side. -/
theorem xor_gfMul (a b c : Byte) : gfMul (a ^^^ b) c = gfMul a c ^^^ gfMul b c := by
  rw [gfMul_comm, gfMul_xor, gfMul_comm c a, gfMul_comm c b]

theorem polyEval_append (p q : List Byte) (x : Byte) :
    polyEval (p ++ q) x = polyEval p x ^^^ gfMul (repeatedProduct x p.length) (polyEval q x) := by
  induction p with
  | nil => simp [repeatedProduct]
  | cons c p ih =>
    rw [List.cons_append, polyEval_cons, ih, polyEval_cons, List.length_cons, repeatedProduct, xor_gfMul,
      gfMul_assoc, gfMul_comm (polyEval q x), ← gfMul_assoc]
    ac_rfl

@[simp] theorem polyEval_zeros (n : Nat) (x : Byte) : polyEval (List.replicate n 0#8) x = 0#8 :=
  polyEval_append_zeros [] n x

theorem polyEval_addScaled (f : Byte) (w g : List Byte) (x : Byte) (h : g.length ≤ w.length) :
    polyEval (addScaled f w g) x = polyEval w x ^^^ gfMul f (polyEval g x) := by
  induction w generalizing g with
  | nil =>
    rw [List.eq_nil_of_length_eq_zero (Nat.le_zero.mp h)]
    simp [addScaled]
  | cons v w ih =>
    cases g with
    | nil => simp [addScaled]
    | cons c g =>
      rw [addScaled, polyEval_cons, ih g (Nat.le_of_succ_le_succ h), polyEval_cons, polyEval_cons, xor_gfMul, gfMul_xor,
        gfMul_assoc]
      ac_rfl

/-- Adding `f x^i G` to an array that holds all of its entries adds its value. -/
theorem polyEval_addScaledAt (w : List Byte) (i : Nat) (f : Byte) (g : List Byte) (x : Byte)
    (h : i + g.length ≤ w.length) :
    polyEval (addScaledAt w i f g) x =
      polyEval w x ^^^ gfMul (repeatedProduct x i) (gfMul f (polyEval g x)) := by
  have htake : (w.take i).length = i := List.length_take_of_le (by omega)
  have hsplit : polyEval w x = polyEval (w.take i) x ^^^ gfMul (repeatedProduct x i) (polyEval (w.drop i) x) := by
    conv_lhs => rw [← List.take_append_drop i w, polyEval_append, htake]
  rw [addScaledAt, polyEval_append, htake, polyEval_addScaled f _ g x (by rw [List.length_drop]; omega), gfMul_xor,
    hsplit, BitVec.xor_assoc]

end Sys2Proof.Machine

/-!
PROOFS. The generator (R130). A pass of its loop does not depend on the room above the entries it fills
(`generatorArray_snoc`), so `rs_gen(i+1)` is one pass on `rs_gen(i)` with one more entry (`rsGen_succ`): a product with the
factor `1 + α^(-i) x` (`polyMulTrunc_linear`, `polyEval_rsGen_succ`).
-/

namespace Sys2Proof.Machine

open Sys2Proof.Claims

/-! ### One factor -/

/-- The top entry of the array being multiplied is not read when it is 0. -/
theorem mulLinear_snoc_zero (g : List Byte) (r : Byte) : mulLinear (g ++ [0#8]) r = addScaledAt (g ++ [0#8]) 1 r g := by
  refine coeffs_ext (by simp) fun j => ?_
  simp only [mulLinear, addScaledAt_getD, getD_snoc_zero]

/-- A pass on an array with two unused entries leaves the upper one 0. -/
theorem mulLinear_snoc_zero_zero (g : List Byte) (r : Byte) :
    mulLinear (g ++ [0#8] ++ [0#8]) r = mulLinear (g ++ [0#8]) r ++ [0#8] := by
  refine coeffs_ext (by simp) fun j => ?_
  simp only [mulLinear, addScaledAt_getD, getD_snoc_zero, List.length_append, List.length_singleton]
  by_cases hj : j = g.length + 1
  · subst hj; simp
  · simp only [show j < g.length + 1 + 1 ↔ j < g.length + 1 by omega]

/-- Multiplying by `1 + r x` is the product of R151. -/
theorem polyMulTrunc_linear (g : List Byte) (r : Byte) :
    polyMulTrunc [1, r] g (g.length + 1) = mulLinear (g ++ [0#8]) r := by
  have hone : addScaledAt (List.replicate (g.length + 1) 0#8) 0 1#8 g = g ++ [0#8] := by
    refine coeffs_ext (by simp) fun j => ?_
    simp only [addScaledAt_getD, getD_snoc_zero, getD_zeros, gfMul_one_left, BitVec.zero_xor,
      List.length_replicate, Nat.zero_le, true_and, Nat.sub_zero]
    split
    · rfl
    · exact (List.getD_eq_default g 0#8 (by omega)).symm
  calc polyMulTrunc [1, r] g (g.length + 1)
      = addScaledAt (addScaledAt (List.replicate (g.length + 1) 0#8) 0 1#8 g) 1 r g := rfl
    _ = mulLinear (g ++ [0#8]) r := by rw [hone, mulLinear_snoc_zero]

theorem polyEval_mulLinear (g : List Byte) (r x : Byte) :
    polyEval (mulLinear (g ++ [0#8]) r) x = gfMul (1#8 ^^^ gfMul r x) (polyEval g x) := by
  have hx : repeatedProduct x 1 = x := gfMul_one_left x
  rw [mulLinear_snoc_zero, polyEval_addScaledAt _ _ _ _ _ (by simp; omega), hx, ← gfMul_assoc, gfMul_comm x r, xor_gfMul,
    gfMul_one_left]
  exact congrArg (· ^^^ _) (polyEval_append_zeros g 1 x)

/-! ### The loop -/

/-- `G[0..len-1]` after the first `i` passes of R130. -/
def generatorArray (len i : Nat) : List Byte := (List.range i).foldl (fun g i => mulLinear g (rootOf i)) (fitTo len [1])

theorem rsGen_eq_generatorArray (nsym : Nat) : rsGen nsym = generatorArray (nsym + 1) nsym := rfl

theorem generatorArray_zero (n : Nat) : generatorArray (n + 1) 0 = 1#8 :: List.replicate n 0#8 := by
  simp [generatorArray, fitTo]

theorem generatorArray_succ (len i : Nat) : generatorArray len (i + 1) = mulLinear (generatorArray len i) (rootOf i) := by
  simp only [generatorArray, List.range_succ, List.foldl_append, List.foldl_cons, List.foldl_nil]

@[simp] theorem generatorArray_length (len i : Nat) : (generatorArray len i).length = len := by
  rw [generatorArray, foldl_length _ fun w i => mulLinear_length w _, fitTo_length]

/-- The first `i` passes do not see an entry above index `i`. -/
theorem generatorArray_snoc {len i : Nat} (h : i < len) : generatorArray (len + 1) i = generatorArray len i ++ [0#8] := by
  induction i generalizing len with
  | zero =>
    obtain ⟨m, rfl⟩ : ∃ m, len = m + 1 := ⟨len - 1, by omega⟩
    rw [generatorArray_zero, generatorArray_zero, List.replicate_succ', List.cons_append]
  | succ i ih =>
    obtain ⟨m, rfl⟩ : ∃ m, len = m + 1 := ⟨len - 1, by omega⟩
    rw [generatorArray_succ, generatorArray_succ, ih (by omega), ih (by omega), mulLinear_snoc_zero_zero]

/-- One more factor is one more entry and one pass of the loop. -/
theorem rsGen_succ (i : Nat) : rsGen (i + 1) = mulLinear (rsGen i ++ [0#8]) (rootOf i) := by
  rw [rsGen_eq_generatorArray, generatorArray_succ, generatorArray_snoc (Nat.lt_succ_self i), ← rsGen_eq_generatorArray]

/-! ### Its coefficients -/

theorem rsGen_zero : rsGen 0 = [1#8] := rfl

theorem rsGen_one : rsGen 1 = [1#8, 1#8] := rfl

@[simp] theorem rsGen_length (nsym : Nat) : (rsGen nsym).length = nsym + 1 := generatorArray_length (nsym + 1) nsym

theorem rsGen_getD_zero (nsym : Nat) : (rsGen nsym).getD 0 0#8 = 1#8 := by
  induction nsym with
  | zero => rfl
  | succ i ih =>
    rw [rsGen_succ, mulLinear, addScaledAt_getD, if_neg (by omega), getD_snoc_zero, ih]

/-- R130: the product of the factors. -/
theorem rsGen_succ_eq_polyMulTrunc (i : Nat) : rsGen (i + 1) = polyMulTrunc [1, rootOf i] (rsGen i) (i + 2) := by
  have hmul := polyMulTrunc_linear (rsGen i) (rootOf i)
  rw [rsGen_length] at hmul
  rw [hmul, rsGen_succ]

/-- The top coefficient is the product of the numbers `α^(-i)`, none of which is 0. -/
theorem rsGen_getD_top_ne_zero (nsym : Nat) : (rsGen nsym).getD nsym 0#8 ≠ 0#8 := by
  induction nsym with
  | zero => decide
  | succ i ih =>
    have htop : (rsGen (i + 1)).getD (i + 1) 0#8 = gfMul (rootOf i) ((rsGen i).getD i 0#8) := by
      have habove : (rsGen i).getD (i + 1) 0#8 = 0#8 := List.getD_eq_default _ _ (by rw [rsGen_length])
      rw [rsGen_succ, mulLinear, addScaledAt_getD, if_pos (by simp), getD_snoc_zero, getD_snoc_zero, habove, BitVec.zero_xor,
        Nat.add_sub_cancel]
    rw [htop, Ne, gfMul_eq_zero, not_or]
    exact ⟨expAt_ne_zero _, ih⟩

/-- A nonzero entry at the last index gives the degree (00_scope R11). -/
theorem polyDeg_of_top_ne_zero {p : List Byte} {d : Nat} (hlen : p.length = d + 1) (htop : p.getD d 0#8 ≠ 0#8) :
    polyDeg p = d := by
  induction p generalizing d with
  | nil => cases hlen
  | cons c p ih =>
    cases d with
    | zero =>
      obtain rfl : p = [] := List.eq_nil_of_length_eq_zero (Nat.succ.inj hlen)
      exact if_neg htop
    | succ d =>
      rw [polyDeg, ih (Nat.succ.inj hlen) htop, if_pos (Int.natCast_nonneg d)]
      rfl

/-! ### Its roots -/

theorem polyEval_rsGen_succ (i : Nat) (x : Byte) :
    polyEval (rsGen (i + 1)) x = gfMul (1#8 ^^^ gfMul (rootOf i) x) (polyEval (rsGen i) x) := by
  rw [rsGen_succ, polyEval_mulLinear]

/-- `α^j` is the root of the factor `1 + α^(-i) x` exactly when `j` is `i`. -/
theorem factor_eq_zero_iff {i j : Nat} (hi : i < 255) (hj : j < 255) :
    1#8 ^^^ gfMul (rootOf i) (expAt j) = 0#8 ↔ j = i := by
  rw [rootOf, gfMul_expAt, BitVec.xor_eq_zero_iff, ← expAt_zero, ← expAt_mod (_ + j)]
  constructor
  · intro h
    have hexp : 0 = ((255 - i) % 255 + j) % 255 := expAt_inj (by decide) (Nat.mod_lt _ (by decide)) h
    omega
  · rintro rfl
    exact congrArg expAt (by omega)

/-- R130: the roots of the generator among the powers of `α`. -/
theorem polyEval_rsGen_eq_zero_iff {nsym : Nat} (hnsym : nsym ≤ 255) {j : Nat} (hj : j < 255) :
    polyEval (rsGen nsym) (expAt j) = 0#8 ↔ j < nsym := by
  induction nsym with
  | zero =>
    have hone : polyEval (rsGen 0) (expAt j) = 1#8 := by rw [rsGen_zero, polyEval_cons]; simp
    rw [hone]; simp
  | succ i ih =>
    rw [polyEval_rsGen_succ, gfMul_eq_zero, factor_eq_zero_iff (by omega) hj, ih (by omega)]
    omega

/-- Settles O18: each clause is a lemma above; the listed values are evaluated. -/
theorem generatorHasTheStatedRoots : Obligations.GeneratorHasTheStatedRoots := by
  refine ⟨rsGen_zero, fun i _ => rsGen_succ_eq_polyMulTrunc i, ?shape, by decide +kernel⟩
  case shape =>
    intro nsym _ hmax
    refine ⟨rsGen_length nsym, rsGen_getD_zero nsym,
      polyDeg_of_top_ne_zero (rsGen_length nsym) (rsGen_getD_top_ne_zero nsym), ?zero, fun i hi => polyEval_rsGen_eq_zero_iff (by omega) hi⟩
    case zero =>
      have hconst : polyEval (rsGen nsym) 0#8 = 1#8 := (polyEval_at_zero _).trans (rsGen_getD_zero nsym)
      rw [BitVec.ofNat_eq_ofNat, hconst]; decide

end Sys2Proof.Machine

/-!
PROOFS. The command RS.GEN (R131): the range check every RS command begins with, and what GEN holds afterwards.
-/

namespace Sys2Proof.Claims

open Sys2Proof Sys2Proof.Machine

/-- A command that begins with the nsym check raises for an nsym out of range, whatever comes after it. -/
theorem fails_of_nsym_range {nsym : Nat} (h : nsym = 0 ∨ 254 < nsym) (s : State) (rest : Unit → Except Cause State) :
    Fails (s.commit (checkNsym nsym >>= rest)) s .invalidParameter 1 := by
  rw [checkNsym_spec, if_neg (by omega)]
  rfl

theorem checkNsym_ok {nsym : Nat} (h1 : 1 ≤ nsym) (h2 : nsym ≤ 254) : checkNsym nsym = .ok () := by
  rw [checkNsym_spec, if_pos ⟨h1, h2⟩]

theorem exec_rsGen_of_range {nsym : Nat} (s : State) (h1 : 1 ≤ nsym) (h2 : nsym ≤ 254) :
    exec (.rsGen nsym) s = .next (s.storeGenerator (rsGen nsym)).succeed := by
  change execRsGen nsym s = _
  unfold execRsGen
  rw [checkNsym_ok h1 h2]
  rfl

/-- GEN holds all the coefficients of an admitted generator. -/
theorem zeroFilled_rsGen_read {nsym j : Nat} (hnsym : nsym ≤ 254) (hj : j ≤ nsym) :
    (zeroFilled .gen (rsGen nsym)).read j = (rsGen nsym).getD j 0 := by
  have hsize : j < Buf.gen.size := Nat.lt_of_le_of_lt (Nat.le_trans hj hnsym) (by decide)
  rw [zeroFilled_read, if_pos hsize]

theorem zeroFilled_rsGen_read_above {nsym j : Nat} (hj : nsym < j) : (zeroFilled .gen (rsGen nsym)).read j = 0 := by
  rw [zeroFilled_read, List.getD_eq_default _ _ (by rw [rsGen_length]; exact hj), ite_self]

/-- Settles O17: the check, then the whole-buffer write of the generator. -/
theorem rsGenWritesTheGenerator : Obligations.RsGenWritesTheGenerator := by
  refine ⟨fun _ => wordRuns_build .rsGen ⟨rfl, rfl⟩, fun nsym s h => fails_of_nsym_range h s _, ?generator, rsGen_one,
    by decide +kernel, reservedFieldRaises_of_fa (o := .rsGen) rfl⟩
  case generator =>
    intro nsym s h1 h2
    exact ⟨_, exec_rsGen_of_range s h1 h2, rfl, fun j hj => zeroFilled_rsGen_read h2 hj,
      fun j hj _ => zeroFilled_rsGen_read_above hj⟩

end Sys2Proof.Claims

/-!
PROOFS. The division sweep (R132). With `G[0] = 1` each pass clears the entry it stands on (`sweepStep_getD_le`), and it
adds a multiple of `G`, so at a root of `G` the array keeps its value (`polyEval_sweepUpTo`): message and parity together vanish there (`polyEval_append_rsParity`).
-/

namespace Sys2Proof.Machine

open Sys2Proof.Claims

/-! ### One pass -/

/-- The test for a zero factor only saves work. -/
theorem sweepStep_eq_addScaledAt (g w : List Byte) (i : Nat) : sweepStep g w i = addScaledAt w i (w.getD i 0#8) g := by
  unfold sweepStep
  dsimp only
  split
  · next hzero => rw [show w.getD i 0#8 = 0#8 from hzero, addScaledAt_zero]
  · rfl

/-- Because `G[0] = 1`, a pass clears its own entry and leaves those below it. -/
theorem sweepStep_getD_le {g : List Byte} (hg : g.getD 0 0#8 = 1#8) (w : List Byte) {i j : Nat} (hj : j ≤ i) :
    (sweepStep g w i).getD j 0#8 = if j = i then 0#8 else w.getD j 0#8 := by
  rw [sweepStep_eq_addScaledAt, addScaledAt_getD]
  by_cases hji : j = i
  · subst hji
    rw [if_pos rfl]
    split
    · rw [Nat.sub_self, hg, gfMul_one_right, BitVec.xor_self]
    · next hlen => exact List.getD_eq_default _ _ (by omega)
  · rw [if_neg hji, if_neg (by omega)]

theorem polyEval_sweepStep {g : List Byte} {x : Byte} (hroot : polyEval g x = 0#8) (w : List Byte) {i : Nat}
    (h : i + g.length ≤ w.length) : polyEval (sweepStep g w i) x = polyEval w x := by
  rw [sweepStep_eq_addScaledAt, polyEval_addScaledAt _ _ _ _ _ h, hroot, gfMul_zero_right, gfMul_zero_right,
    BitVec.xor_zero]

/-! ### The sweep -/

/-- The working array `w` after the passes at the positions below `k`. -/
def sweepUpTo (g w : List Byte) (k : Nat) : List Byte := (List.range k).foldl (sweepStep g) w

theorem sweep_eq_sweepUpTo (m g : List Byte) (nsym : Nat) :
    sweep m g nsym = sweepUpTo g (m ++ List.replicate nsym 0) m.length := rfl

theorem sweepUpTo_succ (g w : List Byte) (k : Nat) : sweepUpTo g w (k + 1) = sweepStep g (sweepUpTo g w k) k := by
  simp only [sweepUpTo, List.range_succ, List.foldl_append, List.foldl_cons, List.foldl_nil]

@[simp] theorem sweepUpTo_length (g w : List Byte) (k : Nat) : (sweepUpTo g w k).length = w.length :=
  foldl_length _ (sweepStep_length g) _ w

/-- R132: after the sweep the entries it stood on are zero. -/
theorem sweepUpTo_getD_of_lt {g : List Byte} (hg : g.getD 0 0#8 = 1#8) (w : List Byte) {k j : Nat} (hj : j < k) :
    (sweepUpTo g w k).getD j 0#8 = 0#8 := by
  induction k with
  | zero => cases hj
  | succ k ih =>
    rw [sweepUpTo_succ, sweepStep_getD_le hg _ (Nat.le_of_lt_succ hj)]
    split
    · rfl
    · exact ih (by omega)

theorem polyEval_sweepUpTo {g : List Byte} {x : Byte} (hroot : polyEval g x = 0#8) (w : List Byte) {k : Nat}
    (h : k + g.length ≤ w.length + 1) : polyEval (sweepUpTo g w k) x = polyEval w x := by
  induction k with
  | zero => rfl
  | succ k ih => rw [sweepUpTo_succ, polyEval_sweepStep hroot _ (by rw [sweepUpTo_length]; omega), ih (by omega)]

/-- A zero array has only zero factors. -/
theorem sweepUpTo_zeros (g : List Byte) (n k : Nat) : sweepUpTo g (List.replicate n 0#8) k = List.replicate n 0#8 := by
  induction k with
  | zero => rfl
  | succ k ih => rw [sweepUpTo_succ, ih, sweepStep_eq_addScaledAt, getD_zeros, addScaledAt_zero]

/-- R132: `W` is zero over the message and the parity after it. -/
theorem sweep_eq_zeros_append_rsParity {g : List Byte} (hg : g.getD 0 0#8 = 1#8) (m : List Byte) (nsym : Nat) :
    sweep m g nsym = List.replicate m.length 0#8 ++ rsParity m g nsym := by
  have hzeros : (sweep m g nsym).take m.length = List.replicate m.length 0#8 := by
    refine coeffs_ext (by simp) fun j => ?_
    rw [getD_zeros]
    rcases Nat.lt_or_ge j m.length with hj | hj
    · have hzero : (sweep m g nsym).getD j 0#8 = 0#8 := sweepUpTo_getD_of_lt hg _ hj
      rwa [List.getD, List.getElem?_take_of_lt hj]
    · exact List.getD_eq_default _ _ (by simp [hj])
  rw [← hzeros, rsParity, List.take_append_drop]

/-- R132: message and parity together vanish at every root of `G`. -/
theorem polyEval_append_rsParity {g : List Byte} {x : Byte} {nsym : Nat} (hlen : g.length = nsym + 1)
    (hg : g.getD 0 0#8 = 1#8) (hroot : polyEval g x = 0#8) (m : List Byte) :
    polyEval (m ++ rsParity m g nsym) x = 0#8 := by
  have hsweep : polyEval m x = polyEval (List.replicate m.length 0#8 ++ rsParity m g nsym) x :=
    calc polyEval m x = polyEval (m ++ List.replicate nsym 0#8) x := (polyEval_append_zeros m nsym x).symm
      _ = polyEval (sweep m g nsym) x := (polyEval_sweepUpTo hroot _ (by simp; omega)).symm
      _ = _ := by rw [sweep_eq_zeros_append_rsParity hg]
  rw [polyEval_append, hsweep, polyEval_append, polyEval_zeros, BitVec.zero_xor, List.length_replicate, BitVec.xor_self]

/-- R133: a zero message has a zero parity, since every factor is 0. -/
theorem rsParity_zeros (k : Nat) (g : List Byte) (nsym : Nat) :
    rsParity (List.replicate k 0#8) g nsym = List.replicate nsym 0#8 := by
  rw [rsParity, sweep_eq_sweepUpTo, BitVec.ofNat_eq_ofNat, ← List.replicate_add, sweepUpTo_zeros]
  simp

/-- R133: for nsym = 1 the generator is `1 + x`, whose root is 1, and the value there is the XOR of the coefficients. -/
theorem rsParity_one (m : List Byte) : rsParity m (rsGen 1) 1 = [xorAll m] := by
  obtain ⟨p, hp⟩ : ∃ p, rsParity m (rsGen 1) 1 = [p] := List.length_eq_one_iff.mp (rsParity_length ..)
  have hvanish : polyEval (m ++ [p]) 1#8 = 0#8 := by
    rw [← hp]; exact polyEval_append_rsParity rfl rfl (by decide) m
  rw [polyEval_at_one, xorAll_concat, BitVec.xor_eq_zero_iff] at hvanish
  rw [hp, hvanish]

end Sys2Proof.Machine

/-!
PROOFS. The command RS.ENCODE (R133): its checks, the state it commits, and that state's CW and GEN byte by byte.
-/

namespace Sys2Proof.Machine

theorem Memory.slice_eq_zeros {m : Memory} {n : Nat} (h : ∀ i, i < n → m.read i = 0) :
    m.slice n = List.replicate n 0#8 := by
  rw [Memory.slice_map_read, List.eq_replicate_iff]
  exact ⟨by simp, by simpa using h⟩

/-- The buffers of a well-formed state are canonical (10_state R36). -/
theorem State.buf_wf {s : State} (h : s.wf = true) (b : Buf) : (s.buf b).wf b.size = true := by
  unfold State.wf at h
  simp only [Bool.and_eq_true, List.all_eq_true] at h
  obtain ⟨⟨hbufs, -⟩, -⟩ := h
  exact hbufs b (by cases b <;> decide)

end Sys2Proof.Machine

namespace Sys2Proof.Claims

open Sys2Proof Sys2Proof.Machine

/-- The state RS.ENCODE commits (R133). -/
def encoded (s : State) (nsym k : Nat) : State :=
  { s.storeGenerator (rsGen nsym) with cw := s.cw.writeFrom k (rsParity (s.cw.slice k) (rsGen nsym) nsym) }

theorem exec_rsEncode_of_range {nsym k : Nat} (s : State) (h1 : 1 ≤ nsym) (h2 : nsym ≤ 254) (hk : nsym + k ≤ 255) :
    exec (.rsEncode nsym k) s = .next (encoded s nsym k).succeed := by
  change execRsEncode nsym k s = _
  unfold execRsEncode
  rw [checkNsym_ok h1 h2, checkCodewordLength_spec, if_pos hk]
  rfl

theorem exec_rsEncode_too_long {nsym k : Nat} (s : State) (h1 : 1 ≤ nsym) (h2 : nsym ≤ 254) (hk : 255 < nsym + k) :
    Fails (exec (.rsEncode nsym k) s) s .invalidParameter 2 := by
  change Fails (execRsEncode nsym k s) s _ _
  unfold execRsEncode
  rw [checkNsym_ok h1 h2, checkCodewordLength_spec, if_neg (by omega)]
  rfl

section
variable {s : State} {nsym k : Nat} (hs : s.wf = true) (hk : nsym + k ≤ 255)
include hs hk

/-- R133: CW byte by byte, the parity at `k..k+nsym-1` and every other byte as before. -/
theorem encoded_cw_read (j : Nat) :
    (encoded s nsym k).cw.read j =
      if k ≤ j ∧ j < k + nsym then (rsParity (s.cw.slice k) (rsGen nsym) nsym).getD (j - k) 0 else s.cw.read j := by
  have hread := Memory.read_writeFrom (rsParity (s.cw.slice k) (rsGen nsym) nsym) (s.buf_wf hs .cw) k
    (by rw [rsParity_length]; show k + nsym ≤ 255; omega) j
  rw [rsParity_length] at hread
  exact hread

theorem encoded_cw_parity {j : Nat} (hj : j < nsym) :
    (encoded s nsym k).cw.read (k + j) = (rsParity (s.cw.slice k) (rsGen nsym) nsym).getD j 0 := by
  rw [encoded_cw_read hs hk, if_pos (by omega), Nat.add_sub_cancel_left]

theorem encoded_cw_frame {j : Nat} (hj : j < k ∨ k + nsym ≤ j) : (encoded s nsym k).cw.read j = s.cw.read j := by
  rw [encoded_cw_read hs hk, if_neg (by omega)]

end

/-- Settles O19: the checks in order, then the frame and the parity; its corner cases are those of the sweep. -/
theorem rsEncodeAppendsTheParity : Obligations.RsEncodeAppendsTheParity := by
  refine ⟨fun _ _ => wordRuns_build .rsEncode rfl, fun k nsym s h => fails_of_nsym_range h s _,
    fun _ _ s => exec_rsEncode_too_long s, ?parity, by decide +kernel, reservedFieldRaises_of_fab (o := .rsEncode) rfl⟩
  case parity =>
    intro nsym k s hs h1 hk h2
    refine ⟨_, exec_rsEncode_of_range s h1 h2 hk, rfl, fun j hj => encoded_cw_parity hs hk hj,
      fun j hj => encoded_cw_frame hs hk hj, fun j hj => zeroFilled_rsGen_read h2 hj,
      fun j hj _ => zeroFilled_rsGen_read_above hj, ?zeroMessage, ?one⟩
    case zeroMessage =>
      intro hzero j hj
      refine (encoded_cw_parity hs hk hj).trans ?_
      rw [Memory.slice_eq_zeros hzero, rsParity_zeros]
      exact getD_zeros nsym j
    case one =>
      rintro rfl
      refine (encoded_cw_parity hs hk (j := 0) Nat.one_pos).trans ?_
      rw [rsParity_one]
      rfl

end Sys2Proof.Claims

/-!
PROOFS. The syndromes (R140). The inner loop is Horner's rule one term at a time: what it adds from word position `j` on is
`α^(i*j)` times the value of the remaining bytes at `α^i` (`syndromeFrom_eq_polyEval`), so a syndrome is the word's value there.
-/

namespace Sys2Proof.Machine

open Sys2Proof.Claims

/-- What the inner loop of R140 adds to its sum. -/
theorem syndromeFrom_eq_polyEval (i j : Nat) (acc : Byte) (c : List Byte) :
    syndromeFrom i j acc c = acc ^^^ gfMul (expAt (i * j)) (polyEval c (expAt i)) := by
  induction c generalizing j acc with
  | nil => simp [syndromeFrom]
  | cons c cs ih =>
    have hstep : gfMul (expAt (i * (j + 1))) (polyEval cs (expAt i)) =
        gfMul (expAt (i * j)) (gfMul (polyEval cs (expAt i)) (expAt i)) := by
      rw [Nat.mul_succ, ← gfMul_expAt, gfMul_assoc, gfMul_comm (expAt i)]
    rw [syndromeFrom_cons, ih, hstep, polyEval_cons, gfMul_xor, expAt_mod, gfMul_comm c]
    ac_rfl

/-- R140: syndrome `i` is the value of the word at `α^i`. -/
theorem rsSynd_getD {i nsym : Nat} (c : List Byte) (hi : i < nsym) : (rsSynd c nsym).getD i 0#8 = polyEval c (expAt i) := by
  have hloop : (rsSynd c nsym).getD i 0#8 = syndromeFrom i 0 0#8 c := by simp [rsSynd, hi]
  rw [hloop, syndromeFrom_eq_polyEval, Nat.mul_zero, expAt_zero, gfMul_one_left, BitVec.zero_xor]

/-- The value at `α^i`, term by term: `(α^i)^j` is `EXP[(i*j) mod 255]`. -/
theorem polyEval_expAt (c : List Byte) (i : Nat) :
    polyEval c (expAt i) = xorAll ((List.range c.length).map fun j => gfMul (c.getD j 0) (expAt ((i * j) % 255))) := by
  have hpower : ∀ j, repeatedProduct (expAt i) j = expAt ((i * j) % 255) := by
    intro j
    rw [← gfPow_eq_repeatedProduct, gfPow_expAt, expAt_mod]
  simp only [polyEval_eq_powerSum, powerSum, hpower]

/-- Settles O22: the value at `α^i`, its power sum, and the value at `α^0 = 1`. -/
theorem syndromesAreValuesAtTheRoots : Obligations.SyndromesAreValuesAtTheRoots := by
  intro c nsym i hi
  have hvalue : (rsSynd c nsym).getD i 0 = polyEval c (expAt i) := rsSynd_getD c hi
  have hfirst : (rsSynd c nsym).getD 0 0 = polyEval c 1#8 := rsSynd_getD c (Nat.zero_lt_of_lt hi)
  exact ⟨rsSynd_length c nsym, hvalue.trans (polyEval_expAt c i), hvalue, hfirst.trans (polyEval_at_one c)⟩

/-- The condition of SZ on the syndromes of a word (R141). -/
theorem allZero_rsSynd_iff (c : List Byte) (nsym : Nat) :
    allZero (rsSynd c nsym) = true ↔ ∀ i, i < nsym → (rsSynd c nsym).getD i 0 = 0 := by
  rw [allZero_iff, rsSynd_length]

/-- R141: a word of zeros has zero syndromes. -/
theorem allZero_rsSynd_zeros (n nsym : Nat) : allZero (rsSynd (List.replicate n 0#8) nsym) = true :=
  (allZero_rsSynd_iff _ nsym).mpr fun i hi => (rsSynd_getD _ hi).trans (polyEval_zeros n (expAt i))

end Sys2Proof.Machine

/-!
PROOFS. The command RS.SYND (R141): the two parts of a zero-filled buffer (10_state R38), then the checks and the next state.
-/

namespace Sys2Proof.Machine

section
variable {b : Buf} {l : List Byte} {i : Nat}

/-- Inside the buffer the entries are read back. -/
theorem zeroFilled_read_of_lt_size (h : i < b.size) : (zeroFilled b l).read i = l.getD i 0 := by
  rw [zeroFilled_read, if_pos h]

/-- Above the entries the buffer is zero. -/
theorem zeroFilled_read_of_length_le (h : l.length ≤ i) : (zeroFilled b l).read i = 0 := by
  rw [zeroFilled_read, List.getD_eq_default _ _ h, ite_self]

end

end Sys2Proof.Machine

namespace Sys2Proof.Claims

open Sys2Proof Sys2Proof.Machine

theorem exec_rsSynd_of_range {nsym n : Nat} (s : State) (h1 : 1 ≤ nsym) (h2 : nsym ≤ 254) (hn : nsym ≤ n) :
    exec (.rsSynd nsym n) s = .next (s.storeSyndromes (rsSynd (s.cw.slice n) nsym)).succeed := by
  change execRsSynd nsym n s = _
  unfold execRsSynd
  rw [checkNsym_ok h1 h2, checkWordLength_spec, if_pos hn]
  rfl

theorem exec_rsSynd_too_short {nsym n : Nat} (s : State) (h1 : 1 ≤ nsym) (h2 : nsym ≤ 254) (hn : n < nsym) :
    Fails (exec (.rsSynd nsym n) s) s .invalidParameter 2 := by
  change Fails (execRsSynd nsym n s) s _ _
  unfold execRsSynd
  rw [checkNsym_ok h1 h2, checkWordLength_spec, if_neg (Nat.not_le.mpr hn)]
  rfl

/-- Settles O21: the checks in order, then the whole-buffer write of the syndromes and SZ. -/
theorem rsSyndWritesSyndromesAndSz : Obligations.RsSyndWritesSyndromesAndSz := by
  refine ⟨fun _ _ => wordRuns_build .rsSynd rfl, fun n nsym s h => fails_of_nsym_range h s _,
    fun _ _ s => exec_rsSynd_too_short s, ?syndromes, by decide +kernel, reservedFieldRaises_of_fab (o := .rsSynd) rfl⟩
  case syndromes =>
    intro nsym n s h1 h2 hn
    have hlen : (rsSynd (s.cw.slice n) nsym).length = nsym := rsSynd_length _ nsym
    refine ⟨_, exec_rsSynd_of_range s h1 h2 hn, rfl,
      fun i hi => zeroFilled_read_of_lt_size (b := .syn) (Nat.lt_of_lt_of_le hi h2),
      fun i hi _ => zeroFilled_read_of_length_le (hlen.trans_le hi), allZero_rsSynd_iff _ nsym, ?zeroWord⟩
    case zeroWord =>
      intro hzero
      change allZero (rsSynd (s.cw.slice n) nsym) = true
      rw [Memory.slice_eq_zeros hzero]
      exact allZero_rsSynd_zeros n nsym

end Sys2Proof.Claims

/-!
PROOFS. The truncated product (R151). What the loop adds from index `i` of `a` on is the product shifted by `i`
(`mulTruncFrom_getD`), because a coefficient of `(c + x A) B` is `c` times one of `B` and one of `A B`
(`productCoeff_cons_succ`).
-/

namespace Sys2Proof.Machine

open Sys2Proof.Claims

/-! ### Coefficients of a product -/

theorem xorAll_zeros (n : Nat) : xorAll (List.replicate n 0#8) = 0#8 := by
  rw [← polyEval_at_one, polyEval_zeros]

theorem productCoeff_nil (b : List Byte) (m : Nat) : productCoeff [] b m = 0#8 := by
  simp [productCoeff, xorAll_zeros]

theorem productCoeff_cons_zero (c : Byte) (a b : List Byte) : productCoeff (c :: a) b 0 = gfMul c (b.getD 0 0#8) := by
  simp [productCoeff]

theorem productCoeff_cons_succ (c : Byte) (a b : List Byte) (m : Nat) :
    productCoeff (c :: a) b (m + 1) = gfMul c (b.getD (m + 1) 0#8) ^^^ productCoeff a b m := by
  simp [productCoeff, List.range_succ_eq_map (n := m + 1), Function.comp_def]

/-! ### The loop -/

/-- R151 from index `i` of `a` on, entry by entry. -/
theorem mulTruncFrom_getD (b a : List Byte) (i : Nat) (r : List Byte) {m : Nat} (hm : m < r.length) :
    (mulTruncFrom b i a r).getD m 0#8 = r.getD m 0#8 ^^^ if i ≤ m then productCoeff a b (m - i) else 0#8 := by
  induction a generalizing i r with
  | nil => rw [productCoeff_nil, ite_self, BitVec.xor_zero]; rfl
  | cons c cs ih =>
    rw [mulTruncFrom, ih (i + 1) _ (by rwa [addScaledAt_length]), addScaledAt_getD]
    rcases Nat.lt_trichotomy i m with hi | rfl | hi
    · obtain ⟨d, rfl⟩ : ∃ d, m = i + 1 + d := ⟨m - (i + 1), by omega⟩
      have hd : i + 1 + d - i = d + 1 := by omega
      rw [if_pos (by omega), if_pos (by omega), if_pos (by omega), hd, Nat.add_sub_cancel_left, productCoeff_cons_succ,
        BitVec.xor_assoc]
    · rw [if_pos ⟨Nat.le_refl i, hm⟩, if_neg (by omega), if_pos (Nat.le_refl i), Nat.sub_self, productCoeff_cons_zero,
        BitVec.xor_zero]
    · rw [if_neg (by omega), if_neg (by omega), if_neg (by omega)]

/-- R151: coefficient `m` of the product. -/
theorem polyMulTrunc_getD (a b : List Byte) {len m : Nat} (hm : m < len) :
    (polyMulTrunc a b len).getD m 0#8 = productCoeff a b m := by
  rw [polyMulTrunc, BitVec.ofNat_eq_ofNat, mulTruncFrom_getD b a 0 _ (by rwa [List.length_replicate]), getD_zeros,
    if_pos (Nat.zero_le m), Nat.sub_zero, BitVec.zero_xor]

/-- Settles O25: the length is kept by the loop, which starts from zeros. -/
theorem truncatedProductIsTheConvolution : Obligations.TruncatedProductIsTheConvolution :=
  fun a b len => ⟨polyMulTrunc_length a b len, fun _ hm => polyMulTrunc_getD a b hm⟩

end Sys2Proof.Machine

/-!
PROOFS. The root search (R154): which positions it lists, its raises in their order, and what it answers for the zero and the
constant locator. Both corners are locators with zero coefficients above, which neither the degree nor the search sees.
-/

namespace Sys2Proof.Machine

open Sys2Proof.Claims

/-! ### Coefficient arrays with zeros above -/

theorem fitTo_eq_append_zeros {n : Nat} {p : List Byte} (h : p.length ≤ n) :
    fitTo n p = p ++ List.replicate (n - p.length) 0#8 := by
  simp [fitTo, List.take_append, List.take_of_length_le h]

theorem fitTo_getD_of_length_le {n : Nat} {p : List Byte} (h : p.length ≤ n) (i : Nat) :
    (fitTo n p).getD i 0 = p.getD i 0 := by
  rw [fitTo_getD]
  split
  · rfl
  · exact (List.getD_eq_default _ _ (by omega)).symm

/-- An array that has room for `p` does not change what another length shows of it. -/
theorem fitTo_fitTo (m : Nat) {n : Nat} {p : List Byte} (h : p.length ≤ n) : fitTo m (fitTo n p) = fitTo m p := by
  refine coeffs_ext (by simp) fun j => ?_
  change (fitTo m (fitTo n p)).getD j 0 = (fitTo m p).getD j 0
  rw [fitTo_getD m, fitTo_getD m, fitTo_getD_of_length_le h]

theorem Memory.slice_eq_fitTo {m : Memory} {n : Nat} {p : List Byte} (h : ∀ i, i < n → m.read i = p.getD i 0) :
    m.slice n = fitTo n p := by
  refine coeffs_ext (by simp) fun j => ?_
  refine (Memory.slice_getD m n j).trans ((?_ : _ = _).trans (fitTo_getD n p j).symm)
  split
  · next hj => exact h j hj
  · rfl

theorem polyDeg_zeros (n : Nat) : polyDeg (List.replicate n 0#8) = -1 := by
  induction n with
  | zero => rfl
  | succ n ih => rw [List.replicate_succ, polyDeg, ih]; rfl

theorem polyDeg_append_zeros (p : List Byte) (n : Nat) : polyDeg (p ++ List.replicate n 0#8) = polyDeg p := by
  induction p with
  | nil => exact polyDeg_zeros n
  | cons c p ih => rw [List.cons_append, polyDeg, ih, polyDeg]

/-! ### The positions found -/

theorem chienCandidate_eq_some {lam : List Byte} {p j : Nat} :
    chienCandidate lam p = some j ↔ logAt p = some j ∧ polyEval lam (rootOf j) = 0 := by
  unfold chienCandidate
  cases logAt p with
  | none => simp
  | some k =>
    change (if polyEval lam (rootOf k) = 0 then some k else none) = some j ↔ _
    rw [Option.ite_none_right_eq_some, Option.some.injEq, and_comm]
    exact and_congr_right fun hk => by rw [hk]

/-- R154: the candidates are all the nonzero bytes, so every position below 255 is tried. -/
theorem mem_chienFound {lam : List Byte} {j : Nat} : j ∈ chienFound lam ↔ j < 255 ∧ polyEval lam (rootOf j) = 0 := by
  unfold chienFound
  simp only [List.mem_filterMap, List.mem_range'_1, chienCandidate_eq_some]
  constructor
  · rintro ⟨p, ⟨-, hp⟩, hlog, hroot⟩
    have hbyte : gfLog (BitVec.ofNat 8 p) = some j := by rwa [gfLog, BitVec.toNat_ofNat, Nat.mod_eq_of_lt hp]
    exact ⟨(gfLog_eq_some hbyte).1, hroot⟩
  · rintro ⟨hj, hroot⟩
    have hpos : (expAt j).toNat ≠ 0 := fun h => expAt_ne_zero j (BitVec.eq_of_toNat_eq h)
    exact ⟨(expAt j).toNat, ⟨Nat.pos_of_ne_zero hpos, (expAt j).isLt⟩, gfLog_expAt hj, hroot⟩

/-! ### The answer of the search -/

section
variable {lam : List Byte} {nsym n : Nat}

theorem rsChien_rootOutside (h : ∃ j ∈ chienFound lam, n ≤ j) : rsChien lam nsym n = .error .rootOutside := by
  unfold rsChien
  exact if_pos (by simpa using h)

/-- The tests that follow when every position lies in the word. -/
theorem rsChien_of_inside (h : ∀ j ∈ chienFound lam, j < n) :
    rsChien lam nsym n =
      if ((chienFound lam).length : Int) ≠ polyDeg lam then .error .rootCount
      else if nsym / 2 < (chienFound lam).length then .error .tooMany
      else .ok (chienFound lam) := by
  unfold rsChien
  exact if_neg (by simpa using h)

end

/-- The zero locator has every position as a root. -/
theorem mem_chienFound_zeros {m j : Nat} : j ∈ chienFound (List.replicate m 0#8) ↔ j < 255 := by
  rw [mem_chienFound, polyEval_zeros]
  exact and_iff_left rfl

/-- R155: the zero locator of a word of less than 255 bytes has a root beyond it. -/
theorem rsChien_zeros_of_lt (m nsym : Nat) {n : Nat} (h : n < 255) :
    rsChien (List.replicate m 0#8) nsym n = .error .rootOutside :=
  rsChien_rootOutside ⟨254, mem_chienFound_zeros.mpr (by decide), Nat.le_of_lt_succ h⟩

/-- R155: in a word of 255 bytes its roots are too many for its degree, -1. -/
theorem rsChien_zeros_full (m nsym : Nat) : rsChien (List.replicate m 0#8) nsym 255 = .error .rootCount := by
  rw [rsChien_of_inside fun j hj => mem_chienFound_zeros.mp hj, polyDeg_zeros, if_pos (by omega)]

theorem chienFound_constant : chienFound [1#8] = [] := by
  refine List.eq_nil_iff_forall_not_mem.mpr fun j hj => ?_
  have hroot : polyEval [1#8] (rootOf j) = 0#8 := (mem_chienFound.mp hj).2
  have hone : polyEval [1#8] (rootOf j) = 1#8 := by rw [polyEval_cons]; simp
  rw [hone] at hroot
  exact absurd hroot (by decide)

/-- R155: the constant locator has no roots, as its degree says. -/
theorem rsChien_constant {m : Nat} (hm : 1 ≤ m) (nsym n : Nat) : rsChien (fitTo m [1]) nsym n = .ok [] := by
  have hfit : fitTo m [1] = [1#8] ++ List.replicate (m - 1) 0#8 := fitTo_eq_append_zeros hm
  have hfound : chienFound (fitTo m [1]) = [] := by rw [hfit, chienFound_append_zeros, chienFound_constant]
  have hdeg : polyDeg (fitTo m [1]) = 0 := by rw [hfit, polyDeg_append_zeros]; rfl
  exact rsChien_of_found hfound (by simp) hdeg.symm (Nat.zero_le _)

end Sys2Proof.Machine

/-!
PROOFS. The command RS.CHIEN (R155): the operand checks of every command on a received word, then the answer of the search
or its raise, and POS and NPOS as the search's list reads back from them.
-/

namespace Sys2Proof.Claims

open Sys2Proof Sys2Proof.Machine

theorem checkWordLength_ok {nsym n : Nat} (h : nsym ≤ n) : checkWordLength nsym n = .ok () := by
  rw [checkWordLength_spec, if_pos h]

/-- A command on a received word raises for a word shorter than nsym, whatever comes after its checks. -/
theorem fails_of_short_word {nsym n : Nat} (h1 : 1 ≤ nsym) (h2 : nsym ≤ 254) (hn : n < nsym) (s : State)
    (rest : Unit → Except Cause State) :
    Fails (s.commit (checkNsym nsym >>= fun _ => checkWordLength nsym n >>= rest)) s .invalidParameter 2 := by
  rw [checkNsym_ok h1 h2, checkWordLength_spec, if_neg (Nat.not_le.mpr hn)]
  rfl

/-! ### What POS and NPOS hold -/

/-- The search's list fits POS and its length fits NPOS, because of the capacity test; POS holds it byte by byte. -/
theorem storePositions_holds {lam : List Byte} {nsym n : Nat} {found : List Nat} (hnsym : nsym ≤ 254)
    (h : rsChien lam nsym n = .ok found) (s : State) :
    (s.storePositions found).npos.toNat = found.length ∧
    (∀ i, i < found.length → ((s.storePositions found).pos.read i).toNat = found.getD i 0) ∧
    (∀ i, found.length ≤ i → i < 127 → (s.storePositions found).pos.read i = 0) := by
  obtain ⟨hfound, -, -, hcapacity⟩ := rsChien_ok h
  have hlen : found.length ≤ 127 := by omega
  have hbyte : ∀ j ∈ found, j < 255 := fun j hj => (mem_chienFound.mp (hfound ▸ hj)).1
  refine ⟨(BitVec.toNat_ofNat ..).trans (Nat.mod_eq_of_lt (by omega)), ?listed, ?above⟩
  case listed =>
    intro i hi
    have hpos : found[i] < 255 := hbyte _ (List.getElem_mem hi)
    rw [State.storePositions_pos, zeroFilled_read_of_lt_size (b := .pos) (Nat.lt_of_lt_of_le hi hlen)]
    simp [List.getD, hi, Nat.mod_eq_of_lt (Nat.lt_succ_of_lt hpos)]
  case above =>
    intro i hi _
    exact zeroFilled_read_of_length_le (by rwa [List.length_map])

/-! ### The command -/

/-- The search raises through RS.CHIEN. -/
theorem exec_rsChien_of_error {nsym n : Nat} {s : State} {c : Cause} (h1 : 1 ≤ nsym) (h2 : nsym ≤ 254) (hn : nsym ≤ n)
    (h : rsChien (s.loc.slice 128) nsym n = .error c) : exec (.rsChien nsym n) s = .next (s.raise c) := by
  change execRsChien nsym n s = _
  unfold execRsChien
  rw [checkNsym_ok h1 h2, checkWordLength_ok hn, h]
  rfl

/-- Settles O29: the operand checks in order; then each outcome of the search is an outcome of the command. -/
theorem rsChienWritesThePositions : Obligations.RsChienWritesThePositions := by
  refine ⟨fun _ _ => wordRuns_build .rsChien rfl, fun n nsym s h => fails_of_nsym_range h s _,
    fun nsym n s h1 h2 hn => fails_of_short_word h1 h2 hn s _, ?search, reservedFieldRaises_of_fab (o := .rsChien) rfl⟩
  case search =>
    intro nsym n s h1 h2 hn lam found
    have hraise {c : Cause} (h : rsChien lam nsym n = .error c) : exec (.rsChien nsym n) s = .next (s.raise c) :=
      exec_rsChien_of_error h1 h2 hn h
    have hanswer {l : List Nat} (h : rsChien lam nsym n = .ok l) :
        exec (.rsChien nsym n) s = .next (s.storePositions l).succeed := execRsChien_of_found h1 h2 hn h
    refine ⟨?outside, ?count, ?tooMany, ?found, ?zero, ?zeroFull, ?constant⟩
    case outside =>
      intro hout
      exact hraise (rsChien_rootOutside hout)
    case count =>
      intro hin hdeg
      exact hraise ((rsChien_of_inside hin).trans (if_pos hdeg))
    case tooMany =>
      intro hin hdeg hmany
      exact hraise ((rsChien_of_inside hin).trans ((if_neg (not_not.mpr hdeg)).trans (if_pos hmany)))
    case found =>
      intro hin hdeg hcapacity
      have hfound : rsChien lam nsym n = .ok found := rsChien_of_found rfl hin hdeg hcapacity
      exact ⟨_, hanswer hfound, rfl, storePositions_holds h2 hfound s⟩
    case zero =>
      intro hzero hlt
      have hslice : lam = List.replicate 128 0#8 := Memory.slice_eq_zeros hzero
      exact hraise (hslice ▸ rsChien_zeros_of_lt 128 nsym hlt)
    case zeroFull =>
      rintro hzero rfl
      have hslice : lam = List.replicate 128 0#8 := Memory.slice_eq_zeros hzero
      exact hraise (hslice ▸ rsChien_zeros_full 128 nsym)
    case constant =>
      intro hone hzero
      have hslice : lam = fitTo 128 [1] := Memory.slice_eq_fitTo fun i hi => by
        cases i with
        | zero => exact hone
        | succ i => exact hzero (i + 1) (by omega) hi
      exact ⟨_, hanswer (hslice ▸ rsChien_constant (by decide) nsym n), rfl, rfl⟩

end Sys2Proof.Claims

/-!
PROOFS. The command RS.LOCATE (R157): the solver's answer to zero syndromes, what a successful RS.KEYEQ or RS.CHIEN did, and
both stages with one commit. The locator reaches the search through LOC's 128 bytes in the one case and directly in the other;
it is the same array (`slice_storeLocator`).
-/

namespace Sys2Proof.Machine

open Sys2Proof.Claims

/-- R152: when the loop makes no pass, the locator is the constant 1. -/
theorem rsKeyeq_of_no_pass {syndromes : List Byte} {nsym : Nat} (hpos : 1 ≤ nsym)
    (h : 2 * polyDeg (fitTo (nsym + 1) syndromes) < (nsym : Int)) :
    rsKeyeq syndromes nsym = .ok (fitTo (nsym + 1) [1]) := by
  obtain ⟨fuel, rfl⟩ : ∃ fuel, nsym = fuel + 1 := ⟨nsym - 1, by omega⟩
  have hloop : (euclidLoop (fuel + 1) (fuel + 1) (euclidStart syndromes (fuel + 1))).uc = fitTo (fuel + 2) [1] :=
    congrArg Euclid.uc (if_pos h)
  have hscale : (fitTo (fuel + 2) [1]).map (fun c => gfMul 1#8 c) = fitTo (fuel + 2) [1] := by simp
  have hinv : gfInv ((fitTo (fuel + 2) [1]).getD 0 0) = some 1#8 := gfInv_one
  unfold rsKeyeq
  simp only [hloop, hinv]
  exact congrArg Except.ok hscale

/-- R157: zero syndromes give the constant locator. -/
theorem rsKeyeq_zeros {nsym : Nat} (hpos : 1 ≤ nsym) :
    rsKeyeq (List.replicate nsym 0#8) nsym = .ok (fitTo (nsym + 1) [1]) := by
  have hdeg : polyDeg (fitTo (nsym + 1) (List.replicate nsym 0#8)) = -1 := by
    rw [fitTo_eq_append_zeros (by simp), polyDeg_append_zeros, polyDeg_zeros]
  exact rsKeyeq_of_no_pass hpos (by omega)

/-- LOC shows the search the locator that was stored in it (R155, R157). -/
theorem slice_storeLocator (s : State) (lam : List Byte) : (s.storeLocator lam).loc.slice 128 = fitTo 128 lam :=
  Memory.slice_eq_fitTo fun _ hi => zeroFilled_read_of_lt_size (b := .loc) hi

end Sys2Proof.Machine

namespace Sys2Proof.Claims

open Sys2Proof Sys2Proof.Machine

/-! ### What a successful stage did -/

theorem range_of_checkNsym_ok {nsym : Nat} {u : Unit} (h : checkNsym nsym = .ok u) : 1 ≤ nsym ∧ nsym ≤ 254 := by
  rw [checkNsym_spec] at h
  split at h
  · assumption
  · cases h

theorem le_of_checkWordLength_ok {nsym n : Nat} {u : Unit} (h : checkWordLength nsym n = .ok u) : nsym ≤ n := by
  rw [checkWordLength_spec] at h
  split at h
  · assumption
  · cases h

theorem exec_rsKeyeq_success {nsym : Nat} {s t : State} (h : exec (.rsKeyeq nsym) s = .next t) (ht : t.status = .ok) :
    ∃ lam, rsKeyeq (s.syn.slice nsym) nsym = .ok lam ∧ t = (s.storeLocator lam).succeed := by
  obtain ⟨u, hbody, rfl⟩ := State.commit_success h ht
  obtain ⟨-, -, hrest⟩ := except_bind_ok hbody
  obtain ⟨lam, hlam, hu⟩ := except_bind_ok hrest
  cases hu
  exact ⟨lam, hlam, rfl⟩

theorem exec_rsChien_success {nsym n : Nat} {s t : State} (h : exec (.rsChien nsym n) s = .next t) (ht : t.status = .ok) :
    (1 ≤ nsym ∧ nsym ≤ 254) ∧ nsym ≤ n ∧
    ∃ found, rsChien (s.loc.slice 128) nsym n = .ok found ∧ t = (s.storePositions found).succeed := by
  obtain ⟨u, hbody, rfl⟩ := State.commit_success h ht
  obtain ⟨_, hnsym, hrest⟩ := except_bind_ok hbody
  obtain ⟨_, hn, hsearch⟩ := except_bind_ok hrest
  obtain ⟨found, hfound, hu⟩ := except_bind_ok hsearch
  cases hu
  exact ⟨range_of_checkNsym_ok hnsym, le_of_checkWordLength_ok hn, found, hfound, rfl⟩

/-! ### The command -/

section
variable {nsym n : Nat} {s : State} {c : Cause} (h1 : 1 ≤ nsym) (h2 : nsym ≤ 254) (hn : nsym ≤ n)
include h1 h2 hn

/-- The solver raises through RS.LOCATE. -/
theorem exec_rsLocate_of_keyeq_error (hk : rsKeyeq (s.syn.slice nsym) nsym = .error c) :
    exec (.rsLocate nsym n) s = .next (s.raise c) := by
  change execRsLocate nsym n s = _
  unfold execRsLocate
  rw [checkNsym_ok h1 h2, checkWordLength_ok hn, hk]
  rfl

/-- The search raises through RS.LOCATE, and the locator found before it is dropped. -/
theorem exec_rsLocate_of_chien_error {lam : List Byte} (hk : rsKeyeq (s.syn.slice nsym) nsym = .ok lam)
    (hc : rsChien (fitTo 128 lam) nsym n = .error c) : exec (.rsLocate nsym n) s = .next (s.raise c) := by
  change execRsLocate nsym n s = _
  unfold execRsLocate
  rw [checkNsym_ok h1 h2, checkWordLength_ok hn, hk, except_ok_bind, except_ok_bind, except_ok_bind, hc]
  rfl

end

/-- R157: RS.KEYEQ and then RS.CHIEN, both successful, leave the state RS.LOCATE leaves. -/
theorem exec_rsLocate_of_stages {nsym n : Nat} {s t u : State} (hkeyeq : exec (.rsKeyeq nsym) s = .next t)
    (ht : t.status = .ok) (hchien : exec (.rsChien nsym n) t = .next u) (hu : u.status = .ok) :
    exec (.rsLocate nsym n) s = .next u := by
  obtain ⟨lam, hlam, rfl⟩ := exec_rsKeyeq_success hkeyeq ht
  obtain ⟨⟨h1, h2⟩, hn, found, hfound, rfl⟩ := exec_rsChien_success hchien hu
  have hsearch : rsChien (fitTo 128 lam) nsym n = .ok found := slice_storeLocator s lam ▸ hfound
  exact execRsLocate_of_located h1 h2 hn hlam hsearch

/-- Settles O30: the operand checks in order; then the outcome of the solver, and after it that of the search, is the
outcome of the command. -/
theorem rsLocateSolvesThenSearches : Obligations.RsLocateSolvesThenSearches := by
  refine ⟨fun _ _ => wordRuns_build .rsLocate rfl, fun n nsym s h => fails_of_nsym_range h s _,
    fun nsym n s h1 h2 hn => fails_of_short_word h1 h2 hn s _, ?solverRaises, ?searchRaises, ?located, ?zero,
    fun _ _ _ _ _ => exec_rsLocate_of_stages, reservedFieldRaises_of_fab (o := .rsLocate) rfl⟩
  case solverRaises =>
    intro nsym n c s h1 h2 hn hk
    obtain rfl := rsKeyeq_error hk
    exact exec_rsLocate_of_keyeq_error h1 h2 hn hk
  case searchRaises =>
    intro nsym n lam c s h1 h2 hn hk hc
    have hcause := rsChien_error hc
    have hexec := exec_rsLocate_of_chien_error h1 h2 hn hk hc
    refine ⟨?_, hcause⟩
    rcases hcause with rfl | rfl | rfl <;> exact hexec
  case located =>
    intro nsym n lam found s h1 h2 hn hk hc
    exact ⟨_, execRsLocate_of_located h1 h2 hn hk hc, rfl,
      fun i hi => zeroFilled_read_of_lt_size (b := .loc) hi, storePositions_holds h2 hc (s.storeLocator lam)⟩
  case zero =>
    intro nsym n s h1 h2 hn hzero
    have hroom : ([1] : List Byte).length ≤ nsym + 1 := Nat.le_add_left 1 nsym
    have hk : rsKeyeq (s.syn.slice nsym) nsym = .ok (fitTo (nsym + 1) [1]) :=
      Memory.slice_eq_zeros hzero ▸ rsKeyeq_zeros h1
    have hc : rsChien (fitTo 128 (fitTo (nsym + 1) [1])) nsym n = .ok [] :=
      fitTo_fitTo 128 hroom ▸ rsChien_constant (by decide) nsym n
    have hloc {i : Nat} (hi : i < 128) : (zeroFilled .loc (fitTo (nsym + 1) [1])).read i = ([1] : List Byte).getD i 0 :=
      (zeroFilled_read_of_lt_size hi).trans (fitTo_getD_of_length_le hroom i)
    exact ⟨_, execRsLocate_of_located h1 h2 hn hk hc, rfl, rfl, hloc (by decide),
      fun i hpos hi => (hloc hi).trans (List.getD_eq_default _ _ hpos)⟩

end Sys2Proof.Claims

/-!
PROOFS. The Forney loop (R172) and the correction loop (R173). A magnitude is the quotient of R172 and raises exactly at a
zero denominator, so one such position makes the whole loop raise. Each pass of the correction loop XORs one magnitude into
one byte, so a byte collects the magnitudes of all the entries that name it (`applyMagnitudes_read`), and a second run of the
loop takes them out again (`applyMagnitudes_twice`).
-/

namespace Sys2Proof.Machine

open Sys2Proof.Claims

/-! ### The magnitudes -/

section
variable {om lam : List Byte}

theorem forneyMagnitude_eq_ok {j : Nat} {m : Byte} : forneyMagnitude om lam j = .ok m ↔
    gfDiv (gfMul (expAt j) (polyEval om (rootOf j))) (polyEvald lam (rootOf j)) = some m := by
  unfold forneyMagnitude rootOf
  dsimp only
  split
  · next q hq => rw [hq, Except.ok.injEq, Option.some.injEq]
  · next hq => simp [hq]

/-- The quotient exists exactly at a nonzero denominator. -/
theorem exists_forneyMagnitude_iff {j : Nat} :
    (∃ m, forneyMagnitude om lam j = .ok m) ↔ polyEvald lam (rootOf j) ≠ 0 := by
  simp only [forneyMagnitude_eq_ok]
  constructor
  · rintro ⟨m, hm⟩ hzero
    rw [hzero] at hm
    cases hm
  · intro hne
    exact Option.isSome_iff_exists.mp (gfDiv_isSome _ hne)

/-- One zero denominator makes the loop raise. -/
theorem forneyMagnitudes_of_zero {js : List Nat} (h : ∃ j ∈ js, polyEvald lam (rootOf j) = 0) :
    forneyMagnitudes om lam js = .error .forneyDen := by
  cases hms : forneyMagnitudes om lam js with
  | error c => rw [forneyMagnitudes_error hms]
  | ok ms =>
    obtain ⟨j, hj, hzero⟩ := h
    obtain ⟨i, hi, rfl⟩ := List.getElem_of_mem hj
    have hi' : i < ms.length := (forneyMagnitudes_length hms).symm ▸ hi
    have hm : forneyMagnitude om lam js[i] = .ok ms[i] := (forneyMagnitudes_ok hms).get hi hi'
    exact absurd hzero (exists_forneyMagnitude_iff.mp ⟨_, hm⟩)

theorem exists_forneyMagnitudes {js : List Nat} (h : ∀ j ∈ js, polyEvald lam (rootOf j) ≠ 0) :
    ∃ ms, forneyMagnitudes om lam js = .ok ms := by
  induction js with
  | nil => exact ⟨[], rfl⟩
  | cons j js ih =>
    obtain ⟨m, hm⟩ := exists_forneyMagnitude_iff.mpr (h j List.mem_cons_self)
    obtain ⟨ms, hms⟩ := ih fun j' hj' => h j' (List.mem_cons_of_mem j hj')
    exact ⟨m :: ms, by rw [forneyMagnitudes, hm, hms]; rfl⟩

end

/-! ### The correction loop -/

/-- R173: byte `i` collects the magnitudes of the entries that name it. -/
theorem applyMagnitudes_read {size : Nat} {m : Memory} (hm : m.wf size = true) {js : List Nat} (hj : ∀ j ∈ js, j < size)
    (ms : List Byte) (i : Nat) : (applyMagnitudes m js ms).read i =
      m.read i ^^^ xorAll (List.zipWith (fun j v => if j = i then v else 0) js ms) := by
  induction js generalizing m ms with
  | nil => cases ms <;> exact (BitVec.xor_zero).symm
  | cons j js ih =>
    cases ms with
    | nil => exact (BitVec.xor_zero).symm
    | cons v vs =>
      obtain ⟨hjs, hrest⟩ := List.forall_mem_cons.mp hj
      rw [applyMagnitudes, ih (Memory.write_wf hm hjs _) hrest, Memory.read_write hm, List.zipWith_cons_cons, xorAll_cons,
        ← BitVec.xor_assoc]
      by_cases hij : i = j
      · rw [if_pos hij, if_pos hij.symm, hij]
      · rw [if_neg hij, if_neg (Ne.symm hij)]
        exact congrArg (· ^^^ _) (BitVec.xor_zero).symm

/-- R173: the same lists applied twice restore the word. -/
theorem applyMagnitudes_twice {size : Nat} {m : Memory} (hm : m.wf size = true) {js : List Nat} (hj : ∀ j ∈ js, j < size)
    (ms : List Byte) : applyMagnitudes (applyMagnitudes m js ms) js ms = m := by
  have hm' : (applyMagnitudes m js ms).wf size = true := applyMagnitudes_wf js ms hm hj
  refine Memory.ext_read (applyMagnitudes_wf js ms hm' hj) hm fun i => ?_
  rw [applyMagnitudes_read hm' hj, applyMagnitudes_read hm hj, BitVec.xor_assoc, BitVec.xor_self, BitVec.xor_zero]

/-! ### The listed positions and their magnitudes -/

/-- A property of the listed positions, entry by entry. -/
theorem State.forall_mem_listedPositions {s : State} {P : Byte → Prop} :
    (∀ p ∈ s.listedPositions, P p) ↔ ∀ i, i < s.npos.toNat → P (s.pos.read i) := by
  simp [State.mem_listedPositions]

theorem State.exists_mem_listedPositions {s : State} {P : Byte → Prop} :
    (∃ p ∈ s.listedPositions, P p) ↔ ∃ i, i < s.npos.toNat ∧ P (s.pos.read i) := by
  simp [State.mem_listedPositions]

/-- A position is a byte. The laws of CW below hold in a buffer of 256 bytes, so they need no bound from the operand `n`. -/
theorem State.listedPositions_lt (s : State) : ∀ j ∈ s.listedPositions.map BitVec.toNat, j < 256 := by
  intro j hj
  obtain ⟨p, -, rfl⟩ := List.mem_map.mp hj
  exact p.isLt

theorem State.cw_wf {s : State} (h : s.wf = true) : s.cw.wf 256 = true :=
  Memory.wf_mono (by decide) (s.buf_wf h .cw)

/-- R173 on the lists of a state. -/
theorem State.applyListed_cw_read {s : State} (h : s.cw.wf 256 = true) (j : Nat) : s.applyListed.cw.read j =
    s.cw.read j ^^^
      xorAll ((List.range s.npos.toNat).map fun i => if (s.pos.read i).toNat = j then s.mag.read i else 0) := by
  have hlists : List.zipWith (fun p v => if p = j then v else 0) (s.listedPositions.map BitVec.toNat) s.listedMagnitudes =
      (List.range s.npos.toNat).map fun i => if (s.pos.read i).toNat = j then s.mag.read i else 0 := by
    simp [State.listedPositions, State.listedMagnitudes, Memory.slice_map_read, List.zipWith_map, List.zipWith_self]
  rw [State.applyListed_cw, applyMagnitudes_read h s.listedPositions_lt, hlists]

theorem State.applyListed_applyListed {s : State} (h : s.cw.wf 256 = true) : s.applyListed.applyListed = s :=
  congrArg (fun m => { s with cw := m }) (applyMagnitudes_twice h s.listedPositions_lt s.listedMagnitudes)

end Sys2Proof.Machine

/-!
PROOFS. The commands RS.FORNEY (R172), RS.APPLY (R173) and RS.CORRECT (R174). The Forney stage that the first and the last of
them run is said once, as what it answers (`forneyStage_of_inside`) and as what a success of it means (`forneyStage_ok`).
-/

namespace Sys2Proof.Claims

open Sys2Proof Sys2Proof.Machine

/-- The rows that reserve the fields `a` and `c`. -/
theorem reservedFieldRaises_of_fb {o : Opcode} (h : o.format = .fb) :
    ReservedFieldRaises o.code fun a _ c => a ≠ 0 ∨ c ≠ 0 := by
  refine reservedFieldRaises_of_format o fun a b c hbad hzero => ?_
  rw [h] at hzero
  obtain ⟨ha, hc⟩ := hzero
  exact hbad.elim (fun h => h ha) (fun h => h hc)

/-! ### The Forney stage -/

/-- Ω of R171 for the word and the locator of a state. -/
def evaluatorOf (s : State) (nsym n : Nat) : List Byte :=
  evaluatorPoly (rsSynd (s.cw.slice n) nsym) (s.loc.slice 128) nsym

/-- The answer of the loop of R172 over the listed positions. -/
def listedForney (s : State) (nsym n : Nat) : Except Cause (List Byte) :=
  forneyMagnitudes (evaluatorOf s nsym n) (s.loc.slice 128) (s.listedPositions.map BitVec.toNat)

/-- The state with the results of the Forney stage in SYN, SZ, OMG and MAG (R172). -/
def forneyStored (s : State) (nsym n : Nat) (ms : List Byte) : State :=
  (s.storeSyndromes (rsSynd (s.cw.slice n) nsym)).storeMagnitudes (evaluatorOf s nsym n) ms

section
variable {nsym n : Nat} {s : State} (h1 : 1 ≤ nsym) (h2 : nsym ≤ 254) (hn : nsym ≤ n)
include h1 h2 hn

theorem forneyStage_of_outside (hpos : ∃ p ∈ s.listedPositions, n ≤ p.toNat) :
    forneyStage s nsym n = .error .posRange := by
  unfold forneyStage
  rw [checkNsym_ok h1 h2, checkWordLength_ok hn, checkPositions_error hpos]
  rfl

theorem forneyStage_of_inside (hpos : ∀ p ∈ s.listedPositions, p.toNat < n) :
    forneyStage s nsym n = listedForney s nsym n >>= fun ms => .ok (forneyStored s nsym n ms) := by
  unfold forneyStage
  rw [checkNsym_ok h1 h2, checkWordLength_ok hn, checkPositions_ok hpos]
  rfl

end

/-- A stage that answers has found its listed positions inside the word, and the magnitudes. -/
theorem forneyStage_ok {nsym n : Nat} {s t : State} (h : forneyStage s nsym n = .ok t) :
    (∀ p ∈ s.listedPositions, p.toNat < n) ∧ ∃ ms, t = forneyStored s nsym n ms := by
  obtain ⟨-, -, h⟩ := except_bind_ok h
  obtain ⟨-, -, h⟩ := except_bind_ok h
  obtain ⟨_, hcheck, h⟩ := except_bind_ok h
  obtain ⟨ms, -, h⟩ := except_bind_ok h
  cases h
  rcases checkPositions_cases (positions := s.listedPositions) (n := n) with ⟨-, hpos⟩ | ⟨herror, -⟩
  · exact ⟨hpos, ms, rfl⟩
  · rw [herror] at hcheck
    cases hcheck

/-- MAG holds the quotient of R172 for each listed position, and zero above. -/
theorem forneyStored_mag {nsym n : Nat} {s : State} {ms : List Byte} (hms : listedForney s nsym n = .ok ms)
    (hnpos : s.npos.toNat ≤ 127) :
    (∀ i, i < s.npos.toNat →
      gfDiv (gfMul (expAt (s.pos.read i).toNat) (polyEval (evaluatorOf s nsym n) (rootOf (s.pos.read i).toNat)))
        (polyEvald (s.loc.slice 128) (rootOf (s.pos.read i).toNat)) = some ((forneyStored s nsym n ms).mag.read i)) ∧
    (∀ i, s.npos.toNat ≤ i → i < 127 → (forneyStored s nsym n ms).mag.read i = 0) := by
  have hlen : ms.length = s.npos.toNat := by simpa using forneyMagnitudes_length hms
  refine ⟨fun i hi => ?_, fun i hi _ => zeroFilled_read_of_length_le (hlen.trans_le hi)⟩
  have hi' : i < ms.length := hlen.symm ▸ hi
  have hread : (forneyStored s nsym n ms).mag.read i = ms[i] :=
    (zeroFilled_read_of_lt_size (b := .mag) (Nat.lt_of_lt_of_le hi hnpos)).trans (List.getD_eq_getElem ms 0 hi')
  have hm := (forneyMagnitudes_ok hms).get (i := i) (by simpa using hi) hi'
  simp only [State.listedPositions, List.get_eq_getElem, List.getElem_map, Memory.slice_getElem] at hm
  rw [hread]
  exact forneyMagnitude_eq_ok.mp hm

/-! ### The commands -/

section
variable {nsym n : Nat} {s : State}

theorem exec_rsForney_of_stage {r : Except Cause State} (h : forneyStage s nsym n = r) :
    exec (.rsForney nsym n) s = s.commit r := congrArg s.commit h

/-- RS.CORRECT runs the stage and the correction loop with one commit (R174). -/
theorem exec_rsCorrect_of_stage {r : Except Cause State} (h : forneyStage s nsym n = r) :
    exec (.rsCorrect nsym n) s = s.commit (r >>= fun t => .ok t.applyListed) := by
  rw [← h]
  rfl

theorem exec_rsApply_of_outside (hpos : ∃ p ∈ s.listedPositions, n ≤ p.toNat) :
    exec (.rsApply n) s = .next (s.raise .posRange) := by
  change execRsApply n s = _
  unfold execRsApply
  rw [checkPositions_error hpos]
  rfl

theorem exec_rsApply_of_inside (hpos : ∀ p ∈ s.listedPositions, p.toNat < n) :
    exec (.rsApply n) s = .next s.applyListed.succeed := by
  change execRsApply n s = _
  unfold execRsApply
  rw [checkPositions_ok hpos]
  rfl

end

/-! ### The obligations -/

/-- Settles O31: the operand checks and the position check in order; then a zero denominator or the stage's results. -/
theorem rsForneyWritesTheMagnitudes : Obligations.RsForneyWritesTheMagnitudes := by
  refine ⟨fun _ _ => wordRuns_build .rsForney rfl, fun n nsym s h => fails_of_nsym_range h s _,
    fun nsym n s h1 h2 hn => fails_of_short_word h1 h2 hn s _, ?outside, ?zeroDenominator, ?magnitudes,
    reservedFieldRaises_of_fab (o := .rsForney) rfl⟩
  case outside =>
    intro nsym n s h1 h2 hn hpos
    exact exec_rsForney_of_stage (forneyStage_of_outside h1 h2 hn (State.exists_mem_listedPositions.mpr hpos))
  case zeroDenominator =>
    intro nsym n s h1 h2 hn hpos hden
    obtain ⟨i, hi, hzero⟩ := hden
    have hlisted : s.pos.read i ∈ s.listedPositions := State.mem_listedPositions.mpr ⟨i, hi, rfl⟩
    have hraise : listedForney s nsym n = .error .forneyDen :=
      forneyMagnitudes_of_zero ⟨_, List.mem_map_of_mem hlisted, hzero⟩
    have hstage := forneyStage_of_inside h1 h2 hn (State.forall_mem_listedPositions.mpr hpos)
    rw [hraise] at hstage
    exact exec_rsForney_of_stage hstage
  case magnitudes =>
    intro nsym n s h1 h2 hn hnpos hpos hden syndromes om
    obtain ⟨ms, hms⟩ : ∃ ms, listedForney s nsym n = .ok ms :=
      exists_forneyMagnitudes (List.forall_mem_map.mpr (State.forall_mem_listedPositions.mpr hden))
    have hstage := forneyStage_of_inside h1 h2 hn (State.forall_mem_listedPositions.mpr hpos)
    rw [hms] at hstage
    have hsyn : syndromes.length = nsym := rsSynd_length _ nsym
    have hom : om.length = nsym := polyMulTrunc_length _ _ nsym
    exact ⟨_, exec_rsForney_of_stage hstage, rfl,
      fun i hi => zeroFilled_read_of_lt_size (b := .syn) (Nat.lt_of_lt_of_le hi h2),
      fun i hi _ => zeroFilled_read_of_length_le (hsyn.trans_le hi), allZero_rsSynd_iff _ nsym,
      fun i hi => zeroFilled_read_of_lt_size (b := .omg) (Nat.lt_of_lt_of_le hi h2),
      fun i hi _ => zeroFilled_read_of_length_le (hom.trans_le hi), forneyStored_mag hms hnpos⟩

/-- Settles O32: the position check, then the correction loop, which is its own inverse. -/
theorem rsApplyXorsTheListedMagnitudes : Obligations.RsApplyXorsTheListedMagnitudes := by
  refine ⟨fun _ => wordRuns_build .rsApply ⟨rfl, rfl⟩,
    fun n s hpos => exec_rsApply_of_outside (State.exists_mem_listedPositions.mpr hpos), ?applied, ?twice,
    reservedFieldRaises_of_fb (o := .rsApply) rfl⟩
  case applied =>
    intro n s hs hpos
    exact ⟨_, exec_rsApply_of_inside (State.forall_mem_listedPositions.mpr hpos), rfl,
      State.applyListed_cw_read (State.cw_wf hs)⟩
  case twice =>
    intro n s hs hpos
    have hinside : ∀ p ∈ s.listedPositions, p.toNat < n := State.forall_mem_listedPositions.mpr hpos
    have hsecond : exec (.rsApply n) s.applyListed.succeed = .next s.applyListed.applyListed.succeed :=
      exec_rsApply_of_inside hinside
    rw [State.applyListed_applyListed (State.cw_wf hs)] at hsecond
    exact ⟨_, exec_rsApply_of_inside hinside, hsecond⟩

/-- Settles O33: both commands run the same stage, which leaves POS, NPOS and CW to the correction loop as they were. -/
theorem correctEqualsForneyThenApply : Obligations.CorrectEqualsForneyThenApply := by
  refine ⟨fun _ _ => wordRuns_build .rsCorrect rfl, ?success, ?raise, reservedFieldRaises_of_fab (o := .rsCorrect) rfl⟩
  case success =>
    intro nsym n s t hforney ht
    obtain ⟨u, hstage, rfl⟩ := State.commit_success hforney ht
    obtain ⟨hpos, ms, rfl⟩ := forneyStage_ok hstage
    exact ⟨_, exec_rsCorrect_of_stage hstage, rfl, exec_rsApply_of_inside (s := (forneyStored s nsym n ms).succeed) hpos⟩
  case raise =>
    intro nsym n s t hforney ht
    obtain ⟨c, hstage, rfl⟩ := State.commit_failure hforney ht
    exact exec_rsCorrect_of_stage hstage

end Sys2Proof.Claims

/-!
PROOFS. The fast path of RS.DECODE (R176): all-zero syndromes leave a buffer of zeros.
-/

namespace Sys2Proof.Machine

/-- A buffer filled with zeros reads zero at every index, inside the entries and above them. -/
theorem zeroFilled_read_of_allZero {b : Buf} {l : List Byte} (h : allZero l = true) (i : Nat) :
    (zeroFilled b l).read i = 0 := by
  by_cases hi : i < l.length
  · rw [zeroFilled_read, (allZero_iff l).mp h i hi, ite_self]
  · exact zeroFilled_read_of_length_le (Nat.le_of_not_lt hi)

end Sys2Proof.Machine

namespace Sys2Proof.Claims

open Sys2Proof Sys2Proof.Machine

/-- Settles O37: with admitted operands and zero syndromes the commit of the fast path is the answer. -/
theorem cleanWordTakesTheFastPath : Obligations.CleanWordTakesTheFastPath := by
  intro nsym n s h1 h2 hn hzero
  have hexec : exec (.rsDecode nsym n) s = .next (s.storeClean (rsSynd (s.cw.slice n) nsym)).succeed :=
    (execRsDecode_of_operands h1 h2 hn).trans (if_pos hzero)
  have hflags : (s.storeClean (rsSynd (s.cw.slice n) nsym)).flags = { s.flags with sz := true } := by
    rw [State.storeClean_flags, hzero]
  refine ⟨_, hexec, State.ext_buf rfl rfl rfl rfl hflags ?buffers rfl, fun i _ => zeroFilled_read_of_allZero hzero i⟩
  case buffers =>
    intro b
    cases b <;> rfl

end Sys2Proof.Claims

/-!
PROOFS. The commands NOP, BUF.RD and BUF.WR (46_host_access R190 to R192): the id and index checks they share, then the byte.
-/

namespace Sys2Proof.Machine

/-- No id above 8 names a space (20_memory R64). -/
theorem Space.ofId_of_gt {id : Nat} (h : 8 < id) : Space.ofId id = none := by
  cases hsp : Space.ofId id with
  | none => rfl
  | some sp =>
    rcases Space.ofId_cases hsp with ⟨b, rfl, -⟩ | ⟨rfl, -⟩ | ⟨rfl, -⟩
    · exact absurd h (by cases b <;> decide)
    · exact absurd h (by decide)
    · exact absurd h (by decide)

theorem selectSpace_of_gt {id : Nat} (h : 8 < id) : selectSpace id = .error .bufId :=
  selectSpace_of_none (Space.ofId_of_gt h)

theorem checkIndex_ok {size idx : Nat} (h : idx < size) : checkIndex size idx = .ok () := by
  rw [checkIndex_spec, if_pos h]

theorem checkIndex_error {size idx : Nat} (h : size ≤ idx) : checkIndex size idx = .error .bufIndex := by
  rw [checkIndex_spec, if_neg (Nat.not_lt.mpr h)]

theorem byteOfNat_toNat {v : Nat} (h : v < 256) : (BitVec.ofNat 8 v).toNat = v :=
  (BitVec.toNat_ofNat v 8).trans (Nat.mod_eq_of_lt h)

/-- LOG has a value at every index but 0 (10_state R32). -/
theorem exists_logAt {v : Nat} (hpos : 1 ≤ v) (hv : v < 256) : ∃ i, logAt v = some i := by
  have hbyte : (BitVec.ofNat 8 v).toNat = v := byteOfNat_toNat hv
  have hne : BitVec.ofNat 8 v ≠ 0 := fun hzero => by
    rw [hzero] at hbyte
    exact Nat.ne_of_lt hpos hbyte
  obtain ⟨i, hlog⟩ := gfLog_some_of_ne hne
  rw [gfLog, hbyte] at hlog
  exact ⟨i, hlog⟩

@[simp] theorem State.readByte_succeed (s : State) (b : Buf) (i : Nat) : s.succeed.readByte b i = s.readByte b i :=
  congrArg (·.read i) (s.buf_succeed b)

end Sys2Proof.Machine

namespace Sys2Proof.Claims

open Sys2Proof Sys2Proof.Machine

/-! ### BUF.RD -/

section
variable {buf idx : Nat} {sp : Space} {s : State}

theorem exec_bufRd_bad_id (h : 8 < buf) : exec (.bufRd buf idx) s = .next (s.raise .bufId) := by
  change execBufRd buf idx s = _
  unfold execBufRd
  rw [selectSpace_of_gt h]
  rfl

theorem exec_bufRd_bad_index (hsp : Space.ofId buf = some sp) (hidx : sp.size ≤ idx) :
    exec (.bufRd buf idx) s = .next (s.raise .bufIndex) := by
  change execBufRd buf idx s = _
  unfold execBufRd
  rw [selectSpace_of_some hsp, except_ok_bind, checkIndex_error hidx]
  rfl

/-- With the id and the index admitted, what is fetched decides. -/
theorem exec_bufRd_of_fetch (hsp : Space.ofId buf = some sp) (hidx : idx < sp.size) {fetched : Except Cause Byte}
    (hfetch : s.fetchByte sp idx = fetched) :
    exec (.bufRd buf idx) s = s.commit (fetched >>= fun v => .ok (s.setR v)) := by
  change execBufRd buf idx s = _
  unfold execBufRd
  rw [selectSpace_of_some hsp, except_ok_bind, checkIndex_ok hidx, except_ok_bind, hfetch]
  rfl

end

/-! ### BUF.WR -/

section
variable {buf idx : Nat} {v : Byte} {s : State}

theorem exec_bufWr_bad_id (h : 8 < buf) : exec (.bufWr buf idx v) s = .next (s.raise .bufId) := by
  change execBufWr buf idx v s = _
  unfold execBufWr
  rw [selectSpace_of_gt h]
  rfl

/-- With the id of a data buffer, the index check decides. -/
theorem exec_bufWr_of_data {b : Buf} (hb : Space.ofId buf = some (.data b)) {checked : Except Cause Unit}
    (hcheck : checkIndex b.size idx = checked) :
    exec (.bufWr buf idx v) s = s.commit (checked >>= fun _ => .ok (s.writeByte b idx v)) := by
  change execBufWr buf idx v s = _
  unfold execBufWr
  rw [selectSpace_of_some hb, except_ok_bind, writable_data, except_ok_bind, hcheck]
  rfl

end

/-! ### The obligations -/

/-- Settles O1: NOP commits the state it finds, and its format reserves all three operand fields. -/
theorem nopClearsOnlyTheOutcome : Obligations.NopClearsOnlyTheOutcome := by
  refine ⟨wordRuns_build .nop (a := 0) (b := 0) (c := 0) ⟨rfl, rfl, rfl⟩, fun _ => rfl,
    reservedFieldRaises_of_format .nop fun a b c hbad hzero => ?_⟩
  obtain ⟨ha, hb, hc⟩ := hzero
  rcases hbad with h | h | h
  · exact h ha
  · exact h hb
  · exact h hc

/-- Settles O2: the id check, the index check, and then the fetch, which fails at `LOG[0]` only. -/
theorem bufRdLoadsTheAddressedByte : Obligations.BufRdLoadsTheAddressedByte := by
  refine ⟨fun _ _ _ => wordRuns_build .bufRd trivial, fun _ _ _ h => exec_bufRd_bad_id h,
    fun _ _ _ _ hsp hidx => exec_bufRd_bad_index hsp hidx, ?logZero, ?data, ?exp, ?log⟩
  case logZero =>
    intro s
    exact exec_bufRd_of_fetch (sp := .log) rfl (by decide) rfl
  case data =>
    intro buf idx b s hb hidx
    exact exec_bufRd_of_fetch hb hidx (s.fetchByte_data b idx)
  case exp =>
    intro idx s hidx
    exact exec_bufRd_of_fetch (sp := .exp) rfl hidx (s.fetchByte_exp idx)
  case log =>
    intro idx s hpos hidx
    obtain ⟨v, hlog⟩ := exists_logAt hpos hidx
    exact ⟨v, hlog, exec_bufRd_of_fetch (sp := .log) rfl hidx (s.fetchByte_log hlog)⟩

/-- Settles O3: the checks in order, then the write of one byte, which every other byte reads past. -/
theorem bufWrStoresExactlyOneByte : Obligations.BufWrStoresExactlyOneByte := by
  refine ⟨fun _ _ _ => wordRuns_build .bufWr trivial, fun _ _ _ _ h => exec_bufWr_bad_id h, ?readonly,
    ?badIndex, ?stored⟩
  case readonly =>
    rintro buf idx v s (rfl | rfl)
    · rfl
    · rfl
  case badIndex =>
    intro buf idx v b s hb hidx
    exact exec_bufWr_of_data hb (checkIndex_error hidx)
  case stored =>
    intro buf idx v b s hs hb hidx
    have hread := State.readByte_writeByte (State.buf_wf hs b) idx v
    refine ⟨(s.writeByte b idx v).succeed, exec_bufWr_of_data hb (checkIndex_ok hidx), ?written, ?others,
      s.setBuf_r b _, s.setBuf_npos b _, s.setBuf_flags b _, s.setBuf_port b _, rfl, rfl⟩
    case written => rw [State.readByte_succeed, hread, if_pos ⟨rfl, rfl⟩]
    case others =>
      intro b' j hne
      rw [State.readByte_succeed, hread, if_neg fun h => hne (Prod.ext h.1 h.2)]

end Sys2Proof.Claims

/-!
PROOFS. The bound on NPOS (10_state R26, 46_host_access R193). Sixteen commands keep NPOS (`exec_keeps_npos`). The other four
write a checked count, 0, or the length of a list the root search answers, which its capacity test keeps within 127.
-/

namespace Sys2Proof.Machine

/-- If the body of a command completes, its value satisfies `P`. -/
def Ensures {α : Type} (body : Except Cause α) (P : α → Prop) : Prop := ∀ a, body = .ok a → P a

section
variable {α β : Type} {P : β → Prop}

theorem ensures_ok {b : β} (h : P b) : Ensures (.ok b) P := by
  rintro _ ⟨⟩
  exact h

theorem ensures_error (c : Cause) : Ensures (.error c) P := nofun

theorem ensures_bind {x : Except Cause α} {f : α → Except Cause β} (h : ∀ a, x = .ok a → Ensures (f a) P) :
    Ensures (x >>= f) P := by
  intro b hb
  obtain ⟨a, hx, hf⟩ := except_bind_ok hb
  exact h a hx b hf

theorem ensures_ite {c : Prop} [Decidable c] {x y : Except Cause β} (hx : Ensures x P) (hy : Ensures y P) :
    Ensures (if c then x else y) P := by
  split
  · exact hx
  · exact hy

end

/-- A predicate of NPOS that the state before a command and the state its body answers satisfy holds after the command. -/
theorem State.commit_npos {P : Byte → Prop} {s t : State} {body : Except Cause State} (h : s.commit body = .next t)
    (hs : P s.npos) (hbody : Ensures body fun u => P u.npos) : P t.npos := by
  rcases State.commit_cases h with ⟨u, hu, rfl⟩ | ⟨c, -, rfl⟩
  · exact hbody u hu
  · exact hs

end Sys2Proof.Machine

namespace Sys2Proof.Claims

open Sys2Proof Sys2Proof.Machine

theorem forneyStage_keeps_npos (s : State) (nsym n : Nat) : Ensures (forneyStage s nsym n) fun t => t.npos = s.npos := by
  intro t h
  obtain ⟨-, ms, rfl⟩ := forneyStage_ok h
  rfl

/-- 10_state R26: a command outside the list of those that write NPOS leaves it as it was. -/
theorem exec_keeps_npos {i : Instr} {s t : State} (h : exec i s = .next t) (hi : writesNpos i = false) :
    t.npos = s.npos := by
  have keeps {body : Except Cause State} (hexec : s.commit body = .next t)
      (hbody : Ensures body fun u => u.npos = s.npos) : t.npos = s.npos :=
    State.commit_npos (P := (· = s.npos)) hexec rfl hbody
  cases i with
  | nop => exact keeps (body := .ok s) h (ensures_ok rfl)
  | bufRd buf idx =>
    exact keeps h (ensures_bind fun _ _ => ensures_bind fun _ _ => ensures_bind fun _ _ => ensures_ok rfl)
  | bufWr buf idx v =>
    exact keeps h (ensures_bind fun _ _ => ensures_bind fun b _ => ensures_bind fun _ _ => ensures_ok (s.setBuf_npos b _))
  | gfMul a b => exact keeps (body := .ok (s.setR (gfMul a b))) h (ensures_ok rfl)
  | gfDiv a b => exact keeps h (ensures_bind fun _ _ => ensures_ok rfl)
  | gfInv a => exact keeps h (ensures_bind fun _ _ => ensures_ok rfl)
  | gfPow a e => exact keeps (body := .ok (s.setR (gfPow a e))) h (ensures_ok rfl)
  | polyEval buf x len => exact keeps h (ensures_bind fun _ _ => ensures_bind fun _ _ => ensures_ok rfl)
  | polyEvald buf x len => exact keeps h (ensures_bind fun _ _ => ensures_bind fun _ _ => ensures_ok rfl)
  | rsGen nsym => exact keeps h (ensures_bind fun _ _ => ensures_ok rfl)
  | rsEncode nsym k => exact keeps h (ensures_bind fun _ _ => ensures_bind fun _ _ => ensures_ok rfl)
  | rsSynd nsym n => exact keeps h (ensures_bind fun _ _ => ensures_bind fun _ _ => ensures_ok rfl)
  | rsKeyeq nsym => exact keeps h (ensures_bind fun _ _ => ensures_bind fun _ _ => ensures_ok rfl)
  | rsForney nsym n => exact keeps h (forneyStage_keeps_npos s nsym n)
  | rsApply n => exact keeps h (ensures_bind fun _ _ => ensures_ok rfl)
  | rsCorrect nsym n => exact keeps h (ensures_bind fun u hu => ensures_ok (forneyStage_keeps_npos s nsym n u hu))
  | setNpos _ | rsChien _ _ | rsLocate _ _ | rsDecode _ _ => cases hi

/-! ### The commands that write NPOS -/

theorem exec_setNpos_above {count : Nat} {s : State} (h : 127 < count) :
    exec (.setNpos count) s = .next (s.raise .countRange) := by
  change execSetNpos count s = _
  unfold execSetNpos
  rw [checkCount_spec, if_neg (Nat.not_le.mpr h)]
  rfl

theorem exec_setNpos_of_le {count : Nat} {s : State} (h : count ≤ 127) :
    exec (.setNpos count) s = .next { s with npos := BitVec.ofNat 8 count, status := .ok, info := 0 } := by
  change execSetNpos count s = _
  unfold execSetNpos
  rw [checkCount_spec, if_pos h]
  rfl

/-- The capacity test of the root search bounds the count that goes to NPOS (R154, R155). -/
theorem storePositions_npos_le {lam : List Byte} {nsym n : Nat} {found : List Nat} (hnsym : nsym ≤ 254)
    (h : rsChien lam nsym n = .ok found) (s : State) : (s.storePositions found).npos.toNat ≤ 127 := by
  obtain ⟨-, -, -, hcapacity⟩ := rsChien_ok h
  have hcount : (s.storePositions found).npos.toNat = found.length := (storePositions_holds hnsym h s).1
  omega

theorem decodeStages_npos_le {nsym : Nat} (hnsym : nsym ≤ 254) (s : State) (n : Nat) (syndromes : List Byte) :
    Ensures (decodeStages s nsym n syndromes) fun t => t.npos.toNat ≤ 127 :=
  ensures_bind fun _ _ => ensures_bind fun _ hfound => ensures_bind fun _ _ =>
    ensures_ite (ensures_ok (storePositions_npos_le hnsym hfound s)) (ensures_error _)

/-- 46_host_access R193: no command takes NPOS above 127. -/
theorem exec_npos_le {i : Instr} {s t : State} (hs : s.npos.toNat ≤ 127) (h : exec i s = .next t) :
    t.npos.toNat ≤ 127 := by
  have bounded {body : Except Cause State} (hexec : s.commit body = .next t)
      (hbody : Ensures body fun u => u.npos.toNat ≤ 127) : t.npos.toNat ≤ 127 :=
    State.commit_npos (P := (·.toNat ≤ 127)) hexec hs hbody
  cases hi : writesNpos i with
  | false => rw [exec_keeps_npos h hi]; exact hs
  | true =>
    cases i with
    | setNpos count =>
      rcases Nat.lt_or_ge 127 count with hcount | hcount
      · cases (exec_setNpos_above hcount).symm.trans h
        exact hs
      · cases (exec_setNpos_of_le hcount).symm.trans h
        exact (byteOfNat_toNat (by omega)).trans_le hcount
    | rsChien nsym n =>
      exact bounded h (ensures_bind fun _ hnsym => ensures_bind fun _ _ => ensures_bind fun _ hfound =>
        ensures_ok (storePositions_npos_le (range_of_checkNsym_ok hnsym).2 hfound s))
    | rsLocate nsym n =>
      exact bounded h (ensures_bind fun _ hnsym => ensures_bind fun _ _ => ensures_bind fun lam _ =>
        ensures_bind fun _ hfound =>
          ensures_ok (storePositions_npos_le (range_of_checkNsym_ok hnsym).2 hfound (s.storeLocator lam)))
    | rsDecode nsym n =>
      exact bounded h (ensures_bind fun _ hnsym => ensures_bind fun _ _ =>
        ensures_ite (ensures_ok (Nat.zero_le 127)) (decodeStages_npos_le (range_of_checkNsym_ok hnsym).2 s n _))
    | _ => cases hi

/-- A command word is dropped, run or rejected; only the run can write NPOS. -/
theorem issue_npos_le {w : Word} {s t : State} (hs : s.npos.toNat ≤ 127) (h : issue w s = .next t) :
    t.npos.toNat ≤ 127 := by
  rcases issue_cases h with ⟨-, rfl⟩ | ⟨-, i, -, hexec⟩ | ⟨-, e, -, rfl⟩
  · exact hs
  · exact exec_npos_le hs hexec
  · exact hs

/-- 10_state R26: no step takes NPOS above 127. -/
theorem step_npos_le {s t : State} (hs : s.npos.toNat ≤ 127) (h : step s = .next t) : t.npos.toNat ≤ 127 := by
  rcases step_cases h with ⟨-, rfl⟩ | ⟨w, rest, -, hissue⟩ | ⟨rest, -, rfl⟩ | ⟨rest, -, rfl⟩
  · exact hs
  · exact issue_npos_le (s := { s with port := rest }) hs hissue
  · exact Nat.zero_le 127
  · exact hs

/-- Settles O4: the count check decides the command; the bound on NPOS is an invariant of every step. -/
theorem setNposWritesTheCount : Obligations.SetNposWritesTheCount :=
  ⟨fun _ => wordRuns_build .setNpos ⟨rfl, rfl⟩, fun _ _ hcount => exec_setNpos_above hcount,
    fun _ _ hcount => ⟨_, exec_setNpos_of_le hcount, byteOfNat_toNat (by omega), rfl⟩,
    ⟨rfl, fun _ _ => step_npos_le⟩, reservedFieldRaises_of_fa (o := .setNpos) rfl⟩

end Sys2Proof.Claims

/-!
PROOFS. A raise changes STATUS and INFO only (60_exceptions R202): every command is a commit, and a commit that ends with
another STATUS than 0 drops its body's effects.
-/

namespace Sys2Proof.Claims

open Sys2Proof Sys2Proof.Machine

/-- 60_exceptions R202, for a command: one that ends with another STATUS than 0 is the raise of some cause. -/
theorem exec_failure {i : Instr} {s t : State} (h : exec i s = .next t) (ht : t.status ≠ .ok) :
    ∃ c, t = s.raise c := by
  obtain ⟨body, hcommit⟩ := exec_is_commit i s
  obtain ⟨c, -, hraise⟩ := State.commit_failure (hcommit.symm.trans h) ht
  exact ⟨c, hraise⟩

/-- Settles O49: a ready engine runs the word's command, which raises by its commit, or rejects the word with a raise. -/
theorem raiseChangesOnlyTheOutcome : Obligations.RaiseChangesOnlyTheOutcome := by
  intro w s t hrdy hissue hstatus
  rcases issue_cases hissue with ⟨hnotReady, -⟩ | ⟨-, i, -, hexec⟩ | ⟨-, e, -, hraise⟩
  · exact absurd (hrdy.symm.trans hnotReady) (by decide)
  · exact exec_failure hexec hstatus
  · exact ⟨causeOfIllegal e, hraise⟩

end Sys2Proof.Claims

/-!
PROOFS. The table-building loops of reset (70_reset R231). One step of the first loop multiplies by x modulo 0x11D, so the
loop runs through the exponentials (`powersFrom_expAt`); the entries of both tables and the last value of x follow from that
list and the table invariants of 10_state R35.
-/

namespace Sys2Proof.Machine

open Sys2Proof.Claims

/-- One step of the first loop is multiplication by the polynomial x. -/
theorem timesGenerator_toNat (a : Byte) : timesGenerator a.toNat = (timesX a).toNat := by
  have table : ∀ a : Byte, timesGenerator a.toNat = (timesX a).toNat := by decide +kernel
  exact table a

theorem timesGenerator_expAt (i : Nat) : timesGenerator (expAt i).toNat = (expAt (i + 1)).toNat := by
  rw [timesGenerator_toNat, timesX_expAt]

/-- The first loop, started at any exponential. -/
theorem powersFrom_expAt (n i : Nat) :
    powersFrom n (expAt i).toNat = (List.range n).map fun j => (expAt (i + j)).toNat := by
  induction n generalizing i with
  | zero => rfl
  | succ n ih =>
    have htail : powersFrom n (timesGenerator (expAt i).toNat) =
        (List.range n).map fun j => (expAt (i + (j + 1))).toNat := by
      rw [timesGenerator_expAt, ih]
      exact List.map_congr_left fun j _ => by rw [Nat.add_right_comm, Nat.add_assoc]
    rw [powersFrom, htail, List.range_succ_eq_map, List.map_cons, List.map_map]
    rfl

theorem firstPeriod_eq_map_expAt : firstPeriod = (List.range 255).map fun i => (expAt i).toNat := by
  calc firstPeriod = powersFrom 255 (expAt 0).toNat := rfl
    _ = (List.range 255).map fun i => (expAt (0 + i)).toNat := powersFrom_expAt 255 0
    _ = (List.range 255).map fun i => (expAt i).toNat := by simp only [Nat.zero_add]

/-- The second loop continues the powers, because they have period 255. -/
theorem builtExp_eq_map_expAt : builtExp = (List.range 512).map fun i => (expAt i).toNat := by
  have hsplit : List.range 512 =
      List.range 255 ++ (List.range 255).map (255 + ·) ++ (List.range 2).map (255 + 255 + ·) := by
    rw [← List.range_add, ← List.range_add]
  have hperiod (j : Nat) : expAt (255 + j) = expAt j := by rw [Nat.add_comm, expAt_add_order]
  simp [builtExp, firstPeriod_eq_map_expAt, hsplit, hperiod, ← List.map_take, List.take_range, Function.comp_def,
    Nat.add_assoc 255 255]

/-- The first loop meets every nonzero byte once, at its log, and never meets zero. -/
theorem builtLog_toNat (a : Byte) : builtLog a.toNat = gfLog a := by
  unfold builtLog
  rw [firstPeriod_eq_map_expAt]
  rcases eq_zero_or_eq_expAt a with rfl | ⟨i, rfl⟩
  · rw [gfLog_zero, List.idxOf?_eq_none_iff]
    have hne (j : Nat) : (expAt j).toNat ≠ 0 := fun h => expAt_ne_zero j (BitVec.eq_of_toNat_eq h)
    simp [hne]
  · have hi : i % 255 < 255 := Nat.mod_lt i (by decide)
    rw [gfLog_expAt_mod, List.idxOf?_eq_some_iff]
    refine ⟨by simpa using hi, by simp [expAt_mod], fun j hj hval => ?earlier⟩
    case earlier =>
      have hexp : expAt j = expAt (i % 255) := by
        rw [expAt_mod]
        exact BitVec.eq_of_toNat_eq (by simpa using hval)
      exact absurd (expAt_inj (hj.trans hi) hi hexp) hj.ne

/-- Settles O12: the loops write the exponentials, in order, and their logs; the step after exponent 254 returns to 1. -/
theorem resetBuildsTheTables : Obligations.ResetBuildsTheTables := by
  refine ⟨?length, fun i hi => ?entry, ?returns, fun v hv => ?log, builtLog_toNat 0#8⟩
  case length => simp [builtExp_eq_map_expAt]
  case entry => simp [builtExp_eq_map_expAt, hi]
  case returns =>
    have hlast : firstPeriod.getD 254 0 = (expAt 254).toNat := by simp [firstPeriod_eq_map_expAt]
    rw [hlast, timesGenerator_expAt]
    rfl
  case log =>
    have hbyte : (BitVec.ofNat 8 v).toNat = v := Nat.mod_eq_of_lt hv
    have hlog := builtLog_toNat (BitVec.ofNat 8 v)
    rwa [gfLog, hbyte] at hlog

end Sys2Proof.Machine

/-!
PROOFS. Encoding and decoding are inverse to each other (30_encoding R80 to R86). Both directions compare a command with the
three operand fields of its word: what a row builds from its fields (`wf_build`, `encode_build`), and that the fields the
encoder writes build the command again.
-/

namespace Sys2Proof

/-! ### The operand fields -/

/-- BUF.RD's index goes through two fields, its low byte and its high byte (30_encoding R83). -/
theorem fieldByte_index {idx : Nat} (h : idx < 65536) :
    256 * (fieldByte (idx / 256)).toNat + (fieldByte (idx % 256)).toNat = idx := by
  have hhigh : (fieldByte (idx / 256)).toNat = idx / 256 := fieldByte_toNat (by simp [fitsField]; omega)
  have hlow : (fieldByte (idx % 256)).toNat = idx % 256 := fieldByte_toNat (by simp [fitsField]; omega)
  omega

theorem fieldByte_index_low (a b : Byte) : fieldByte ((256 * b.toNat + a.toNat) % 256) = a := by
  have hlow : (256 * b.toNat + a.toNat) % 256 = a.toNat := by have := a.isLt; omega
  rw [hlow, fieldByte_of_toNat]

theorem fieldByte_index_high (a b : Byte) : fieldByte ((256 * b.toNat + a.toNat) / 256) = b := by
  have hhigh : (256 * b.toNat + a.toNat) / 256 = b.toNat := by have := a.isLt; omega
  rw [hhigh, fieldByte_of_toNat]

/-! ### From the command to its word and back -/

/-- A word with the opcode of a command's row decodes to that command when its fields build it. -/
theorem decodeWord_encode_of_build {i : Instr} {a b c : Byte} (hword : encode i = mkWord i.opcode.code a b c)
    (hzero : i.opcode.format.reservedZero a b c) (hbuild : i.opcode.build a b c = i) : decodeWord (encode i) = .ok i := by
  rw [hword, decodeWord_mkWord _ _ _ _ hzero, hbuild]

/-- Settles O43: each row's fields, read back, build the command; a number is its field byte's value. -/
theorem decodeOfEncodeIsTheCommand : Obligations.DecodeOfEncodeIsTheCommand := by
  intro i hwf
  cases i with
  | nop => exact decodeWord_encode_of_build rfl ⟨rfl, rfl, rfl⟩ rfl
  | bufRd buf idx =>
    simp only [Instr.wf, Bool.and_eq_true, decide_eq_true_eq] at hwf
    obtain ⟨hbuf, hidx⟩ := hwf
    exact decodeWord_encode_of_build rfl trivial (congrArg₂ Instr.bufRd (fieldByte_toNat hbuf) (fieldByte_index hidx))
  | bufWr buf idx val =>
    obtain ⟨hbuf, hidx⟩ := Bool.and_eq_true_iff.mp hwf
    exact decodeWord_encode_of_build rfl trivial
      (congrArg₂ (Instr.bufWr · · val) (fieldByte_toNat hbuf) (fieldByte_toNat hidx))
  | setNpos count => exact decodeWord_encode_of_build rfl ⟨rfl, rfl⟩ (congrArg Instr.setNpos (fieldByte_toNat hwf))
  | gfMul a b => exact decodeWord_encode_of_build rfl rfl rfl
  | gfDiv a b => exact decodeWord_encode_of_build rfl rfl rfl
  | gfInv a => exact decodeWord_encode_of_build rfl ⟨rfl, rfl⟩ rfl
  | gfPow base exp => exact decodeWord_encode_of_build rfl rfl (congrArg (Instr.gfPow base) (fieldByte_toNat hwf))
  | polyEval buf x len =>
    obtain ⟨hbuf, hlen⟩ := Bool.and_eq_true_iff.mp hwf
    exact decodeWord_encode_of_build rfl trivial
      (congrArg₂ (Instr.polyEval · x ·) (fieldByte_toNat hbuf) (fieldByte_toNat hlen))
  | polyEvald buf x len =>
    obtain ⟨hbuf, hlen⟩ := Bool.and_eq_true_iff.mp hwf
    exact decodeWord_encode_of_build rfl trivial
      (congrArg₂ (Instr.polyEvald · x ·) (fieldByte_toNat hbuf) (fieldByte_toNat hlen))
  | rsGen nsym => exact decodeWord_encode_of_build rfl ⟨rfl, rfl⟩ (congrArg Instr.rsGen (fieldByte_toNat hwf))
  | rsKeyeq nsym => exact decodeWord_encode_of_build rfl ⟨rfl, rfl⟩ (congrArg Instr.rsKeyeq (fieldByte_toNat hwf))
  | rsApply n => exact decodeWord_encode_of_build rfl ⟨rfl, rfl⟩ (congrArg Instr.rsApply (fieldByte_toNat hwf))
  | rsEncode nsym n | rsSynd nsym n | rsChien nsym n | rsLocate nsym n | rsForney nsym n | rsCorrect nsym n
  | rsDecode nsym n =>
    obtain ⟨hnsym, hn⟩ := Bool.and_eq_true_iff.mp hwf
    exact decodeWord_encode_of_build rfl rfl (congrArg₂ _ (fieldByte_toNat hnsym) (fieldByte_toNat hn))

/-! ### From the word to its command and back -/

/-- What a row builds from field bytes is well-formed: a field's value is below 256, BUF.RD's two below 65536. -/
theorem wf_build (o : Opcode) (a b c : Byte) : (o.build a b c).wf = true := by
  have hindex : decide (256 * b.toNat + a.toNat < 65536) = true := by
    have := a.isLt
    have := b.isLt
    exact decide_eq_true (by omega)
  cases o <;> simp only [Opcode.build, Instr.wf, fitsField_toNat, hindex, Bool.and_self]

/-- The encoder writes the fields a row built the command from, when the reserved ones are zero. -/
theorem encode_build {o : Opcode} {a b c : Byte} (h : o.format.reservedZero a b c) :
    encode (o.build a b c) = mkWord o.code a b c := by
  cases o with
  | nop => obtain ⟨rfl, rfl, rfl⟩ := h; rfl
  | bufRd => simp only [Opcode.build, encode, fieldByte_index_low, fieldByte_index_high, fieldByte_of_toNat, Opcode.code]
  | bufWr | polyEval | polyEvald => simp only [Opcode.build, encode, fieldByte_of_toNat, Opcode.code]
  | setNpos | gfInv | rsGen | rsKeyeq | rsApply =>
    obtain ⟨rfl, rfl⟩ := h
    simp only [Opcode.build, encode, fieldByte_of_toNat, Opcode.code]
  | gfMul | gfDiv | gfPow | rsEncode | rsSynd | rsChien | rsLocate | rsForney | rsCorrect | rsDecode =>
    obtain rfl : c = 0 := h
    simp only [Opcode.build, encode, fieldByte_of_toNat, Opcode.code]

/-- Settles O44: a word that decodes is its row's opcode with its own fields, the reserved ones zero. -/
theorem encodeOfDecodeIsTheWord : Obligations.EncodeOfDecodeIsTheWord := by
  intro w i hdecode
  obtain ⟨o, hop, hzero, rfl⟩ := decodeWord_ok hdecode
  exact ⟨wf_build o _ _ _, by rw [encode_build hzero, ← hop, mkWord_fields]⟩

end Sys2Proof

/-!
PROOFS. The machine around the commands: the outcome of a word (60_exceptions R201, R206), one step and the reset sequence
(70_reset R230, R232), the register ports (10_state R22 to R28), several engines (20_memory R68) and the buffer map (10_state
R36).
-/

namespace Sys2Proof.Machine

open Sys2Proof.Claims

/-! ### Legal outcomes -/

theorem legalOutcome_ok : legalOutcome .ok 0 = true := rfl

/-- Every cause is a row of R201. -/
theorem legalOutcome_cause (c : Cause) : legalOutcome c.status c.info = true := by
  unfold legalOutcome
  rw [Bool.or_eq_true, List.any_eq_true]
  exact .inr ⟨c, c.mem_all, by simp⟩

theorem exec_legalOutcome {i : Instr} {s t : State} (h : exec i s = .next t) : legalOutcome t.status t.info = true := by
  obtain ⟨body, hcommit⟩ := exec_is_commit i s
  rcases State.commit_cases (hcommit.symm.trans h) with ⟨u, -, rfl⟩ | ⟨c, -, rfl⟩
  · exact legalOutcome_ok
  · exact legalOutcome_cause c

/-- A word that is not dropped ends with a legal outcome. -/
theorem issue_legalOutcome {w : Word} {s t : State} (hrdy : s.flags.rdy = true) (h : issue w s = .next t) :
    legalOutcome t.status t.info = true := by
  rcases issue_cases h with ⟨hnot, -⟩ | ⟨-, i, -, hexec⟩ | ⟨-, e, -, rfl⟩
  · exact absurd (hrdy.symm.trans hnot) (by decide)
  · exact exec_legalOutcome hexec
  · exact legalOutcome_cause (causeOfIllegal e)

/-! ### No step stops -/

theorem issue_next (w : Word) (s : State) : ∃ t, issue w s = .next t := by
  cases hrdy : s.flags.rdy with
  | false => exact ⟨s, issue_of_not_ready w hrdy⟩
  | true =>
    cases hdecode : decodeWord w with
    | ok i => rw [issue_of_decoded hrdy hdecode]; exact exec_next i s
    | error e => exact ⟨_, issue_of_illegal hrdy hdecode⟩

/-! ### One step, by what the port holds -/

/-- A step serves the input the port shows first, at the state without it. -/
theorem step_of_port {s : State} {h : HostInput} {rest : List HostInput} (hport : s.port = h :: rest) :
    step s = serve h { s with port := rest } := by
  unfold step serveNext
  rw [State.nextInput_some hport]

theorem step_next (s : State) : ∃ t, step s = .next t := by
  cases hport : s.port with
  | nil =>
    unfold step serveNext
    rw [State.nextInput_none hport]
    exact ⟨s, rfl⟩
  | cons h rest =>
    rw [step_of_port hport]
    cases h with
    | issue w => exact issue_next w _
    | assertReset => exact ⟨_, rfl⟩
    | finishReset => exact ⟨_, rfl⟩

/-- Settles O48: a word is run or rejected with a legal outcome, and serving an input always answers a state. -/
theorem everyWordEndsDefined : Obligations.EveryWordEndsDefined := by
  refine ⟨fun w s hrdy => ?_, step_next⟩
  obtain ⟨t, hissue⟩ := issue_next w s
  exact ⟨t, hissue, issue_legalOutcome hrdy hissue⟩

/-- Settles O47: a step with a word on the port is its issue, whose three cases are those of the word. -/
theorem stepRunsTheDecodedCommand : Obligations.StepRunsTheDecodedCommand := by
  intro s w rest hport
  have hstep : step s = issue w { s with port := rest } := step_of_port hport
  refine ⟨hstep, fun i hrdy hdecode => ?run, fun hrdy hdecode => ?opcode, fun hrdy hdecode => ?field, fun hrdy => ?drop⟩
  case run => exact hstep.trans (issue_of_decoded hrdy hdecode)
  case opcode => exact hstep.trans (issue_of_illegal (s := { s with port := rest }) hrdy hdecode)
  case field => exact hstep.trans (issue_of_illegal (s := { s with port := rest }) hrdy hdecode)
  case drop => exact hstep.trans (issue_of_not_ready w hrdy)

/-! ### Reset -/

/-- Settles O56: the reset state is written out; empty buffers read zero everywhere. -/
theorem resetStateIsAsStated : Obligations.ResetStateIsAsStated := by
  refine ⟨rfl, rfl, rfl, rfl, rfl, fun b j => ?zero, by decide⟩
  case zero => cases b <;> exact Memory.read_nil j

/-- The state inside the reset window: cleared, FLAGS reading 0 (R230). -/
def State.resetWindow (rest : List HostInput) : State :=
  { State.reset with flags := { sz := false, rdy := false }, port := rest }

theorem step_assertReset {s : State} {rest : List HostInput} (hport : s.port = .assertReset :: rest) :
    step s = .next (State.resetWindow rest) := step_of_port hport

/-- A word presented while RDY is 0 is dropped (R232). -/
theorem step_dropped {s : State} {w : Word} {rest : List HostInput} (hrdy : s.flags.rdy = false)
    (hport : s.port = .issue w :: rest) : step s = .next { s with port := rest } :=
  (step_of_port hport).trans (issue_of_not_ready w hrdy)

theorem step_finishReset (rest : List HostInput) :
    step (State.resetWindow (.finishReset :: rest)) = .next { State.reset with port := rest } := rfl

/-- The words presented in the window are dropped one by one, and its end leads to the reset state. -/
theorem run_resetWindow (words : List Word) (rest : List HostInput) :
    Sys2Proof.core.run (words.length + 1) (State.resetWindow (words.map .issue ++ .finishReset :: rest)) =
      .next { State.reset with port := rest } := by
  induction words with
  | nil => exact run_succ_of_step 0 (step_finishReset rest)
  | cons w words ih => exact (run_succ_of_step _ (step_dropped (w := w) rfl rfl)).trans ih

/-- Settles O57: the assertion clears the state, and the run through the window ends in the reset state. -/
theorem resetRestoresTheResetState : Obligations.ResetRestoresTheResetState :=
  ⟨fun _ _ hport => step_assertReset hport, rfl, fun _ _ _ hrdy hport => step_dropped hrdy hport, step_finishReset,
    fun _ words rest hport => (run_succ_of_step _ (step_assertReset hport)).trans (run_resetWindow words rest)⟩

/-! ### The register ports -/

/-- FLAGS bit by bit (10_state R27). -/
theorem Flags.toByte_getLsbD (f : Flags) (k : Nat) :
    f.toByte.getLsbD k = if k = 0 then f.sz else if k = 1 then f.rdy else false := by
  obtain ⟨sz, rdy⟩ := f
  rcases Nat.lt_or_ge k 8 with hk | hk
  · have table : ∀ (sz rdy : Bool) (k : Fin 8), (Flags.toByte ⟨sz, rdy⟩).getLsbD k =
        if k.val = 0 then sz else if k.val = 1 then rdy else false := by decide
    exact table sz rdy ⟨k, hk⟩
  · rw [BitVec.getLsbD_of_ge _ _ hk, if_neg (by omega), if_neg (by omega)]

/-- The port found at an address is the one the map puts there, when no two ports share an address. -/
theorem State.busRead_of_injective {portMap : HostPort → Nat} (hinj : ∀ p q, portMap p = portMap q → p = q) (s : State)
    {p : HostPort} (hp : p ∈ HostPort.registers) : s.busRead portMap (portMap p) = s.readPort p := by
  unfold State.busRead
  cases hfind : HostPort.registers.find? fun q => portMap q == portMap p with
  | none => exact absurd (List.find?_eq_none.mp hfind p hp) (by simp)
  | some q =>
    have hq : portMap q = portMap p := by simpa using List.find?_some hfind
    rw [hinj q p hq]

/-- Settles O58: each port is a field of the state, FLAGS is known bit by bit, and the map is inverted by the search. -/
theorem registerPortsShowTheRegisters : Obligations.RegisterPortsShowTheRegisters := by
  intro s
  refine ⟨rfl, rfl, rfl, rfl, rfl, ⟨s.flags.toByte, rfl, ?sz, ?rdy, fun k hk => ?above⟩,
    fun portMap hinj p hp => s.busRead_of_injective hinj hp⟩
  case sz => exact s.flags.toByte_getLsbD 0
  case rdy => exact s.flags.toByte_getLsbD 1
  case above => rw [s.flags.toByte_getLsbD k, if_neg (by omega), if_neg (by omega)]

/-! ### Several engines -/

theorem Platform.stepEngine_of_step {p : Platform} {k : Nat} {s t : State} (hk : p.engines[k]? = some s)
    (hstep : step s = .next t) : p.stepEngine k = .next { engines := p.engines.set k t } := by
  unfold Platform.stepEngine
  rw [hk]
  dsimp only
  rw [hstep]

/-- Settles O59: the platform's step replaces entry `k` of the list of engines by that engine's next state. -/
theorem enginesShareNothing : Obligations.EnginesShareNothing := by
  intro p k s hk
  obtain ⟨t, hstep⟩ := step_next s
  have hlt : k < p.engines.length := (List.getElem?_eq_some_iff.mp hk).1
  refine ⟨_, t, Platform.stepEngine_of_step hk hstep, hstep, ?self, fun j hj => ?others⟩
  case self => exact List.getElem?_set_self hlt
  case others => exact List.getElem?_set_ne hj.symm

/-! ### The buffer map -/

theorem Buf.id_lt (b : Buf) : b.id < 7 := by cases b <;> decide

theorem Buf.all_getElem?_id (b : Buf) : Buf.all[b.id]? = some b := by cases b <;> rfl

/-- The ids of the data buffers are their places in the list of R36. -/
theorem Space.ofId_eq_data_iff {id : Nat} {b : Buf} :
    Space.ofId id = some (.data b) ↔ id < 7 ∧ Buf.all[id]? = some b := by
  constructor
  · intro h
    rcases Space.ofId_cases h with ⟨b', rfl, hb⟩ | ⟨-, hb⟩ | ⟨-, hb⟩ <;> cases hb
    exact ⟨b.id_lt, b.all_getElem?_id⟩
  · rintro ⟨hid, hb⟩
    obtain rfl : id = b.id := by interval_cases id <;> cases hb <;> rfl
    exact Space.ofId_id b

/-- Settles O60: the sizes are evaluated, and an id that names a space is one of the nine. -/
theorem bufferMapIsAsStated : Obligations.BufferMapIsAsStated :=
  ⟨rfl, fun _ _ => Space.ofId_eq_data_iff, fun _ hid => Space.ofId_of_gt hid⟩

end Sys2Proof.Machine

/-!
PROOFS. What the syndromes say of a word: an encoded word is the message and its parity, which vanish together at the
generator's roots (42_encoder R134); the value of a word at a point is additive and a single error's is geometric
(43_syndrome R142). Then the order of the root search (44_locator R154).
-/

namespace Sys2Proof.Machine

open Sys2Proof.Claims

/-! ### Zero syndromes -/

/-- The syndromes are all zero when the word vanishes at the points they are the values at (R140). -/
theorem allZero_rsSynd_iff_polyEval (c : List Byte) (nsym : Nat) :
    allZero (rsSynd c nsym) = true ↔ ∀ i, i < nsym → polyEval c (expAt i) = 0 := by
  rw [allZero_rsSynd_iff]
  exact forall₂_congr fun i hi => Eq.congr_left (rsSynd_getD c hi)

/-- Fewer syndromes of the same word are zero with them (60_exceptions R207). -/
theorem allZero_rsSynd_mono {c : List Byte} {nsym nsym' : Nat} (h : nsym' ≤ nsym)
    (hzero : allZero (rsSynd c nsym) = true) : allZero (rsSynd c nsym') = true := by
  rw [allZero_rsSynd_iff_polyEval] at hzero ⊢
  exact fun i hi => hzero i (Nat.lt_of_lt_of_le hi h)

/-! ### Linearity -/

@[simp] theorem xorList_cons (a b : Byte) (p q : List Byte) : xorList (a :: p) (b :: q) = (a ^^^ b) :: xorList p q := rfl

/-- The value of a sum is the sum of the values. -/
theorem polyEval_xorList {p q : List Byte} (hlen : p.length = q.length) (x : Byte) :
    polyEval (xorList p q) x = polyEval p x ^^^ polyEval q x := by
  induction p generalizing q with
  | nil =>
    obtain rfl : q = [] := List.eq_nil_of_length_eq_zero hlen.symm
    exact BitVec.xor_self.symm
  | cons a p ih =>
    cases q with
    | nil => cases hlen
    | cons b q =>
      rw [xorList_cons, polyEval_cons, ih (Nat.succ.inj hlen), polyEval_cons, polyEval_cons, xor_gfMul]
      ac_rfl

theorem xorList_getD {p q : List Byte} (hlen : p.length = q.length) (i : Nat) :
    (xorList p q).getD i 0#8 = p.getD i 0#8 ^^^ q.getD i 0#8 := by
  rcases Nat.lt_or_ge i p.length with hi | hi
  · simp [xorList, List.getD, hi, hlen ▸ hi]
  · rw [List.getD_eq_default, List.getD_eq_default _ _ hi, List.getD_eq_default _ _ (hlen ▸ hi)]
    · rfl
    · simpa [hlen] using hi

/-- R142 (b). -/
theorem rsSynd_xorList {c d : List Byte} (hlen : c.length = d.length) (nsym : Nat) :
    rsSynd (xorList c d) nsym = xorList (rsSynd c nsym) (rsSynd d nsym) := by
  refine coeffs_ext (by simp) fun i => ?_
  rw [xorList_getD (by simp)]
  rcases Nat.lt_or_ge i nsym with hi | hi
  · rw [rsSynd_getD _ hi, rsSynd_getD _ hi, rsSynd_getD _ hi, polyEval_xorList hlen]
  · have hout (w : List Byte) : (rsSynd w nsym).getD i 0#8 = 0#8 := List.getD_eq_default _ _ (by simpa using hi)
    rw [hout, hout, hout]
    rfl

/-- A word with one nonzero byte. -/
theorem polyEval_single {n p : Nat} (hp : p < n) (e x : Byte) :
    polyEval ((List.replicate n 0#8).set p e) x = gfMul e (repeatedProduct x p) := by
  induction n generalizing p with
  | zero => cases hp
  | succ n ih =>
    rw [List.replicate_succ]
    cases p with
    | zero => rw [List.set_cons_zero, polyEval_cons, polyEval_zeros, gfMul_zero_left, BitVec.zero_xor]; simp [repeatedProduct]
    | succ p =>
      rw [List.set_cons_succ, polyEval_cons, ih (Nat.lt_of_succ_lt_succ hp), repeatedProduct, gfMul_assoc, BitVec.xor_zero]

/-- Settles O23: a syndrome is a value of the word, which is additive; for one error it is one term. -/
theorem syndromesAreLinear : Obligations.SyndromesAreLinear := by
  refine ⟨fun c d nsym hlen => rsSynd_xorList hlen nsym, fun n p e nsym i hp hi => ?_⟩
  have hvalue : (rsSynd ((List.replicate n 0#8).set p e) nsym).getD i 0#8 = gfMul e (repeatedProduct (expAt i) p) :=
    (rsSynd_getD _ hi).trans (polyEval_single hp e (expAt i))
  rwa [← gfPow_eq_repeatedProduct, gfPow_expAt, ← expAt_mod] at hvalue

/-! ### The order of the search -/

/-- A found position is the log of its candidate, whose value the candidate therefore is. -/
theorem expAt_toNat_of_chienCandidate {lam : List Byte} {p j : Nat} (hp : p < 256) (h : chienCandidate lam p = some j) :
    (expAt j).toNat = p := by
  have hbyte : (BitVec.ofNat 8 p).toNat = p := byteOfNat_toNat hp
  have hlog : gfLog (BitVec.ofNat 8 p) = some j := by rw [gfLog, hbyte]; exact (chienCandidate_eq_some.mp h).1
  rw [(gfLog_eq_some hlog).2, hbyte]

/-- R154: the candidates rise, and a found position stands for its candidate. -/
theorem chienFound_pairwise (lam : List Byte) :
    (chienFound lam).Pairwise fun i j => (expAt i).toNat < (expAt j).toNat := by
  unfold chienFound
  rw [List.pairwise_filterMap]
  refine List.Pairwise.imp_of_mem ?_ List.pairwise_lt_range'
  intro p q hp hq hlt i hi j hj
  rw [expAt_toNat_of_chienCandidate (List.mem_range'_1.mp hp).2 hi,
    expAt_toNat_of_chienCandidate (List.mem_range'_1.mp hq).2 hj]
  exact hlt

theorem chienFound_nodup (lam : List Byte) : (chienFound lam).Nodup :=
  (chienFound_pairwise lam).imp fun hlt heq => absurd (congrArg (fun j => (expAt j).toNat) heq) (Nat.ne_of_lt hlt)

/-- Settles O28: the members are the roots, and the list rises with the candidate, so none occurs twice. -/
theorem chienFindsExactlyTheRoots : Obligations.ChienFindsExactlyTheRoots :=
  fun lam => ⟨fun _ => mem_chienFound, chienFound_nodup lam, chienFound_pairwise lam⟩

end Sys2Proof.Machine

namespace Sys2Proof.Claims

open Sys2Proof Sys2Proof.Machine

/-! ### What RS.ENCODE leaves -/

section
variable {s : State} {nsym k : Nat} (hs : s.wf = true) (hk : nsym + k ≤ 255)
include hs hk

/-- R133: the word is the message and then the parity. -/
theorem encoded_cw_slice : (encoded s nsym k).cw.slice (k + nsym) =
    s.cw.slice k ++ rsParity (s.cw.slice k) (rsGen nsym) nsym := by
  refine coeffs_ext (by simp) fun j => ?_
  refine (Memory.slice_getD ..).trans ?_
  rcases Nat.lt_or_ge j k with hj | hj
  · rw [if_pos (by omega), encoded_cw_frame hs hk (.inl hj), List.getD_append _ _ _ _ (by simpa using hj)]
    exact ((Memory.slice_getD ..).trans (if_pos hj)).symm
  · rw [List.getD_append_right _ _ _ _ (by simpa using hj), Memory.slice_length, encoded_cw_read hs hk]
    split
    · next hlt => rw [if_pos (by omega)]; rfl
    · next hout => exact (List.getD_eq_default _ _ (by rw [rsParity_length]; omega)).symm

theorem encoded_message : (encoded s nsym k).cw.slice k = s.cw.slice k :=
  (Memory.slice_eq_iff ..).mpr fun _ hj => encoded_cw_frame hs hk (.inl hj)

/-- R134: the encoded word vanishes at the generator's roots. -/
theorem polyEval_encoded {i : Nat} (h2 : nsym ≤ 254) (hi : i < nsym) :
    polyEval ((encoded s nsym k).cw.slice (k + nsym)) (expAt i) = 0 := by
  rw [encoded_cw_slice hs hk]
  have hroot : polyEval (rsGen nsym) (expAt i) = 0#8 := (polyEval_rsGen_eq_zero_iff (by omega) (by omega)).mpr hi
  exact polyEval_append_rsParity (rsGen_length nsym) (rsGen_getD_zero nsym) hroot _

theorem allZero_encoded (h2 : nsym ≤ 254) :
    allZero (rsSynd ((encoded s nsym k).cw.slice (k + nsym)) nsym) = true :=
  (allZero_rsSynd_iff_polyEval _ _).mpr fun _ hi => polyEval_encoded hs hk h2 hi

end

/-- Settles O20: the committed word is message and parity, which vanish together at the generator's roots. -/
theorem encodedWordsHaveZeroSyndromes : Obligations.EncodedWordsHaveZeroSyndromes := by
  intro nsym k s hs h1 h2 hk
  refine ⟨_, exec_rsEncode_of_range s h1 h2 hk, ?message, fun i hi => polyEval_encoded hs hk h2 hi,
    allZero_encoded hs hk h2⟩
  case message =>
    rw [State.succeed_cw, encoded_cw_slice hs hk]
    exact List.take_left' (Memory.slice_length ..)

end Sys2Proof.Claims

/-!
PROOFS. Polynomial division (44_locator R150). A pass adds `c x^k b` to the remainder and `c x^k` to the quotient, so the
equation `a = q b + rem` stays (`productCoeff_set`, `divRem_getD`); it clears the remainder's leading coefficient and nothing
above it, so the degree falls (`polyDeg_divRem_lt`). `DivState` is what the loop keeps.
-/

namespace Sys2Proof.Machine

open Sys2Proof.Claims

/-! ### The degree -/

/-- 00_scope R11: all coefficients are zero and the degree is -1, or it is the index of the last nonzero one. -/
theorem polyDeg_cases (p : List Byte) :
    (polyDeg p = -1 ∧ ∀ i, p.getD i 0#8 = 0#8) ∨
      ∃ d : Nat, polyDeg p = d ∧ p.getD d 0#8 ≠ 0#8 ∧ ∀ i, d < i → p.getD i 0#8 = 0#8 := by
  induction p with
  | nil => exact .inl ⟨rfl, fun i => List.getD_nil⟩
  | cons c p ih =>
    rcases ih with ⟨hdeg, hzero⟩ | ⟨d, hdeg, htop, habove⟩
    · by_cases hc : c = 0
      · refine .inl ⟨by simp [polyDeg, hdeg, hc], fun i => ?_⟩
        cases i with
        | zero => exact hc
        | succ i => exact hzero i
      · refine .inr ⟨0, by rw [polyDeg, hdeg, if_neg (by decide), if_neg hc]; rfl, hc, fun i hi => ?_⟩
        cases i with
        | zero => cases hi
        | succ i => exact hzero i
    · refine .inr ⟨d + 1, by simp [polyDeg, hdeg], htop, fun i hi => ?_⟩
      cases i with
      | zero => cases hi
      | succ i => exact habove i (Nat.lt_of_succ_lt_succ hi)

/-- The degree is below `d` when the coefficients from index `d` on are zero. -/
theorem polyDeg_lt_iff {p : List Byte} {d : Nat} : polyDeg p < d ↔ ∀ i, d ≤ i → p.getD i 0#8 = 0#8 := by
  rcases polyDeg_cases p with ⟨hdeg, hzero⟩ | ⟨e, hdeg, htop, habove⟩
  · exact ⟨fun _ i _ => hzero i, fun _ => by omega⟩
  · rw [hdeg, Nat.cast_lt]
    exact ⟨fun hlt i hi => habove i (by omega), fun hzero => Nat.lt_of_not_le fun hle => htop (hzero e hle)⟩

theorem getD_of_polyDeg_lt {p : List Byte} {i : Nat} (h : polyDeg p < i) : p.getD i 0#8 = 0#8 :=
  polyDeg_lt_iff.mp h i (Nat.le_refl i)

theorem polyDeg_lt_length (p : List Byte) : polyDeg p < p.length :=
  polyDeg_lt_iff.mpr fun _ hi => List.getD_eq_default _ _ hi

/-- The leading coefficient of a nonzero polynomial. -/
theorem leading_ne_zero {p : List Byte} {d : Nat} (h : polyDeg p = d) : p.getD d 0#8 ≠ 0#8 := by
  rcases polyDeg_cases p with ⟨hdeg, -⟩ | ⟨e, hdeg, htop, -⟩
  · omega
  · obtain rfl : e = d := by omega
    exact htop

theorem take_getD_of_polyDeg {p : List Byte} {d : Nat} (h : polyDeg p = d) (i : Nat) :
    (p.take (d + 1)).getD i 0#8 = p.getD i 0#8 := by
  rcases Nat.lt_or_ge i (d + 1) with hi | hi
  · simp [List.getD, hi]
  · have hlen : (p.take (d + 1)).length ≤ i := by rw [List.length_take]; omega
    rw [getD_of_polyDeg_lt (p := p) (by omega), List.getD_eq_default _ _ hlen]

/-! ### One pass -/

/-- Setting a zero entry of `q` adds one term to it, and so one multiple of `b` to the product. -/
theorem productCoeff_set {q : List Byte} {k : Nat} (hk : k < q.length) (hq : q.getD k 0#8 = 0#8) (c : Byte) (b : List Byte)
    (m : Nat) :
    productCoeff (q.set k c) b m = productCoeff q b m ^^^ if k ≤ m then gfMul c (b.getD (m - k) 0#8) else 0#8 := by
  induction q generalizing k m with
  | nil => cases hk
  | cons d q ih =>
    cases k with
    | zero =>
      obtain rfl : d = 0#8 := hq
      rw [List.set_cons_zero, if_pos (Nat.zero_le m)]
      cases m with
      | zero => simp [productCoeff_cons_zero]
      | succ m => simp [productCoeff_cons_succ, BitVec.xor_comm]
    | succ k =>
      rw [List.set_cons_succ]
      cases m with
      | zero => simp [productCoeff_cons_zero]
      | succ m =>
        rw [productCoeff_cons_succ, productCoeff_cons_succ, ih (Nat.lt_of_succ_lt_succ hk) hq, BitVec.xor_assoc]
        simp only [Nat.succ_le_succ_iff, Nat.succ_sub_succ]

/-- The coefficient a pass of R150 adds to the quotient. -/
def divCoeff (rem : List Byte) (lb : Byte) (dr : Nat) : Byte := gfMul (rem.getD dr 0) lb

/-- The remainder after a pass of R150, `dr` and `db` being the degrees. -/
def divRem (b rem : List Byte) (lb : Byte) (dr db : Nat) : List Byte :=
  addScaledAt rem (dr - db) (divCoeff rem lb dr) (b.take (db + 1))

theorem divmodLoop_done {b rem : List Byte} {lb : Byte} (h : polyDeg rem < polyDeg b) (fuel : Nat) (q : List Byte) :
    divmodLoop b lb fuel q rem = (q, rem) := by
  cases fuel with
  | zero => rfl
  | succ fuel => rw [divmodLoop, if_pos h]

section
variable {b rem : List Byte} {lb : Byte} {dr db : Nat} (hb : polyDeg b = db) (hrem : polyDeg rem = dr)
include hb hrem

theorem divmodLoop_succ (hle : db ≤ dr) (fuel : Nat) (q : List Byte) :
    divmodLoop b lb (fuel + 1) q rem =
      divmodLoop b lb fuel (q.set (dr - db) (divCoeff rem lb dr)) (divRem b rem lb dr db) := by
  rw [divmodLoop, hb, hrem, if_neg (by omega)]
  rfl

/-- The array is long enough for all of the multiple of `b`. -/
theorem divRem_getD (hle : db ≤ dr) (m : Nat) :
    (divRem b rem lb dr db).getD m 0#8 =
      rem.getD m 0#8 ^^^ if dr - db ≤ m then gfMul (divCoeff rem lb dr) (b.getD (m - (dr - db)) 0#8) else 0#8 := by
  have hlen : dr < rem.length := by have := polyDeg_lt_length rem; omega
  rw [divRem, addScaledAt_getD, take_getD_of_polyDeg hb]
  by_cases hm : dr - db ≤ m
  · rcases Nat.lt_or_ge m rem.length with hlt | hge
    · rw [if_pos ⟨hm, hlt⟩, if_pos hm]
    · rw [if_neg (by omega), if_pos hm, getD_of_polyDeg_lt (p := b) (by omega), gfMul_zero_right, BitVec.xor_zero]
  · rw [if_neg (by omega), if_neg hm, BitVec.xor_zero]

/-- The leading coefficient is cancelled, and none appears above it. -/
theorem polyDeg_divRem_lt (hle : db ≤ dr) (hlb : gfInv (b.getD db 0#8) = some lb) :
    polyDeg (divRem b rem lb dr db) < dr := by
  refine polyDeg_lt_iff.mpr fun m hm => ?_
  rw [divRem_getD hb hrem hle, if_pos (by omega)]
  rcases Nat.eq_or_lt_of_le hm with rfl | hlt
  · rw [Nat.sub_sub_self hle, divCoeff, gfMul_assoc, gfMul_comm lb, gfMul_gfInv hlb, gfMul_one_right]
    exact BitVec.xor_self
  · rw [getD_of_polyDeg_lt (p := rem) (by omega), getD_of_polyDeg_lt (p := b) (by omega), gfMul_zero_right, BitVec.xor_zero]

end

/-! ### The loop -/

/-- What every pass of R150 keeps: the lengths, the equation, and that the quotient has no term yet below the next one. -/
structure DivState (a b q rem : List Byte) : Prop where
  length_q : q.length = a.length
  length_rem : rem.length = a.length
  equation : ∀ m, productCoeff q b m ^^^ rem.getD m 0#8 = a.getD m 0#8
  unset : ∀ i : Nat, i + polyDeg b ≤ polyDeg rem → q.getD i 0#8 = 0#8

theorem divState_start (a b : List Byte) : DivState a b (List.replicate a.length 0#8) a where
  length_q := List.length_replicate
  length_rem := rfl
  equation m := by
    have hzero : productCoeff (List.replicate a.length 0#8) b m = 0#8 := by
      unfold productCoeff
      simp only [BitVec.ofNat_eq_ofNat, getD_zeros, gfMul_zero_left, List.map_const', List.length_range, xorAll_zeros]
    rw [hzero, BitVec.zero_xor]
  unset i _ := getD_zeros _ i

theorem DivState.pass {a b q rem : List Byte} {lb : Byte} {dr db : Nat} (h : DivState a b q rem) (hb : polyDeg b = db)
    (hrem : polyDeg rem = dr) (hle : db ≤ dr) (hlb : gfInv (b.getD db 0#8) = some lb) :
    DivState a b (q.set (dr - db) (divCoeff rem lb dr)) (divRem b rem lb dr db) where
  length_q := by rw [List.length_set, h.length_q]
  length_rem := by rw [divRem, addScaledAt_length, h.length_rem]
  equation m := by
    have hlen : dr < q.length := by
      have := polyDeg_lt_length rem
      rw [h.length_q, ← h.length_rem]
      omega
    rw [productCoeff_set (by omega) (h.unset _ (by omega)), divRem_getD hb hrem hle, ← h.equation m]
    have cancel (x y z : Byte) : x ^^^ y ^^^ (z ^^^ y) = x ^^^ z := by
      rw [BitVec.xor_comm z y, BitVec.xor_assoc, ← BitVec.xor_assoc y y z, BitVec.xor_self, BitVec.zero_xor]
    exact cancel ..
  unset i hi := by
    have hdeg := polyDeg_divRem_lt hb hrem hle hlb
    rw [List.getD_eq_getElem?_getD, List.getElem?_set_ne (by omega), ← List.getD_eq_getElem?_getD]
    exact h.unset i (by omega)

/-- The loop ends with the remainder's degree below `b`'s, because each pass lowers it. -/
theorem divmodLoop_spec {a b : List Byte} {lb : Byte} {db : Nat} (hb : polyDeg b = db)
    (hlb : gfInv (b.getD db 0#8) = some lb) (fuel : Nat) {q rem : List Byte} (h : DivState a b q rem)
    (hfuel : polyDeg rem < fuel) :
    DivState a b (divmodLoop b lb fuel q rem).1 (divmodLoop b lb fuel q rem).2 ∧
      polyDeg (divmodLoop b lb fuel q rem).2 < polyDeg b := by
  induction fuel generalizing q rem with
  | zero => exact ⟨h, Int.lt_of_lt_of_le hfuel (hb ▸ Int.natCast_nonneg db)⟩
  | succ fuel ih =>
    by_cases hdone : polyDeg rem < polyDeg b
    · rw [divmodLoop_done hdone]
      exact ⟨h, hdone⟩
    · obtain ⟨dr, hrem⟩ : ∃ dr : Nat, polyDeg rem = dr := ⟨(polyDeg rem).toNat, by omega⟩
      have hle : db ≤ dr := by omega
      have hlower := polyDeg_divRem_lt hb hrem hle hlb
      rw [divmodLoop_succ hb hrem hle]
      exact ih (h.pass hb hrem hle hlb) (by omega)

/-- R150: division by a nonzero polynomial. -/
theorem polyDivmod_spec (a : List Byte) {b : List Byte} (hb : 0 ≤ polyDeg b) :
    DivState a b (polyDivmod a b).1 (polyDivmod a b).2 ∧ polyDeg (polyDivmod a b).2 < polyDeg b := by
  obtain ⟨db, hdeg⟩ : ∃ db : Nat, polyDeg b = db := ⟨(polyDeg b).toNat, by omega⟩
  obtain ⟨lb, hlb⟩ := gfInv_some_of_ne (leading_ne_zero hdeg)
  have hloop : polyDivmod a b = divmodLoop b lb a.length (List.replicate a.length 0#8) a := by
    unfold polyDivmod
    rw [hdeg, Int.toNat_natCast, BitVec.ofNat_eq_ofNat, hlb]
  rw [hloop]
  exact divmodLoop_spec hdeg hlb a.length (divState_start a b) (polyDeg_lt_length a)

/-- Settles O24: the loop's invariant and the degree at its end. -/
theorem divisionGivesQuotientAndRemainder : Obligations.DivisionGivesQuotientAndRemainder := by
  intro a b _ hb
  obtain ⟨h, hdeg⟩ := polyDivmod_spec a hb
  exact ⟨h.length_q, h.length_rem, hdeg, h.equation⟩

end Sys2Proof.Machine

/-!
PROOFS. Coefficient arrays as polynomials. The bytes with XOR and `gf_mul` are an integral domain (`exists_fieldModel`), so
degrees of products, roots and derivatives are Mathlib's. Every lemma below is about any model `φ` of the bytes in such a ring.
-/

namespace Sys2Proof.Machine

open Sys2Proof.Claims

/-! ### The bytes as an integral domain -/

/-- A ring in which the bytes are elements, XOR is the sum and `gf_mul` the product. -/
structure FieldModel (F : Type) [CommRing F] where
  val : Byte → F
  val_xor : ∀ a b, val (a ^^^ b) = val a + val b
  val_mul : ∀ a b, val (gfMul a b) = val a * val b
  val_one : val 1#8 = 1

/-- A byte as an element of that ring. A type of its own, because `BitVec` has the sum and product of numbers. -/
structure GfElement where
  byte : Byte

/-- The ring of R100 and R101: each law is one of R109. -/
@[reducible] def gfRing : CommRing GfElement where
  add a b := ⟨a.byte ^^^ b.byte⟩
  zero := ⟨0#8⟩
  neg a := a
  mul a b := ⟨gfMul a.byte b.byte⟩
  one := ⟨1#8⟩
  add_assoc _ _ _ := congrArg GfElement.mk (BitVec.xor_assoc ..)
  zero_add _ := congrArg GfElement.mk BitVec.zero_xor
  add_zero _ := congrArg GfElement.mk BitVec.xor_zero
  add_comm _ _ := congrArg GfElement.mk (BitVec.xor_comm ..)
  neg_add_cancel _ := congrArg GfElement.mk BitVec.xor_self
  mul_assoc _ _ _ := congrArg GfElement.mk (gfMul_assoc ..)
  one_mul _ := congrArg GfElement.mk (gfMul_one_left _)
  mul_one _ := congrArg GfElement.mk (gfMul_one_right _)
  zero_mul _ := congrArg GfElement.mk (gfMul_zero_left _)
  mul_zero _ := congrArg GfElement.mk (gfMul_zero_right _)
  left_distrib _ _ _ := congrArg GfElement.mk (gfMul_xor ..)
  right_distrib _ _ _ := congrArg GfElement.mk (xor_gfMul ..)
  mul_comm _ _ := congrArg GfElement.mk (gfMul_comm ..)
  nsmul := @nsmulRec GfElement ⟨⟨0#8⟩⟩ ⟨fun a b => ⟨a.byte ^^^ b.byte⟩⟩
  zsmul := @zsmulRec GfElement ⟨⟨0#8⟩⟩ ⟨fun a b => ⟨a.byte ^^^ b.byte⟩⟩ ⟨fun a => a⟩
    (@nsmulRec GfElement ⟨⟨0#8⟩⟩ ⟨fun a b => ⟨a.byte ^^^ b.byte⟩⟩)

/-- R109 (f): the ring has no zero divisors. -/
theorem exists_fieldModel : ∃ (F : Type) (_ : CommRing F) (_ : IsDomain F), Nonempty (FieldModel F) := by
  refine ⟨GfElement, gfRing, ?domain, ⟨@FieldModel.mk GfElement gfRing GfElement.mk (fun _ _ => rfl) (fun _ _ => rfl) rfl⟩⟩
  case domain =>
    let := gfRing
    have : Nontrivial GfElement := ⟨⟨0#8⟩, ⟨1#8⟩, fun h => absurd (congrArg GfElement.byte h) (by decide)⟩
    have noZeroDivisors (a b : GfElement) (h : a * b = 0) : a = 0 ∨ b = 0 :=
      (gfMul_eq_zero.mp (congrArg GfElement.byte h)).imp (congrArg GfElement.mk) (congrArg GfElement.mk)
    have : NoZeroDivisors GfElement := ⟨fun {a b} h => noZeroDivisors a b h⟩
    exact NoZeroDivisors.to_isDomain GfElement

namespace FieldModel

open Polynomial

variable {F : Type} [CommRing F] (φ : FieldModel F)

@[simp] theorem val_zero : φ.val 0#8 = 0 := by
  have h : φ.val 0#8 = φ.val 0#8 + φ.val 0#8 := φ.val_xor 0#8 0#8
  exact left_eq_add.mp h

include φ in
/-- The characteristic is two, because a byte XORed with itself is zero. -/
theorem add_self (x : F) : x + x = 0 := by
  have h : (1 : F) + 1 = 0 := by rw [← φ.val_one, ← φ.val_xor, BitVec.xor_self, φ.val_zero]
  rw [← two_mul, ← one_add_one_eq_two, h, zero_mul]

include φ in
theorem polynomial_add_self (p : F[X]) : p + p = 0 := by
  ext m
  rw [coeff_add, φ.add_self, coeff_zero]

theorem val_eq_zero [Nontrivial F] {a : Byte} : φ.val a = 0 ↔ a = 0#8 := by
  refine ⟨fun h => ?_, fun h => h ▸ φ.val_zero⟩
  by_contra ha
  obtain ⟨ia, hia⟩ := gfInv_some_of_ne ha
  have hone : φ.val a * φ.val ia = 1 := by rw [← φ.val_mul, gfMul_gfInv hia, φ.val_one]
  rw [h, zero_mul] at hone
  exact zero_ne_one hone

theorem val_injective [Nontrivial F] : Function.Injective φ.val := by
  intro a b h
  rw [← BitVec.xor_eq_zero_iff, ← φ.val_eq_zero, φ.val_xor, h, φ.add_self]

/-! ### The polynomial of an array -/

/-- The polynomial with the array's coefficients, lowest power first (00_scope R11). -/
noncomputable def poly : List Byte → F[X]
  | [] => 0
  | c :: p => C (φ.val c) + X * poly p

@[simp] theorem poly_nil : φ.poly [] = 0 := rfl

theorem poly_cons (c : Byte) (p : List Byte) : φ.poly (c :: p) = C (φ.val c) + X * φ.poly p := rfl

@[simp] theorem coeff_poly (p : List Byte) (m : Nat) : (φ.poly p).coeff m = φ.val (p.getD m 0#8) := by
  induction p generalizing m with
  | nil => simp
  | cons c p ih =>
    rw [poly_cons, coeff_add]
    cases m with
    | zero => simp
    | succ m => simp [coeff_C_succ, ih]

/-- Horner's rule (R120) evaluates the polynomial. -/
theorem eval_poly (p : List Byte) (x : Byte) : (φ.poly p).eval (φ.val x) = φ.val (polyEval p x) := by
  induction p with
  | nil => simp
  | cons c p ih =>
    rw [poly_cons, eval_add, eval_C, eval_mul, eval_X, ih, polyEval_cons, φ.val_xor, φ.val_mul]
    ring

theorem poly_xorList {p q : List Byte} (hlen : p.length = q.length) : φ.poly (xorList p q) = φ.poly p + φ.poly q := by
  ext m
  rw [coeff_add, coeff_poly, coeff_poly, coeff_poly, xorList_getD hlen, φ.val_xor]

theorem poly_zeros (n : Nat) : φ.poly (List.replicate n 0#8) = 0 := by
  ext m
  rw [coeff_poly, getD_zeros, φ.val_zero, coeff_zero]

theorem poly_fitTo {n : Nat} {p : List Byte} (h : p.length ≤ n) : φ.poly (fitTo n p) = φ.poly p := by
  ext m
  rw [coeff_poly, coeff_poly]
  exact congrArg φ.val (fitTo_getD_of_length_le h m)

theorem poly_map_gfMul (f : Byte) (p : List Byte) : φ.poly (p.map fun c => gfMul f c) = C (φ.val f) * φ.poly p := by
  induction p with
  | nil => simp
  | cons c p ih => rw [List.map_cons, poly_cons, ih, φ.val_mul, C_mul, poly_cons]; ring

theorem poly_monomial (n : Nat) : φ.poly (List.replicate n 0#8 ++ [1#8]) = X ^ n := by
  induction n with
  | zero => simp [poly_cons, φ.val_one]
  | succ n ih => rw [List.replicate_succ, List.cons_append, poly_cons, ih, φ.val_zero, C_0, zero_add, pow_succ']

theorem poly_one : φ.poly [1#8] = 1 := φ.poly_monomial 0

/-! ### Products -/

/-- The convolution sum of R151 is a coefficient of the product. -/
theorem val_productCoeff (a b : List Byte) (m : Nat) : φ.val (productCoeff a b m) = (φ.poly a * φ.poly b).coeff m := by
  induction a generalizing m with
  | nil => simp [productCoeff_nil]
  | cons c a ih =>
    rw [poly_cons, add_mul, mul_assoc, coeff_add, coeff_C_mul, coeff_poly]
    cases m with
    | zero => rw [productCoeff_cons_zero, φ.val_mul, coeff_X_mul_zero, add_zero]
    | succ m => rw [productCoeff_cons_succ, φ.val_xor, φ.val_mul, ih, coeff_X_mul]

/-- A truncated product that has room for all of the product. -/
theorem poly_polyMulTrunc {a b : List Byte} {len : Nat} (h : (φ.poly a * φ.poly b).degree < len) :
    φ.poly (polyMulTrunc a b len) = φ.poly a * φ.poly b := by
  ext m
  rw [coeff_poly]
  rcases Nat.lt_or_ge m len with hm | hm
  · rw [polyMulTrunc_getD a b hm, val_productCoeff]
  · rw [List.getD_eq_default _ _ (by rwa [polyMulTrunc_length]), φ.val_zero, coeff_eq_zero_of_degree_lt]
    exact h.trans_le (by exact_mod_cast hm)

/-- The equation of R150. In characteristic two the remainder is `a + q b`. -/
theorem poly_remainder {a b q rem : List Byte} (h : DivState a b q rem) :
    φ.poly rem = φ.poly a + φ.poly q * φ.poly b := by
  ext m
  have heq : rem.getD m 0#8 = a.getD m 0#8 ^^^ productCoeff q b m := by
    rw [← h.equation m, BitVec.xor_comm (productCoeff q b m), BitVec.xor_assoc, BitVec.xor_self, BitVec.xor_zero]
  rw [coeff_add, coeff_poly, coeff_poly, heq, φ.val_xor, val_productCoeff]

/-! ### The formal derivative -/

/-- The loop of R121 from an odd and from an even index on. -/
theorem val_derivFrom (p : List Byte) (x : Byte) :
    φ.val (derivFrom x true p) = (derivative (X * φ.poly p)).eval (φ.val x) ∧
      φ.val (derivFrom x false p) = (X * derivative (φ.poly p)).eval (φ.val x) := by
  induction p with
  | nil => simp [derivFrom]
  | cons c p ih =>
    obtain ⟨hodd, heven⟩ := ih
    constructor
    · rw [derivFrom, Bool.not_true, φ.val_xor, φ.val_mul, heven, poly_cons]
      have hdouble := φ.add_self (φ.val x * (φ.poly p).eval (φ.val x))
      simp only [eval_mul, eval_X, ↓reduceIte, derivative_mul, derivative_X, one_mul, derivative_add, derivative_C,
        zero_add, eval_add, eval_C]
      linear_combination -hdouble
    · rw [derivFrom, Bool.not_false, φ.val_xor, φ.val_mul, hodd, poly_cons]
      simp only [derivative_mul, derivative_X, one_mul, eval_add, eval_mul, eval_X, Bool.false_eq_true, ↓reduceIte,
        BitVec.ofNat_eq_ofNat, val_zero, add_zero, derivative_add, derivative_C, zero_add]
      ring

/-- R121: the value of the derivative. -/
theorem eval_derivative_poly (p : List Byte) (x : Byte) :
    (derivative (φ.poly p)).eval (φ.val x) = φ.val (polyEvald p x) := by
  cases p with
  | nil => simp
  | cons c p =>
    rw [poly_cons, derivative_add, derivative_C, zero_add]
    exact (φ.val_derivFrom p x).1.symm

/-! ### Degrees -/

variable [IsDomain F]

theorem degree_poly_lt_iff {p : List Byte} {d : Nat} : (φ.poly p).degree < d ↔ polyDeg p < d := by
  rw [degree_lt_iff_coeff_zero, polyDeg_lt_iff]
  simp only [coeff_poly, val_eq_zero]

/-- The degree of 00_scope R11 is that of the polynomial. -/
theorem degree_poly_of_polyDeg {p : List Byte} {d : Nat} (h : polyDeg p = d) : (φ.poly p).degree = d := by
  refine degree_eq_of_le_of_coeff_ne_zero ((degree_le_iff_coeff_zero _ _).mpr fun m hm => ?_) ?_
  · have hlt : d < m := by exact_mod_cast hm
    rw [coeff_poly, getD_of_polyDeg_lt (by omega), φ.val_zero]
  · rw [coeff_poly, Ne, φ.val_eq_zero]
    exact leading_ne_zero h

theorem poly_ne_zero_iff {p : List Byte} : φ.poly p ≠ 0 ↔ 0 ≤ polyDeg p := by
  rw [← Int.not_lt, not_iff_not, ← degree_eq_bot, ← Nat.WithBot.lt_zero_iff]
  exact_mod_cast φ.degree_poly_lt_iff (p := p) (d := 0)

theorem polyDeg_of_degree_poly {p : List Byte} {d : Nat} (h : (φ.poly p).degree = d) : polyDeg p = d := by
  have hne : φ.poly p ≠ 0 := fun hzero => by simp [hzero] at h
  obtain ⟨e, he⟩ : ∃ e : Nat, polyDeg p = e := ⟨(polyDeg p).toNat, (Int.toNat_of_nonneg (φ.poly_ne_zero_iff.mp hne)).symm⟩
  rw [φ.degree_poly_of_polyDeg he] at h
  rw [he]
  exact_mod_cast h

end FieldModel

end Sys2Proof.Machine

/-!
PROOFS. The key-equation solver (44_locator R152, R156). The loop is Euclid's algorithm on `x^nsym` and `S`: each remainder `r`
has a multiplier `u` with `r + u S` divisible by `x^nsym`, and the degree of a multiplier complements that of the remainder before
it (`EuclidState`). Where the loop stops, `u` has degree at most `nsym / 2` and `r` a smaller one.
-/

namespace Sys2Proof.Machine

open Polynomial

/-- What every pass of R152 keeps, `S` being the polynomial of the syndromes. -/
structure EuclidState {F : Type} [CommRing F] (φ : FieldModel F) (S : F[X]) (nsym : Nat) (e : Euclid) : Prop where
  length_up : e.up.length = nsym + 1
  length_uc : e.uc.length = nsym + 1
  previous : X ^ nsym ∣ φ.poly e.rp + φ.poly e.up * S
  current : X ^ nsym ∣ φ.poly e.rc + φ.poly e.uc * S
  falls : polyDeg e.rc < polyDeg e.rp
  rises : polyDeg e.up < polyDeg e.uc
  complement : polyDeg e.uc + polyDeg e.rp = nsym
  half : nsym ≤ 2 * polyDeg e.rp

/-- The degree of a quotient (R150): the remainder does not reach the leading coefficient. -/
theorem polyDeg_quotient {a b q rem : List Byte} (h : DivState a b q rem) (hrem : polyDeg rem < polyDeg b)
    (hb : 0 ≤ polyDeg b) (hle : polyDeg b ≤ polyDeg a) : polyDeg q = polyDeg a - polyDeg b := by
  obtain ⟨F, _, _, ⟨φ⟩⟩ := exists_fieldModel
  obtain ⟨db, hdb⟩ := Int.eq_ofNat_of_zero_le hb
  obtain ⟨da, hda⟩ := Int.eq_ofNat_of_zero_le (hb.trans hle)
  have hprod : φ.poly q * φ.poly b = φ.poly a + φ.poly rem := by
    rw [φ.poly_remainder h, ← add_assoc, φ.polynomial_add_self, zero_add]
  have hdeg : (φ.poly q * φ.poly b).degree = da := by
    rw [hprod, degree_add_eq_left_of_degree_lt, φ.degree_poly_of_polyDeg hda]
    rw [φ.degree_poly_of_polyDeg hda, φ.degree_poly_lt_iff]
    omega
  have hq : φ.poly q ≠ 0 := fun hzero => by simp [hzero] at hdeg
  rw [degree_mul, φ.degree_poly_of_polyDeg hdb, degree_eq_natDegree hq] at hdeg
  have hsum : (φ.poly q).natDegree + db = da := by exact_mod_cast hdeg
  rw [φ.polyDeg_of_degree_poly (degree_eq_natDegree hq)]
  omega

theorem euclidPass_eq (nsym : Nat) (e : Euclid) : euclidPass nsym e =
    { rp := e.rc, rc := (polyDivmod e.rp e.rc).2, up := e.uc,
      uc := xorList e.up (polyMulTrunc (polyDivmod e.rp e.rc).1 e.uc (nsym + 1)) } := rfl

section
variable {F : Type} [CommRing F] [IsDomain F] (φ : FieldModel F)

/-- The multiplier a pass of R152 makes: the product has room, and its degree is above that of what it is added to. -/
theorem nextMultiplier {up q uc : List Byte} {nsym : Nat} (hup : up.length = nsym + 1) (hq : 0 ≤ polyDeg q)
    (huc : polyDeg up < polyDeg uc) (hroom : polyDeg q + polyDeg uc ≤ nsym) (hpos : 0 ≤ polyDeg uc) :
    φ.poly (xorList up (polyMulTrunc q uc (nsym + 1))) = φ.poly up + φ.poly q * φ.poly uc ∧
      polyDeg (xorList up (polyMulTrunc q uc (nsym + 1))) = polyDeg q + polyDeg uc := by
  obtain ⟨dq, hdq⟩ := Int.eq_ofNat_of_zero_le hq
  obtain ⟨du, hdu⟩ := Int.eq_ofNat_of_zero_le hpos
  have hdeg : (φ.poly q * φ.poly uc).degree = (dq + du : Nat) := by
    rw [degree_mul, φ.degree_poly_of_polyDeg hdq, φ.degree_poly_of_polyDeg hdu]
    rfl
  have hpoly : φ.poly (xorList up (polyMulTrunc q uc (nsym + 1))) = φ.poly up + φ.poly q * φ.poly uc := by
    rw [φ.poly_xorList (by rw [polyMulTrunc_length, hup]), φ.poly_polyMulTrunc]
    rw [hdeg]
    exact_mod_cast (by omega : dq + du < nsym + 1)
  refine ⟨hpoly, ?_⟩
  have hlt : (φ.poly up).degree < (φ.poly q * φ.poly uc).degree := by
    rw [hdeg, φ.degree_poly_lt_iff]
    omega
  rw [φ.polyDeg_of_degree_poly (d := dq + du) (by rw [hpoly, degree_add_eq_right_of_degree_lt hlt, hdeg])]
  omega

/-- One pass keeps the state, as long as the remainder is not zero. -/
theorem EuclidState.pass {S : F[X]} {nsym : Nat} {e : Euclid} (h : EuclidState φ S nsym e) (hpos : 1 ≤ nsym)
    (hrun : ¬ 2 * polyDeg e.rc < (nsym : Int)) : EuclidState φ S nsym (euclidPass nsym e) := by
  obtain ⟨hdiv, hrem⟩ := polyDivmod_spec e.rp (b := e.rc) (by omega)
  have hfalls := h.falls
  have hcomplement := h.complement
  have hq := polyDeg_quotient hdiv hrem (by omega) h.falls.le
  have hup : -1 ≤ polyDeg e.up := by rcases polyDeg_cases e.up with ⟨hd, -⟩ | ⟨d, hd, -⟩ <;> omega
  have hrises := h.rises
  obtain ⟨hpoly, hdeg⟩ := nextMultiplier φ h.length_up (q := (polyDivmod e.rp e.rc).1) (by omega) h.rises (by omega) (by omega)
  rw [euclidPass_eq]
  refine ⟨h.length_uc, by simp [h.length_up], h.current, ?divisible, hrem, ?rises, ?complement, Int.not_lt.mp hrun⟩
  case divisible =>
    rw [hpoly, φ.poly_remainder hdiv]
    have hcombine := dvd_add h.previous (h.current.mul_left (φ.poly (polyDivmod e.rp e.rc).1))
    convert hcombine using 1
    ring
  case rises => dsimp only; omega
  case complement => dsimp only; omega

/-- Every pass lowers the remainder's degree, so the fuel lasts until it is below `nsym / 2`. -/
theorem euclidLoop_spec {S : F[X]} {nsym : Nat} (hpos : 1 ≤ nsym) (fuel : Nat) {e : Euclid} (h : EuclidState φ S nsym e)
    (hfuel : polyDeg e.rc < fuel) :
    EuclidState φ S nsym (euclidLoop nsym fuel e) ∧ 2 * polyDeg (euclidLoop nsym fuel e).rc < (nsym : Int) := by
  induction fuel generalizing e with
  | zero => exact ⟨h, by simp only [euclidLoop]; omega⟩
  | succ fuel ih =>
    rw [euclidLoop]
    by_cases hdone : 2 * polyDeg e.rc < (nsym : Int)
    · rw [if_pos hdone]
      exact ⟨h, hdone⟩
    · rw [if_neg hdone]
      have hpass := h.pass φ hpos hdone
      have hlower : polyDeg (euclidPass nsym e).rc < polyDeg e.rc := hpass.falls
      exact ih hpass (by omega)

/-! ### The start -/

theorem polyDeg_fitTo {n : Nat} {p : List Byte} (h : p.length ≤ n) : polyDeg (fitTo n p) = polyDeg p := by
  rw [fitTo_eq_append_zeros h, polyDeg_append_zeros]

omit [IsDomain F] in
/-- The arrays before the loop: `x^nsym + 0 S` and `S + 1 S` are divisible by `x^nsym`. -/
theorem euclidStart_state {syndromes : List Byte} {nsym : Nat} (hlen : syndromes.length = nsym) :
    EuclidState φ (φ.poly syndromes) nsym (euclidStart syndromes nsym) := by
  have hroom : ([1#8] : List Byte).length ≤ nsym + 1 := Nat.le_add_left 1 nsym
  have hrp : polyDeg (List.replicate nsym 0#8 ++ [1#8]) = nsym := polyDeg_of_top_ne_zero (by simp) (by simp)
  have hrc : polyDeg (fitTo (nsym + 1) syndromes) = polyDeg syndromes := polyDeg_fitTo (by omega)
  have huc : polyDeg (fitTo (nsym + 1) [1#8]) = 0 := polyDeg_fitTo hroom
  have hup : polyDeg (List.replicate (nsym + 1) 0#8) = -1 := polyDeg_zeros _
  have hdeg := polyDeg_lt_length syndromes
  refine ⟨by simp [euclidStart], by simp [euclidStart], ?previous, ?current, ?falls, ?rises, ?complement, ?half⟩ <;>
    dsimp only [euclidStart, BitVec.ofNat_eq_ofNat]
  case previous => rw [φ.poly_monomial, φ.poly_zeros, zero_mul, add_zero]
  case current =>
    rw [φ.poly_fitTo (by omega), φ.poly_fitTo hroom, φ.poly_one, one_mul, φ.polynomial_add_self]
    exact dvd_zero _
  all_goals omega

/-! ### The locator -/

theorem map_gfMul_getD (f : Byte) (p : List Byte) (i : Nat) :
    (p.map fun c => gfMul f c).getD i 0#8 = gfMul f (p.getD i 0#8) := by
  have h := List.getD_map (l := p) (d := 0#8) (n := i) (gfMul f)
  rwa [gfMul_zero_right] at h

/-- What the solver answers: the last multiplier, divided by its constant term (R152). -/
theorem rsKeyeq_ok {syndromes lam : List Byte} {nsym : Nat} (h : rsKeyeq syndromes nsym = .ok lam) :
    ∃ f, gfInv ((euclidLoop nsym nsym (euclidStart syndromes nsym)).uc.getD 0 0) = some f ∧
      lam = (euclidLoop nsym nsym (euclidStart syndromes nsym)).uc.map fun c => gfMul f c := by
  unfold rsKeyeq at h
  dsimp only at h
  split at h
  · next f hf => exact ⟨f, hf, (Except.ok.inj h).symm⟩
  · cases h

/-- R156 (b): below `x^nsym`, the product with the scaled multiplier is the scaled remainder. -/
theorem evaluatorPoly_getD {S : List Byte} {nsym : Nat} {e : Euclid} (h : EuclidState φ (φ.poly S) nsym e) (f : Byte)
    {i : Nat} (hi : i < nsym) :
    (evaluatorPoly S (e.uc.map fun c => gfMul f c) nsym).getD i 0#8 = gfMul f (e.rc.getD i 0#8) := by
  have hcoeff : (φ.poly e.rc).coeff i + (φ.poly e.uc * φ.poly S).coeff i = 0 := by
    rw [← coeff_add]
    exact X_pow_dvd_iff.mp h.current i hi
  have hsame : (φ.poly e.uc * φ.poly S).coeff i = φ.val (e.rc.getD i 0#8) := by
    have hdouble := φ.add_self ((φ.poly e.rc).coeff i)
    rw [← φ.coeff_poly]
    linear_combination hcoeff - hdouble
  rw [evaluatorPoly, polyMulTrunc_getD _ _ hi, ← BitVec.xor_eq_zero_iff, ← φ.val_eq_zero, φ.val_xor, φ.val_productCoeff,
    φ.poly_map_gfMul, mul_left_comm, coeff_C_mul, mul_comm (φ.poly S), hsame, φ.val_mul, φ.add_self]

end

/-- Settles O26: the state where the loop stops, scaled. -/
theorem locatorSolvesTheKeyEquation : Obligations.LocatorSolvesTheKeyEquation := by
  intro syndromes lam nsym hpos _ hlen hkeyeq
  obtain ⟨F, _, _, ⟨φ⟩⟩ := exists_fieldModel
  obtain ⟨f, hf, rfl⟩ := rsKeyeq_ok hkeyeq
  have hstart := euclidStart_state φ hlen
  have hfuel : polyDeg (euclidStart syndromes nsym).rc < nsym := by
    have hdeg := polyDeg_lt_length syndromes
    rw [euclidStart, polyDeg_fitTo (by omega)]
    omega
  obtain ⟨hstate, hsmall⟩ := euclidLoop_spec φ hpos nsym hstart hfuel
  generalize euclidLoop nsym nsym (euclidStart syndromes nsym) = e at hf hstate hsmall ⊢
  have hscaled {p : List Byte} {i : Nat} (hi : polyDeg p < i) : gfMul f (p.getD i 0#8) = 0#8 := by
    rw [getD_of_polyDeg_lt hi, gfMul_zero_right]
  refine ⟨by rw [List.length_map, hstate.length_uc], ?constant, ?degree, ?equation⟩
  case constant => exact (map_gfMul_getD f _ 0).trans ((gfMul_comm ..).trans (gfMul_gfInv hf))
  case degree =>
    have hcomplement := hstate.complement
    have hhalf := hstate.half
    have hle : polyDeg (e.uc.map fun c => gfMul f c) < ((polyDeg e.uc).toNat + 1 : Nat) :=
      polyDeg_lt_iff.mpr fun i hi => (map_gfMul_getD f _ i).trans (hscaled (by omega))
    omega
  case equation =>
    have hle : polyDeg (evaluatorPoly syndromes (e.uc.map fun c => gfMul f c) nsym) < ((polyDeg e.rc).toNat + 1 : Nat) := by
      refine polyDeg_lt_iff.mpr fun i hi => ?_
      rcases Nat.lt_or_ge i nsym with hlt | hge
      · exact (evaluatorPoly_getD φ hstate f hlt).trans (hscaled (by omega))
      · exact List.getD_eq_default _ _ (by rwa [evaluatorPoly, polyMulTrunc_length])
    omega

end Sys2Proof.Machine

/-!
PROOFS. The command RS.KEYEQ (44_locator R153): the check and the solver's raise, or LOC. Where the loop makes no pass the
locator is the constant 1.
-/

namespace Sys2Proof.Claims

open Sys2Proof Sys2Proof.Machine

section
variable {nsym : Nat} {s : State} (h1 : 1 ≤ nsym) (h2 : nsym ≤ 254)
include h1 h2

/-- The solver raises through RS.KEYEQ. -/
theorem exec_rsKeyeq_of_error {c : Cause} (h : rsKeyeq (s.syn.slice nsym) nsym = .error c) :
    exec (.rsKeyeq nsym) s = .next (s.raise c) := by
  change execRsKeyeq nsym s = _
  unfold execRsKeyeq
  rw [checkNsym_ok h1 h2, h]
  rfl

theorem exec_rsKeyeq_of_ok {lam : List Byte} (h : rsKeyeq (s.syn.slice nsym) nsym = .ok lam) :
    exec (.rsKeyeq nsym) s = .next (s.storeLocator lam).succeed := by
  change execRsKeyeq nsym s = _
  unfold execRsKeyeq
  rw [checkNsym_ok h1 h2, h]
  rfl

end

theorem rsKeyeq_length {syndromes lam : List Byte} {nsym : Nat} (h1 : 1 ≤ nsym) (h2 : nsym ≤ 254)
    (hlen : syndromes.length = nsym) (h : rsKeyeq syndromes nsym = .ok lam) : lam.length = nsym + 1 :=
  (locatorSolvesTheKeyEquation syndromes lam nsym h1 h2 hlen h).1

/-- R153: one syndrome, or zero syndromes, have degree below `nsym / 2`. -/
theorem rsKeyeq_constant {m : Memory} {nsym : Nat} (h1 : 1 ≤ nsym) (h : nsym = 1 ∨ ∀ i, i < nsym → m.read i = 0) :
    rsKeyeq (m.slice nsym) nsym = .ok (fitTo (nsym + 1) [1]) := by
  rcases h with rfl | hzero
  · have hdeg : polyDeg (m.slice 1) < 1 := by simpa using polyDeg_lt_length (m.slice 1)
    refine rsKeyeq_of_no_pass h1 ?_
    rw [polyDeg_fitTo (by simp)]
    omega
  · rw [Memory.slice_eq_zeros hzero]
    exact rsKeyeq_zeros h1

/-- Settles O27: the check, then the solver's raise or the whole-buffer write of its locator. -/
theorem rsKeyeqWritesTheLocator : Obligations.RsKeyeqWritesTheLocator := by
  refine ⟨fun _ => wordRuns_build .rsKeyeq ⟨rfl, rfl⟩, fun nsym s h => fails_of_nsym_range h s _, ?raises, ?locator,
    ?constant, reservedFieldRaises_of_fa (o := .rsKeyeq) rfl⟩
  case raises =>
    intro nsym c s h1 h2 hk
    obtain rfl := rsKeyeq_error hk
    exact exec_rsKeyeq_of_error h1 h2 hk
  case locator =>
    intro nsym lam s h1 h2 hk
    have hlen : lam.length = nsym + 1 := rsKeyeq_length h1 h2 (Memory.slice_length ..) hk
    exact ⟨_, exec_rsKeyeq_of_ok h1 h2 hk, rfl,
      fun i hi => zeroFilled_read_of_lt_size (b := .loc) (Nat.lt_succ_of_le (Nat.le_trans hi (Nat.min_le_right ..))),
      fun i hi hi' => zeroFilled_read_of_length_le (by omega)⟩
  case constant =>
    intro nsym s h1 h2 h
    have hloc {i : Nat} (hi : i < 128) : (zeroFilled .loc (fitTo (nsym + 1) [1])).read i = ([1] : List Byte).getD i 0 :=
      (zeroFilled_read_of_lt_size hi).trans (fitTo_getD_of_length_le (Nat.le_add_left 1 nsym) i)
    exact ⟨_, exec_rsKeyeq_of_ok h1 h2 (rsKeyeq_constant h1 h), rfl, hloc (by decide),
      fun i hpos hi => (hloc hi).trans (List.getD_eq_default _ _ hpos)⟩

end Sys2Proof.Claims

/-!
PROOFS. The positions a search answers are simple roots (45_corrector R178 (a)): they are as many as the locator's degree, so
the derivative is zero at none of them and no Forney denominator is.
-/

namespace Sys2Proof.Machine

open Polynomial Sys2Proof.Claims

/-- A polynomial with as many roots as its degree has only simple ones. -/
theorem derivative_eval_ne_zero_of_card_roots {F : Type} [CommRing F] [IsDomain F] {p : F[X]} (hp : p ≠ 0)
    {roots : Finset F} (hroots : ∀ x ∈ roots, p.IsRoot x) (hcard : roots.card = p.natDegree) {x : F} (hx : x ∈ roots) :
    (derivative p).eval x ≠ 0 := by
  classical
  have hle : roots.val ≤ p.roots :=
    (Multiset.le_iff_subset roots.nodup).mpr fun y hy => (mem_roots hp).mpr (hroots y hy)
  have hall : roots.val = p.roots := Multiset.eq_of_le_of_card_le hle (by
    rw [Finset.card_val, hcard]
    exact card_roots' p)
  have hcount : p.rootMultiplicity x = 1 := by
    rw [← count_roots, ← hall]
    exact Multiset.count_eq_one_of_mem roots.nodup hx
  intro hzero
  have hmany := (one_lt_rootMultiplicity_iff_isRoot hp).mpr ⟨hroots x hx, hzero⟩
  omega

/-- Different positions have different roots. -/
theorem rootOf_inj {i j : Nat} (hi : i < 255) (hj : j < 255) (h : rootOf i = rootOf j) : i = j := by
  have hexp := expAt_inj (Nat.mod_lt _ (by decide)) (Nat.mod_lt _ (by decide)) h
  omega

/-- R178 (a): no denominator is zero at a position the search answered. -/
theorem polyEvald_ne_zero_of_rsChien {lam : List Byte} {nsym n : Nat} {found : List Nat}
    (h : rsChien lam nsym n = .ok found) {j : Nat} (hj : j ∈ found) : polyEvald lam (rootOf j) ≠ 0 := by
  classical
  obtain ⟨F, _, _, ⟨φ⟩⟩ := exists_fieldModel
  obtain ⟨rfl, -, hcount, -⟩ := rsChien_ok h
  have hdeg := φ.degree_poly_of_polyDeg hcount.symm
  have hne : φ.poly lam ≠ 0 := φ.poly_ne_zero_iff.mpr (by omega)
  have hinj : Set.InjOn (fun j => φ.val (rootOf j)) (chienFound lam).toFinset := by
    intro i hi k hk h
    have hlt {l : Nat} (hl : l ∈ (chienFound lam).toFinset) : l < 255 := (mem_chienFound.mp (List.mem_toFinset.mp hl)).1
    exact rootOf_inj (hlt hi) (hlt hk) (φ.val_injective h)
  have hcard : ((chienFound lam).toFinset.image fun j => φ.val (rootOf j)).card = (φ.poly lam).natDegree := by
    rw [Finset.card_image_of_injOn hinj, List.toFinset_card_of_nodup (chienFound_nodup lam)]
    exact (natDegree_eq_of_degree_eq_some hdeg).symm
  have hroots : ∀ x ∈ (chienFound lam).toFinset.image fun j => φ.val (rootOf j), (φ.poly lam).IsRoot x := by
    intro x hx
    obtain ⟨i, hi, rfl⟩ := Finset.mem_image.mp hx
    rw [IsRoot, φ.eval_poly, φ.val_eq_zero]
    exact (mem_chienFound.mp (List.mem_toFinset.mp hi)).2
  have hsimple := derivative_eval_ne_zero_of_card_roots hne hroots hcard
    (Finset.mem_image_of_mem _ (List.mem_toFinset.mpr hj))
  rw [φ.eval_derivative_poly] at hsimple
  exact fun hzero => hsimple (φ.val_eq_zero.mpr hzero)

end Sys2Proof.Machine

/-!
PROOFS. What each command commits and what it raises, said once (00_scope R10, 60_exceptions R201): `Commits` names the state a
successful command leaves before STATUS and INFO are cleared, `exec_cases` splits every command into a commit and a raise of its
own row. The registers each command keeps (10_state R23, R26, R27) are read off it.
-/

namespace Sys2Proof.Machine

open Sys2Proof.Claims

/-! ### What a body can answer -/

/-- A body that completes has a value with `P`; one that raises does so for a listed cause. -/
def Yields {α : Type} (body : Except Cause α) (P : α → Prop) (causes : List Cause) : Prop :=
  Ensures body P ∧ ∀ c, body = .error c → c ∈ causes

section
variable {α β : Type} {P : β → Prop} {causes : List Cause}

theorem yields_ok {b : β} (h : P b) : Yields (.ok b) P causes := ⟨ensures_ok h, nofun⟩

theorem yields_error {c : Cause} (h : c ∈ causes) : Yields (.error c) P causes := by
  refine ⟨ensures_error c, ?_⟩
  rintro _ ⟨⟩
  exact h

/-- A body is its first part, whose causes are among the listed ones, and then the rest. -/
theorem yields_bind {Q : α → Prop} {causes' : List Cause} {x : Except Cause α} {f : α → Except Cause β}
    (hx : Yields x Q causes') (hf : ∀ a, x = .ok a → Q a → Yields (f a) P causes)
    (hsub : causes'.all causes.contains = true := by rfl) : Yields (x >>= f) P causes := by
  obtain ⟨hQ, hcauses⟩ := hx
  refine ⟨ensures_bind fun a ha => (hf a ha (hQ a ha)).1, fun c hc => ?_⟩
  rcases except_bind_error hc with hc | ⟨a, ha, hc⟩
  · exact List.contains_iff_mem.mp (List.all_eq_true.mp hsub c (hcauses c hc))
  · exact (hf a ha (hQ a ha)).2 c hc

theorem yields_ite {p : Prop} [Decidable p] {x y : Except Cause β} (hx : p → Yields x P causes)
    (hy : ¬ p → Yields y P causes) : Yields (if p then x else y) P causes := by
  split
  · next hp => exact hx hp
  · next hp => exact hy hp

end

/-- The form of every operand check: it passes exactly when `p` holds, and otherwise raises its one cause. -/
theorem yields_check (p : Prop) [Decidable p] (c : Cause) :
    Yields (if p then .ok () else .error c) (fun _ => p) [c] :=
  yields_ite (fun hp => yields_ok hp) fun _ => yields_error List.mem_cons_self

/-! ### The operand checks -/

theorem checkNsym_yields (nsym : Nat) : Yields (checkNsym nsym) (fun _ => 1 ≤ nsym ∧ nsym ≤ 254) [.nsymRange] :=
  checkNsym_spec nsym ▸ yields_check _ _

theorem checkWordLength_yields (nsym n : Nat) : Yields (checkWordLength nsym n) (fun _ => nsym ≤ n) [.lenRange] :=
  checkWordLength_spec nsym n ▸ yields_check _ _

theorem checkCodewordLength_yields (nsym k : Nat) :
    Yields (checkCodewordLength nsym k) (fun _ => nsym + k ≤ 255) [.lenRange] :=
  checkCodewordLength_spec nsym k ▸ yields_check _ _

theorem checkCount_yields (count : Nat) : Yields (checkCount count) (fun _ => count ≤ 127) [.countRange] :=
  checkCount_spec count ▸ yields_check _ _

theorem checkIndex_yields (size idx : Nat) : Yields (checkIndex size idx) (fun _ => idx < size) [.bufIndex] :=
  checkIndex_spec size idx ▸ yields_check _ _

theorem checkEvalLength_yields (b : Buf) (len : Nat) :
    Yields (checkEvalLength b len) (fun _ => len ≤ b.size) [.countRange] :=
  checkEvalLength_spec b len ▸ yields_check _ _

theorem checkPositions_yields (positions : List Byte) (n : Nat) :
    Yields (checkPositions positions n) (fun _ => ∀ p ∈ positions, p.toNat < n) [.posRange] := by
  rcases checkPositions_cases (positions := positions) (n := n) with ⟨hok, hpos⟩ | ⟨herror, -⟩
  · rw [hok]; exact yields_ok hpos
  · rw [herror]; exact yields_error List.mem_cons_self

theorem selectSpace_yields (id : Nat) : Yields (selectSpace id) (fun sp => Space.ofId id = some sp) [.bufId] := by
  unfold selectSpace
  split
  · next h => exact yields_ok h
  · exact yields_error List.mem_cons_self

theorem writable_yields (sp : Space) : Yields (writable sp) (fun b => sp = .data b) [.bufReadonly] := by
  cases sp with
  | data b => exact yields_ok rfl
  | exp => exact yields_error List.mem_cons_self
  | log => exact yields_error List.mem_cons_self

theorem evaluable_yields (id : Nat) : Yields (evaluable id) (fun b => Space.ofId id = some (.data b)) [.bufId] := by
  unfold evaluable
  split
  · next h => exact yields_ok h
  all_goals exact yields_error List.mem_cons_self

theorem fetchByte_yields (s : State) (sp : Space) (idx : Nat) :
    Yields (s.fetchByte sp idx) (fun v => s.readSpace sp idx = some v) [.logZero] := by
  unfold State.fetchByte
  split
  · next h => exact yields_ok h
  · exact yields_error List.mem_cons_self

theorem orDivisionByZero_yields (v : Option Byte) : Yields (orDivisionByZero v) (fun q => v = some q) [.operand] := by
  cases v with
  | some q => exact yields_ok rfl
  | none => exact yields_error List.mem_cons_self

/-! ### The stages of a decode -/

theorem rsKeyeq_yields (syndromes : List Byte) (nsym : Nat) :
    Yields (rsKeyeq syndromes nsym) (fun _ => True) [.locatorConstZero] :=
  ⟨fun _ _ => trivial, fun _ h => rsKeyeq_error h ▸ List.mem_cons_self⟩

theorem rsChien_yields (lam : List Byte) (nsym n : Nat) :
    Yields (rsChien lam nsym n) (fun _ => True) [.rootOutside, .rootCount, .tooMany] :=
  ⟨fun _ _ => trivial, fun c h => by simpa using rsChien_error h⟩

theorem forneyMagnitudes_yields (om lam : List Byte) (js : List Nat) :
    Yields (forneyMagnitudes om lam js) (fun _ => True) [.forneyDen] :=
  ⟨fun _ _ => trivial, fun _ h => forneyMagnitudes_error h ▸ List.mem_cons_self⟩

/-- R178 (a): at the positions a search answered the Forney stage does not raise. -/
theorem forneyMagnitudes_yields_of_rsChien {lam : List Byte} {nsym n : Nat} {found : List Nat}
    (h : rsChien lam nsym n = .ok found) (om : List Byte) :
    Yields (forneyMagnitudes om lam found) (fun _ => True) [] := by
  obtain ⟨ms, hms⟩ := exists_forneyMagnitudes (om := om) fun _ hj => polyEvald_ne_zero_of_rsChien h hj
  rw [hms]
  exact yields_ok trivial

theorem forneyStage_yields (s : State) (nsym n : Nat) : Yields (forneyStage s nsym n)
    (fun u => (∀ p ∈ s.listedPositions, p.toNat < n) ∧
      ∃ ms, listedForney s nsym n = .ok ms ∧ u = forneyStored s nsym n ms)
    [.nsymRange, .lenRange, .posRange, .forneyDen] :=
  yields_bind (checkNsym_yields nsym) fun _ _ _ => yields_bind (checkWordLength_yields nsym n) fun _ _ _ =>
    yields_bind (checkPositions_yields _ n) fun _ _ hpos => yields_bind (forneyMagnitudes_yields _ _ _) fun ms hms _ =>
      yields_ok ⟨hpos, ms, hms, rfl⟩

/-- The answers of the stages of RS.DECODE on the word of `s`, and that the corrected word is verified (R175, R177). -/
structure DecodeAnswers (s : State) (nsym n : Nat) (lam : List Byte) (found : List Nat) (ms : List Byte) : Prop where
  keyeq : rsKeyeq (rsSynd (s.cw.slice n) nsym) nsym = .ok lam
  chien : rsChien (fitTo 128 lam) nsym n = .ok found
  forney : forneyMagnitudes (evaluatorPoly (rsSynd (s.cw.slice n) nsym) (fitTo 128 lam) nsym) (fitTo 128 lam) found = .ok ms
  verified : allZero (rsSynd ((applyMagnitudes s.cw found ms).slice n) nsym) = true

/-- The state RS.DECODE commits when it corrects a word (R175). -/
def decoded (s : State) (nsym n : Nat) (lam : List Byte) (found : List Nat) (ms : List Byte) : State :=
  { (((s.storeSyndromes (rsSynd (s.cw.slice n) nsym)).storeLocator lam).storePositions found).storeMagnitudes
      (evaluatorPoly (rsSynd (s.cw.slice n) nsym) (fitTo 128 lam) nsym) ms with cw := applyMagnitudes s.cw found ms }

theorem decodeStages_yields (s : State) (nsym n : Nat) : Yields (decodeStages s nsym n (rsSynd (s.cw.slice n) nsym))
    (fun u => ∃ lam found ms, DecodeAnswers s nsym n lam found ms ∧ u = decoded s nsym n lam found ms)
    [.locatorConstZero, .rootOutside, .rootCount, .tooMany, .residual] :=
  yields_bind (rsKeyeq_yields _ nsym) fun lam hlam _ => yields_bind (rsChien_yields _ nsym n) fun found hfound _ =>
    yields_bind (forneyMagnitudes_yields_of_rsChien hfound _) fun ms hms _ =>
      yields_ite (fun hzero => yields_ok ⟨lam, found, ms, ⟨hlam, hfound, hms, hzero⟩, rfl⟩)
        fun _ => yields_error (by decide)

/-! ### What a command commits -/

/-- The state a command commits, and what its checks and its stages have then answered. -/
def Commits (i : Instr) (s u : State) : Prop :=
  match i with
  | .nop => u = s
  | .bufRd buf idx => ∃ sp v, Space.ofId buf = some sp ∧ s.readSpace sp idx = some v ∧ u = s.setR v
  | .bufWr buf idx v => ∃ b, Space.ofId buf = some (.data b) ∧ idx < b.size ∧ u = s.writeByte b idx v
  | .setNpos count => count ≤ 127 ∧ u = { s with npos := BitVec.ofNat 8 count }
  | .gfMul a b => u = s.setR (gfMul a b)
  | .gfDiv a b => ∃ q, gfDiv a b = some q ∧ u = s.setR q
  | .gfInv a => ∃ v, gfInv a = some v ∧ u = s.setR v
  | .gfPow a e => u = s.setR (gfPow a e)
  | .polyEval buf x len => ∃ b, Space.ofId buf = some (.data b) ∧ u = s.setR (polyEval ((s.buf b).slice len) x)
  | .polyEvald buf x len => ∃ b, Space.ofId buf = some (.data b) ∧ u = s.setR (polyEvald ((s.buf b).slice len) x)
  | .rsGen nsym => u = s.storeGenerator (rsGen nsym)
  | .rsEncode nsym k => nsym + k ≤ 255 ∧ u = encoded s nsym k
  | .rsSynd nsym n => u = s.storeSyndromes (rsSynd (s.cw.slice n) nsym)
  | .rsKeyeq nsym => ∃ lam, rsKeyeq (s.syn.slice nsym) nsym = .ok lam ∧ u = s.storeLocator lam
  | .rsChien nsym n => nsym ≤ 254 ∧ ∃ found, rsChien (s.loc.slice 128) nsym n = .ok found ∧ u = s.storePositions found
  | .rsLocate nsym n => nsym ≤ 254 ∧ ∃ lam found, rsKeyeq (s.syn.slice nsym) nsym = .ok lam ∧
      rsChien (fitTo 128 lam) nsym n = .ok found ∧ u = (s.storeLocator lam).storePositions found
  | .rsForney nsym n => (∀ p ∈ s.listedPositions, p.toNat < n) ∧
      ∃ ms, listedForney s nsym n = .ok ms ∧ u = forneyStored s nsym n ms
  | .rsApply n => (∀ p ∈ s.listedPositions, p.toNat < n) ∧ u = s.applyListed
  | .rsCorrect nsym n => (∀ p ∈ s.listedPositions, p.toNat < n) ∧
      ∃ ms, listedForney s nsym n = .ok ms ∧ u = (forneyStored s nsym n ms).applyListed
  | .rsDecode nsym n => (1 ≤ nsym ∧ nsym ≤ 254) ∧ nsym ≤ n ∧
      ((allZero (rsSynd (s.cw.slice n) nsym) = true ∧ u = s.storeClean (rsSynd (s.cw.slice n) nsym)) ∨
        (allZero (rsSynd (s.cw.slice n) nsym) = false ∧
          ∃ lam found ms, DecodeAnswers s nsym n lam found ms ∧ u = decoded s nsym n lam found ms))

/-- Every command is the commit of a body that answers what the command commits, or raises for a cause of its row. -/
theorem exec_yields (i : Instr) (s : State) :
    ∃ body, exec i s = s.commit body ∧ Yields body (Commits i s) (causesOf i) := by
  cases i with
  | nop => exact ⟨.ok s, rfl, yields_ok rfl⟩
  | bufRd buf idx =>
    exact ⟨_, rfl, yields_bind (selectSpace_yields buf) fun sp _ hsp => yields_bind (checkIndex_yields _ idx) fun _ _ _ =>
      yields_bind (fetchByte_yields s sp idx) fun v _ hv => yields_ok ⟨sp, v, hsp, hv, rfl⟩⟩
  | bufWr buf idx v =>
    refine ⟨_, rfl, yields_bind (selectSpace_yields buf) fun sp _ hsp => yields_bind (writable_yields sp) fun b _ hb =>
      yields_bind (checkIndex_yields _ idx) fun _ _ hidx => yields_ok ⟨b, hb ▸ hsp, hidx, rfl⟩⟩
  | setNpos count =>
    exact ⟨_, rfl, yields_bind (checkCount_yields count) fun _ _ hcount => yields_ok ⟨hcount, rfl⟩⟩
  | gfMul a b => exact ⟨.ok (s.setR (gfMul a b)), rfl, yields_ok rfl⟩
  | gfDiv a b => exact ⟨_, rfl, yields_bind (orDivisionByZero_yields _) fun q _ hq => yields_ok ⟨q, hq, rfl⟩⟩
  | gfInv a => exact ⟨_, rfl, yields_bind (orDivisionByZero_yields _) fun v _ hv => yields_ok ⟨v, hv, rfl⟩⟩
  | gfPow a e => exact ⟨.ok (s.setR (gfPow a e)), rfl, yields_ok rfl⟩
  | polyEval buf x len | polyEvald buf x len =>
    exact ⟨_, rfl, yields_bind (evaluable_yields buf) fun b _ hb => yields_bind (checkEvalLength_yields b len) fun _ _ _ =>
      yields_ok ⟨b, hb, rfl⟩⟩
  | rsGen nsym => exact ⟨_, rfl, yields_bind (checkNsym_yields nsym) fun _ _ _ => yields_ok rfl⟩
  | rsEncode nsym k =>
    exact ⟨_, rfl, yields_bind (checkNsym_yields nsym) fun _ _ _ => yields_bind (checkCodewordLength_yields nsym k)
      fun _ _ hk => yields_ok ⟨hk, rfl⟩⟩
  | rsSynd nsym n =>
    exact ⟨_, rfl, yields_bind (checkNsym_yields nsym) fun _ _ _ => yields_bind (checkWordLength_yields nsym n)
      fun _ _ _ => yields_ok rfl⟩
  | rsKeyeq nsym =>
    exact ⟨_, rfl, yields_bind (checkNsym_yields nsym) fun _ _ _ => yields_bind (rsKeyeq_yields _ nsym)
      fun lam hlam _ => yields_ok ⟨lam, hlam, rfl⟩⟩
  | rsChien nsym n =>
    exact ⟨_, rfl, yields_bind (checkNsym_yields nsym) fun _ _ hnsym => yields_bind (checkWordLength_yields nsym n)
      fun _ _ _ => yields_bind (rsChien_yields _ nsym n) fun found hfound _ =>
        yields_ok ⟨hnsym.2, found, hfound, rfl⟩⟩
  | rsLocate nsym n =>
    exact ⟨_, rfl, yields_bind (checkNsym_yields nsym) fun _ _ hnsym => yields_bind (checkWordLength_yields nsym n)
      fun _ _ _ => yields_bind (rsKeyeq_yields _ nsym) fun lam hlam _ => yields_bind (rsChien_yields _ nsym n)
        fun found hfound _ => yields_ok ⟨hnsym.2, lam, found, hlam, hfound, rfl⟩⟩
  | rsForney nsym n => exact ⟨_, rfl, forneyStage_yields s nsym n⟩
  | rsApply n => exact ⟨_, rfl, yields_bind (checkPositions_yields _ n) fun _ _ hpos => yields_ok ⟨hpos, rfl⟩⟩
  | rsCorrect nsym n =>
    refine ⟨_, rfl, yields_bind (forneyStage_yields s nsym n) ?_⟩
    rintro u - ⟨hpos, ms, hms, rfl⟩
    exact yields_ok ⟨hpos, ms, hms, rfl⟩
  | rsDecode nsym n =>
    refine ⟨_, rfl, yields_bind (checkNsym_yields nsym) fun _ _ hnsym => yields_bind (checkWordLength_yields nsym n)
      fun _ _ hn => yields_ite (fun hzero => yields_ok ⟨hnsym, hn, .inl ⟨hzero, rfl⟩⟩) fun hzero => ?_⟩
    obtain ⟨hstages, hcauses⟩ := decodeStages_yields s nsym n
    exact ⟨fun u hu => ⟨hnsym, hn, .inr ⟨Bool.eq_false_iff.mpr hzero, hstages u hu⟩⟩,
      fun c hc => List.mem_cons_of_mem _ (List.mem_cons_of_mem _ (hcauses c hc))⟩

/-- The two outcomes of a command. -/
theorem exec_cases {i : Instr} {s t : State} (h : exec i s = .next t) :
    (∃ u, Commits i s u ∧ t = u.succeed) ∨ ∃ c ∈ causesOf i, t = s.raise c := by
  obtain ⟨body, hexec, hcommits, hcauses⟩ := exec_yields i s
  rcases State.commit_cases (hexec.symm.trans h) with ⟨u, hu, rfl⟩ | ⟨c, hc, rfl⟩
  · exact .inl ⟨u, hcommits u hu, rfl⟩
  · exact .inr ⟨c, hcauses c hc, rfl⟩

/-- A command that ends with STATUS 0 committed. -/
theorem exec_success {i : Instr} {s t : State} (h : exec i s = .next t) (ht : t.status = .ok) :
    ∃ u, Commits i s u ∧ t = u.succeed := by
  rcases exec_cases h with hcommit | ⟨c, -, rfl⟩
  · exact hcommit
  · exact absurd ht (Cause.status_ne_ok c)

end Sys2Proof.Machine

namespace Sys2Proof.Claims

open Sys2Proof Sys2Proof.Machine

/-- Settles O50: the two outcomes of a command. -/
theorem commandsRaiseOnlyTheirCauses : Obligations.CommandsRaiseOnlyTheirCauses := by
  intro i s t h
  rcases exec_cases h with ⟨u, -, rfl⟩ | ⟨c, hc, rfl⟩
  · exact .inl ⟨rfl, rfl⟩
  · exact .inr ⟨c, hc, rfl⟩

/-- Settles O39: the causes of RS.DECODE's row leave out the zero denominator and the position out of range. -/
theorem decodeNeverDividesByZero : Obligations.DecodeNeverDividesByZero := by
  intro nsym n s t h
  rcases exec_cases h with ⟨u, -, rfl⟩ | ⟨c, hc, rfl⟩
  · exact ⟨nofun, nofun⟩
  · have table : ∀ c ∈ causesOf (.rsDecode 0 0),
        c.status ≠ .divisionByZero ∧ (c.status = .invalidParameter → c.info ≠ 7) := by
      decide
    exact table c hc

/-! ### The registers a command keeps -/

/-- The registers a state has in common with the one a command began with, by the command's row. -/
structure KeepsRegisters (i : Instr) (s u : State) : Prop where
  r : writesR i = false → u.r = s.r
  npos : writesNpos i = false → u.npos = s.npos
  sz : writesSz i = false → u.flags.sz = s.flags.sz
  rdy : u.flags.rdy = s.flags.rdy
  port : u.port = s.port

theorem commits_keepsRegisters {i : Instr} {s u : State} (h : Commits i s u) : KeepsRegisters i s u := by
  cases i with
  | nop => obtain rfl := h; exact ⟨fun _ => rfl, fun _ => rfl, fun _ => rfl, rfl, rfl⟩
  | bufRd buf idx => obtain ⟨sp, v, -, -, rfl⟩ := h; exact ⟨nofun, fun _ => rfl, fun _ => rfl, rfl, rfl⟩
  | bufWr buf idx v =>
    obtain ⟨b, -, -, rfl⟩ := h
    have hflags : (s.writeByte b idx v).flags = s.flags := s.setBuf_flags b _
    exact ⟨fun _ => s.setBuf_r b _, fun _ => s.setBuf_npos b _, fun _ => congrArg Flags.sz hflags,
      congrArg Flags.rdy hflags, s.setBuf_port b _⟩
  | setNpos count => obtain ⟨-, rfl⟩ := h; exact ⟨fun _ => rfl, nofun, fun _ => rfl, rfl, rfl⟩
  | gfMul a b | gfPow a e => obtain rfl := h; exact ⟨nofun, fun _ => rfl, fun _ => rfl, rfl, rfl⟩
  | gfDiv a b | gfInv a | polyEval buf x len | polyEvald buf x len =>
    obtain ⟨-, -, rfl⟩ := h
    exact ⟨nofun, fun _ => rfl, fun _ => rfl, rfl, rfl⟩
  | rsGen nsym => obtain rfl := h; exact ⟨fun _ => rfl, fun _ => rfl, fun _ => rfl, rfl, rfl⟩
  | rsEncode nsym k => obtain ⟨-, rfl⟩ := h; exact ⟨fun _ => rfl, fun _ => rfl, fun _ => rfl, rfl, rfl⟩
  | rsSynd nsym n => obtain rfl := h; exact ⟨fun _ => rfl, fun _ => rfl, nofun, rfl, rfl⟩
  | rsKeyeq nsym => obtain ⟨lam, -, rfl⟩ := h; exact ⟨fun _ => rfl, fun _ => rfl, fun _ => rfl, rfl, rfl⟩
  | rsChien nsym n => obtain ⟨-, found, -, rfl⟩ := h; exact ⟨fun _ => rfl, nofun, fun _ => rfl, rfl, rfl⟩
  | rsLocate nsym n => obtain ⟨-, lam, found, -, -, rfl⟩ := h; exact ⟨fun _ => rfl, nofun, fun _ => rfl, rfl, rfl⟩
  | rsForney nsym n => obtain ⟨-, ms, -, rfl⟩ := h; exact ⟨fun _ => rfl, fun _ => rfl, nofun, rfl, rfl⟩
  | rsApply n => obtain ⟨-, rfl⟩ := h; exact ⟨fun _ => rfl, fun _ => rfl, fun _ => rfl, rfl, rfl⟩
  | rsCorrect nsym n => obtain ⟨-, ms, -, rfl⟩ := h; exact ⟨fun _ => rfl, fun _ => rfl, nofun, rfl, rfl⟩
  | rsDecode nsym n =>
    obtain ⟨-, -, ⟨-, rfl⟩ | ⟨-, lam, found, ms, -, rfl⟩⟩ := h
    · exact ⟨fun _ => rfl, nofun, nofun, rfl, rfl⟩
    · exact ⟨fun _ => rfl, nofun, nofun, rfl, rfl⟩

/-- Settles O51: a raise keeps every register, and so does the end of a commit; the commits are those of the rows. -/
theorem registersOthersKeep : Obligations.RegistersOthersKeep := by
  intro i s t h
  rcases exec_cases h with ⟨u, hu, rfl⟩ | ⟨c, -, rfl⟩
  · obtain ⟨hr, hnpos, hsz, hrdy, hport⟩ := commits_keepsRegisters hu
    exact ⟨hr, hnpos, hsz, hrdy, hport⟩
  · exact ⟨fun _ => rfl, fun _ => rfl, fun _ => rfl, rfl, rfl⟩

end Sys2Proof.Claims

/-!
PROOFS. The invariant of a running machine (10_state R36, 60_exceptions R201): every operation of a commit keeps the buffers
canonical, and a word that runs is well-formed, so that the correction loop writes inside CW. With the bound on NPOS and the
legal outcomes this is `State.wf` after every step. The bytes a command leaves (10_state R39) come from the same case split.
-/

namespace Sys2Proof.Machine

open Sys2Proof.Claims

/-! ### Canonical buffers -/

/-- Every data buffer is in canonical form inside its size (10_state R36). -/
def State.Canonical (s : State) : Prop := ∀ b, (s.buf b).wf b.size = true

/-- The three parts of the invariant. -/
theorem State.wf_iff {s : State} :
    s.wf = true ↔ s.Canonical ∧ s.npos.toNat ≤ 127 ∧ legalOutcome s.status s.info = true := by
  have hall : (Buf.all.all fun b => (s.buf b).wf b.size) = true ↔ s.Canonical := by
    rw [List.all_eq_true]
    exact ⟨fun h b => h b (by cases b <;> decide), fun h b _ => h b⟩
  unfold State.wf
  rw [Bool.and_eq_true, Bool.and_eq_true, hall, decide_eq_true_eq, and_assoc]
  rfl

namespace State.Canonical

variable {s t : State}

/-- The registers do not matter. -/
theorem of_buf_eq (h : s.Canonical) (hb : ∀ b, t.buf b = s.buf b) : t.Canonical := fun b => by
  rw [hb]
  exact h b

theorem setBuf (h : s.Canonical) {b : Buf} {m : Memory} (hm : m.wf b.size = true) : (s.setBuf b m).Canonical := by
  intro b'
  by_cases hbb : b' = b
  · subst hbb; rwa [buf_setBuf_same]
  · rw [buf_setBuf_of_ne _ _ _ _ hbb]; exact h b'

/-- The whole-buffer write of 10_state R38. -/
theorem fill (h : s.Canonical) (b : Buf) (l : List Byte) : (s.setBuf b (zeroFilled b l)).Canonical :=
  h.setBuf (zeroFilled_wf b l)

theorem setR (h : s.Canonical) (v : Byte) : (s.setR v).Canonical := h.of_buf_eq (s.buf_setR v)

theorem succeed (h : s.Canonical) : s.succeed.Canonical := h.of_buf_eq s.buf_succeed

theorem raise (h : s.Canonical) (c : Cause) : (s.raise c).Canonical := h.of_buf_eq (s.buf_raise c)

theorem storeGenerator (h : s.Canonical) (g : List Byte) : (s.storeGenerator g).Canonical := h.fill .gen g

theorem storeSyndromes (h : s.Canonical) (l : List Byte) : (s.storeSyndromes l).Canonical :=
  (h.fill .syn l).of_buf_eq (State.buf_setSz _ _)

theorem storeClean (h : s.Canonical) (l : List Byte) : (s.storeClean l).Canonical :=
  (h.storeSyndromes l).of_buf_eq fun b => by cases b <;> rfl

theorem storeLocator (h : s.Canonical) (l : List Byte) : (s.storeLocator l).Canonical := h.fill .loc l

theorem storePositions (h : s.Canonical) (l : List Nat) : (s.storePositions l).Canonical :=
  (h.fill .pos (l.map (BitVec.ofNat 8))).of_buf_eq fun b => by cases b <;> rfl

theorem storeMagnitudes (h : s.Canonical) (om ms : List Byte) : (s.storeMagnitudes om ms).Canonical :=
  (h.fill .omg om).fill .mag ms

theorem correct (h : s.Canonical) {js : List Nat} (hj : ∀ j ∈ js, j < 255) (ms : List Byte) :
    State.Canonical { s with cw := applyMagnitudes s.cw js ms } :=
  h.setBuf (b := .cw) (applyMagnitudes_wf js ms (h .cw) hj)

theorem applyListed (h : s.Canonical) {n : Nat} (hn : n < 256) (hpos : ∀ p ∈ s.listedPositions, p.toNat < n) :
    s.applyListed.Canonical :=
  h.correct (List.forall_mem_map.mpr fun p hp => by have := hpos p hp; omega) s.listedMagnitudes

theorem forneyStored (h : s.Canonical) (nsym n : Nat) (ms : List Byte) : (forneyStored s nsym n ms).Canonical :=
  (h.storeSyndromes _).storeMagnitudes _ ms

theorem encoded (h : s.Canonical) {nsym k : Nat} (hk : nsym + k ≤ 255) : (encoded s nsym k).Canonical :=
  (h.storeGenerator _).setBuf (b := .cw) (Memory.writeFrom_wf _ (h .cw) k (by
    rw [rsParity_length]
    change k + nsym ≤ 255
    omega))

end State.Canonical

/-- The positions a search answers are below 255. -/
theorem lt_of_mem_rsChien {lam : List Byte} {nsym n : Nat} {found : List Nat} (h : rsChien lam nsym n = .ok found) :
    ∀ j ∈ found, j < 255 := by
  obtain ⟨rfl, -⟩ := rsChien_ok h
  exact fun j hj => (mem_chienFound.mp hj).1

/-- A command whose operands fit their fields keeps the buffers canonical. -/
theorem commits_canonical {i : Instr} {s u : State} (hi : i.wf = true) (hs : s.Canonical) (h : Commits i s u) :
    u.Canonical := by
  have fits {n : Nat} (hn : fitsField n = true) : n < 256 := of_decide_eq_true hn
  cases i with
  | nop => obtain rfl := h; exact hs
  | bufRd buf idx => obtain ⟨sp, v, -, -, rfl⟩ := h; exact hs.setR v
  | bufWr buf idx v =>
    obtain ⟨b, -, hidx, rfl⟩ := h
    exact State.writeByte_wf hs hidx v
  | setNpos count => obtain ⟨-, rfl⟩ := h; exact hs.of_buf_eq fun b => by cases b <;> rfl
  | gfMul a b | gfPow a e => obtain rfl := h; exact hs.setR _
  | gfDiv a b | gfInv a | polyEval buf x len | polyEvald buf x len => obtain ⟨-, -, rfl⟩ := h; exact hs.setR _
  | rsGen nsym => obtain rfl := h; exact hs.storeGenerator _
  | rsEncode nsym k => obtain ⟨hk, rfl⟩ := h; exact hs.encoded hk
  | rsSynd nsym n => obtain rfl := h; exact hs.storeSyndromes _
  | rsKeyeq nsym => obtain ⟨lam, -, rfl⟩ := h; exact hs.storeLocator lam
  | rsChien nsym n => obtain ⟨-, found, -, rfl⟩ := h; exact hs.storePositions found
  | rsLocate nsym n => obtain ⟨-, lam, found, -, -, rfl⟩ := h; exact (hs.storeLocator lam).storePositions found
  | rsForney nsym n => obtain ⟨-, ms, -, rfl⟩ := h; exact hs.forneyStored nsym n ms
  | rsApply n => obtain ⟨hpos, rfl⟩ := h; exact hs.applyListed (fits hi) hpos
  | rsCorrect nsym n =>
    obtain ⟨hpos, ms, -, rfl⟩ := h
    exact (hs.forneyStored nsym n ms).applyListed (fits (Bool.and_eq_true_iff.mp hi).2) hpos
  | rsDecode nsym n =>
    obtain ⟨-, -, ⟨-, rfl⟩ | ⟨-, lam, found, ms, hstages, rfl⟩⟩ := h
    · exact hs.storeClean _
    · exact ((((hs.storeSyndromes _).storeLocator lam).storePositions found).storeMagnitudes _ ms).correct
        (lt_of_mem_rsChien hstages.chien) ms

theorem exec_canonical {i : Instr} {s t : State} (hi : i.wf = true) (hs : s.Canonical) (h : exec i s = .next t) :
    t.Canonical := by
  rcases exec_cases h with ⟨u, hu, rfl⟩ | ⟨c, -, rfl⟩
  · exact (commits_canonical hi hs hu).succeed
  · exact hs.raise c

/-! ### The invariant -/

theorem exec_wf {i : Instr} {s t : State} (hi : i.wf = true) (hs : s.wf = true) (h : exec i s = .next t) :
    t.wf = true := by
  obtain ⟨hbufs, hnpos, -⟩ := State.wf_iff.mp hs
  exact State.wf_iff.mpr ⟨exec_canonical hi hbufs h, exec_npos_le hnpos h, exec_legalOutcome h⟩

/-- A word that runs has decoded, so its command is well-formed. -/
theorem issue_wf {w : Word} {s t : State} (hs : s.wf = true) (h : issue w s = .next t) : t.wf = true := by
  rcases issue_cases h with ⟨-, rfl⟩ | ⟨-, i, hdecode, hexec⟩ | ⟨-, e, -, rfl⟩
  · exact hs
  · exact exec_wf (encodeOfDecodeIsTheWord w i hdecode).1 hs hexec
  · obtain ⟨hbufs, hnpos, -⟩ := State.wf_iff.mp hs
    exact State.wf_iff.mpr ⟨hbufs.raise _, hnpos, legalOutcome_cause _⟩

/-- Settles O55: a step keeps the state, issues a word, clears the engine, or sets RDY. -/
theorem stepKeepsTheInvariant : Obligations.StepKeepsTheInvariant := by
  intro s t hs h
  rcases step_cases h with ⟨-, rfl⟩ | ⟨w, rest, -, hissue⟩ | ⟨rest, -, rfl⟩ | ⟨rest, -, rfl⟩
  · exact hs
  · exact issue_wf (s := { s with port := rest }) hs hissue
  · exact State.wf_iff.mpr ⟨fun b => by cases b <;> rfl, Nat.zero_le 127, legalOutcome_ok⟩
  · exact hs

end Sys2Proof.Machine

namespace Sys2Proof.Claims

open Sys2Proof Sys2Proof.Machine

/-! ### The bytes a command leaves -/

/-- A byte of CW that no listed position names is left by the correction loop (R173). -/
theorem applyListed_frame {s : State} (hs : s.Canonical) {j : Nat}
    (hj : (s.listedPositions.any fun p => decide (p.toNat = j)) = false) : s.applyListed.cw.read j = s.cw.read j := by
  refine applyMagnitudes_frame _ _ (Memory.wf_mono (by decide) (hs .cw)) s.listedPositions_lt j fun hmem => ?_
  obtain ⟨p, hp, rfl⟩ := List.mem_map.mp hmem
  exact absurd (List.any_eq_false.mp hj p hp) (by simp)

/-- After a search POS and NPOS list its answer. -/
theorem storePositions_listed {lam : List Byte} {nsym n : Nat} {found : List Nat} (hnsym : nsym ≤ 254)
    (h : rsChien lam nsym n = .ok found) (s : State) :
    (s.storePositions found).listedPositions.map BitVec.toNat = found := by
  obtain ⟨hnpos, hread, -⟩ := storePositions_holds hnsym h s
  refine List.ext_getElem (by simpa using hnpos) fun i hi hi' => ?_
  refine Eq.trans ?_ ((hread i hi').trans (List.getD_eq_getElem _ _ hi'))
  simp [State.listedPositions]

/-- 10_state R39: what a commit leaves. -/
theorem commits_frame {i : Instr} {s u : State} (hs : s.wf = true) (h : Commits i s u) {b : Buf} {j : Nat}
    (hb : writesByte i u b j = false) : u.readByte b j = s.readByte b j := by
  have hbufs : s.Canonical := s.buf_wf hs
  cases i with
  | nop => obtain rfl := h; rfl
  | bufRd buf idx => obtain ⟨sp, v, -, -, rfl⟩ := h; exact congrArg (·.read j) (s.buf_setR v b)
  | bufWr buf idx v =>
    obtain ⟨b', hb', hidx, rfl⟩ := h
    rw [State.readByte_writeByte (hbufs b')]
    refine if_neg ?_
    rintro ⟨rfl, rfl⟩
    simp [writesByte, hb'] at hb
  | setNpos count => obtain ⟨-, rfl⟩ := h; cases b <;> rfl
  | gfMul a b' | gfPow a e => obtain rfl := h; exact congrArg (·.read j) (s.buf_setR _ b)
  | gfDiv a b' | gfInv a | polyEval buf x len | polyEvald buf x len =>
    obtain ⟨-, -, rfl⟩ := h
    exact congrArg (·.read j) (s.buf_setR _ b)
  | rsGen nsym =>
    obtain rfl := h
    cases b with
    | gen => cases hb
    | _ => rfl
  | rsEncode nsym k =>
    obtain ⟨hk, rfl⟩ := h
    cases b with
    | gen => cases hb
    | cw =>
      have houtside : k ≤ j → k + nsym ≤ j := by simpa [writesByte] using hb
      exact encoded_cw_frame hs hk (by omega)
    | _ => rfl
  | rsSynd nsym n =>
    obtain rfl := h
    cases b with
    | syn => cases hb
    | _ => rfl
  | rsKeyeq nsym =>
    obtain ⟨lam, -, rfl⟩ := h
    cases b with
    | loc => cases hb
    | _ => rfl
  | rsChien nsym n =>
    obtain ⟨-, found, -, rfl⟩ := h
    cases b with
    | pos => cases hb
    | _ => rfl
  | rsLocate nsym n =>
    obtain ⟨-, lam, found, -, -, rfl⟩ := h
    cases b with
    | loc | pos => cases hb
    | _ => rfl
  | rsForney nsym n =>
    obtain ⟨-, ms, -, rfl⟩ := h
    cases b with
    | syn | omg | mag => cases hb
    | _ => rfl
  | rsApply n =>
    obtain ⟨-, rfl⟩ := h
    cases b with
    | cw => exact applyListed_frame hbufs hb
    | _ => rfl
  | rsCorrect nsym n =>
    obtain ⟨-, ms, -, rfl⟩ := h
    cases b with
    | syn | omg | mag => cases hb
    | cw => exact applyListed_frame (hbufs.forneyStored nsym n ms) hb
    | _ => rfl
  | rsDecode nsym n =>
    obtain ⟨⟨-, hnsym⟩, -, ⟨hzero, rfl⟩ | ⟨hzero, lam, found, ms, hstages, rfl⟩⟩ := h
    · cases b with
      | syn => cases hb
      | _ => rfl
    · cases b with
      | gen => rfl
      | syn => cases hb
      | cw =>
        have hlisted := storePositions_listed hnsym hstages.chien s
        refine applyMagnitudes_frame _ _ (hbufs .cw) (lt_of_mem_rsChien hstages.chien) j fun hmem => ?_
        rw [← hlisted] at hmem
        obtain ⟨p, hp, rfl⟩ := List.mem_map.mp hmem
        exact absurd (List.any_eq_false.mp hb p hp) (by simp)
      | loc | pos | omg | mag =>
        have hsz : (decoded s nsym n lam found ms).flags.sz = false := hzero
        simp [writesByte, hsz] at hb

/-- Settles O52: a raise leaves every byte, a commit those outside its row. -/
theorem bytesOutsideTheWriteSetStay : Obligations.BytesOutsideTheWriteSetStay := by
  intro i s t b j hs h hb
  rcases exec_cases h with ⟨u, hu, rfl⟩ | ⟨c, -, rfl⟩
  · rw [State.readByte_succeed]
    exact commits_frame hs hu hb
  · exact congrArg (·.read j) (s.buf_raise c b)

end Sys2Proof.Claims

/-!
PROOFS. The commands RS.CORRECT and RS.DECODE (45_corrector R174 to R178): the raises of the decode's stages, what a corrected
word is byte by byte, and what the two successful ends of a decode leave. A decode that ends with STATUS 0 is taken apart once
(`exec_rsDecode_success`).
-/

namespace Sys2Proof.Claims

open Sys2Proof Sys2Proof.Machine

/-! ### RS.CORRECT -/

/-- Settles O34: the Forney stage answers, and the correction loop runs on the positions and the new magnitudes. -/
theorem rsCorrectCompletes : Obligations.RsCorrectCompletes := by
  intro nsym n s hs h1 h2 hn hpos hden
  obtain ⟨ms, hms⟩ : ∃ ms, listedForney s nsym n = .ok ms :=
    exists_forneyMagnitudes (List.forall_mem_map.mpr (State.forall_mem_listedPositions.mpr hden))
  have hstage := forneyStage_of_inside h1 h2 hn (State.forall_mem_listedPositions.mpr hpos)
  rw [hms] at hstage
  have hcw : (forneyStored s nsym n ms).cw.wf 256 = true := s.cw_wf hs
  exact ⟨_, exec_rsCorrect_of_stage hstage, rfl, State.applyListed_cw_read hcw⟩

/-! ### RS.DECODE after a nonzero syndrome -/

section
variable {nsym n : Nat} {s : State} (h1 : 1 ≤ nsym) (h2 : nsym ≤ 254) (hn : nsym ≤ n)
include h1 h2 hn

/-- With admitted operands and a nonzero syndrome the stages decide (R175). -/
theorem exec_rsDecode_of_stages (hzero : allZero (rsSynd (s.cw.slice n) nsym) = false) {r : Except Cause State}
    (h : decodeStages s nsym n (rsSynd (s.cw.slice n) nsym) = r) : exec (.rsDecode nsym n) s = s.commit r :=
  (execRsDecode_of_operands h1 h2 hn).trans ((if_neg (by rw [hzero]; decide)).trans (congrArg s.commit h))

/-- With zero syndromes the fast path is taken (R176). -/
theorem exec_rsDecode_clean (hzero : allZero (rsSynd (s.cw.slice n) nsym) = true) :
    exec (.rsDecode nsym n) s = .next (s.storeClean (rsSynd (s.cw.slice n) nsym)).succeed :=
  (execRsDecode_of_operands h1 h2 hn).trans (if_pos hzero)

end

/-- Settles O35: the operand checks in order; then the solver's raise, or after it the search's. -/
theorem rsDecodeRaises : Obligations.RsDecodeRaises := by
  refine ⟨fun _ _ => wordRuns_build .rsDecode rfl, fun n nsym s h => fails_of_nsym_range h s _,
    fun nsym n s h1 h2 hn => fails_of_short_word h1 h2 hn s _, ?stages, reservedFieldRaises_of_fab (o := .rsDecode) rfl⟩
  case stages =>
    intro nsym n s h1 h2 hn hzero
    refine ⟨fun c hk => ?solver, fun lam c hk hc => ?search⟩
    case solver =>
      obtain rfl := rsKeyeq_error hk
      exact exec_rsDecode_of_stages h1 h2 hn hzero (decodeStages_keyeq_error hk)
    case search =>
      have hexec := exec_rsDecode_of_stages h1 h2 hn hzero (decodeStages_chien_error hk hc)
      rcases rsChien_error hc with rfl | rfl | rfl <;> exact hexec

/-! ### The corrected word -/

/-- Byte `j` of a word after the magnitudes `ms` are XORed in at the positions `found` (R173). -/
def correctedByte (cw : Memory) (found : List Nat) (ms : List Byte) (j : Nat) : Byte :=
  cw.read j ^^^ xorAll ((List.range found.length).map fun i => if found.getD i 0 = j then ms.getD i 0 else 0)

/-- Two lists of one length, combined entry by entry, are a map over their indices. -/
theorem zipWith_eq_map_range {α : Type} (f : Nat → Byte → α) {js : List Nat} {ms : List Byte} (h : ms.length = js.length) :
    List.zipWith f js ms = (List.range js.length).map fun i => f (js.getD i 0) (ms.getD i 0) := by
  refine List.ext_getElem (by simp [h]) fun i hi hi' => ?_
  have hj : i < js.length := by simpa using hi'
  simp [List.getD, hj, h.symm ▸ hj]

theorem applyMagnitudes_read_eq_correctedByte {cw : Memory} {size : Nat} (hcw : cw.wf size = true) {found : List Nat}
    (hfound : ∀ j ∈ found, j < size) {ms : List Byte} (hlen : ms.length = found.length) (j : Nat) :
    (applyMagnitudes cw found ms).read j = correctedByte cw found ms j := by
  rw [applyMagnitudes_read hcw hfound, zipWith_eq_map_range _ hlen, correctedByte]

/-- Settles O36: the verify stage looks at the corrected word, and the commit stores every stage's answer. -/
theorem rsDecodeCommitsOrRaisesResidual : Obligations.RsDecodeCommitsOrRaisesResidual := by
  intro nsym n s lam found ms hs h1 h2 hn _ syndromes om corrected hzero hk hc hf
  have hlen : ms.length = found.length := forneyMagnitudes_length hf
  have hread : ∀ j, (applyMagnitudes s.cw found ms).read j = corrected j :=
    applyMagnitudes_read_eq_correctedByte (s.buf_wf hs .cw) (lt_of_mem_rsChien hc) hlen
  have hslice : (applyMagnitudes s.cw found ms).slice n = (List.range n).map corrected :=
    List.map_congr_left fun j _ => hread j
  have hstages := exec_rsDecode_of_stages h1 h2 hn hzero (decodeStages_of_located hk hc hf)
  rw [hslice] at hstages
  refine ⟨fun hresidual => ?residual, fun hverified => ?commit⟩
  case residual => exact hstages.trans (congrArg s.commit (if_neg (by rw [hresidual]; decide)))
  case commit =>
    obtain ⟨hnpos, hpos, hposAbove⟩ := storePositions_holds h2 hc s
    have hflags : (decoded s nsym n lam found ms).flags = { s.flags with sz := false } :=
      congrArg (fun z => { s.flags with sz := z }) hzero
    refine ⟨(decoded s nsym n lam found ms).succeed, hstages.trans (congrArg s.commit (if_pos hverified)), rfl, rfl, rfl,
      hflags, rfl, rfl, hnpos, fun i hi => zeroFilled_read_of_lt_size (b := .syn) hi,
      fun i hi => zeroFilled_read_of_lt_size (b := .loc) hi, fun i hi => ?positions,
      fun i hi => zeroFilled_read_of_lt_size (b := .omg) hi, fun i hi => zeroFilled_read_of_lt_size (b := .mag) hi, hread⟩
    rcases Nat.lt_or_ge i found.length with hlt | hge
    · exact hpos i hlt
    · exact (congrArg BitVec.toNat (hposAbove i hge hi)).trans (List.getD_eq_default _ _ hge).symm

/-! ### A successful decode -/

/-- A decode that ends with STATUS 0 took the fast path, or committed what its stages answered (R175, R176). -/
theorem exec_rsDecode_success {nsym n : Nat} {s t : State} (h : exec (.rsDecode nsym n) s = .next t) (ht : t.status = .ok) :
    (1 ≤ nsym ∧ nsym ≤ 254) ∧ nsym ≤ n ∧
      ((allZero (rsSynd (s.cw.slice n) nsym) = true ∧ t = (s.storeClean (rsSynd (s.cw.slice n) nsym)).succeed) ∨
        (allZero (rsSynd (s.cw.slice n) nsym) = false ∧
          ∃ lam found ms, DecodeAnswers s nsym n lam found ms ∧ t = (decoded s nsym n lam found ms).succeed)) := by
  obtain ⟨u, ⟨hnsym, hn, ⟨hzero, rfl⟩ | ⟨hzero, lam, found, ms, hstages, rfl⟩⟩, rfl⟩ := exec_success h ht
  · exact ⟨hnsym, hn, .inl ⟨hzero, rfl⟩⟩
  · exact ⟨hnsym, hn, .inr ⟨hzero, lam, found, ms, hstages, rfl⟩⟩

/-- Settles O38: the fast path leaves a word whose syndromes are zero, the other path one it has verified. -/
theorem successfulDecodeLeavesACodeword : Obligations.SuccessfulDecodeLeavesACodeword := by
  intro nsym n s t h ht
  obtain ⟨-, -, ⟨hzero, rfl⟩ | ⟨-, lam, found, ms, hstages, rfl⟩⟩ := exec_rsDecode_success h ht
  · exact hzero
  · exact hstages.verified

/-- Settles O40: the encoded word has zero syndromes, also the first nsym' of them, so the decode takes the fast path. -/
theorem encodeThenDecodeReturnsTheMessage : Obligations.EncodeThenDecodeReturnsTheMessage := by
  intro nsym nsym' k s hs h1 hle h2 hk
  have hzero : allZero (rsSynd ((encoded s nsym k).cw.slice (k + nsym)) nsym') = true :=
    allZero_rsSynd_mono hle (allZero_encoded hs hk h2)
  exact ⟨_, _, exec_rsEncode_of_range s (by omega) h2 hk,
    exec_rsDecode_clean (s := (encoded s nsym k).succeed) h1 (by omega) (by omega) hzero, rfl, hzero, rfl, rfl,
    encoded_message hs hk⟩

/-- Settles O41: the word left has zero syndromes, so the second decode takes the fast path. -/
theorem secondDecodeIsClean : Obligations.SecondDecodeIsClean := by
  intro nsym n s t h ht
  obtain ⟨⟨h1, h2⟩, hn, -⟩ := exec_rsDecode_success h ht
  have hclean := successfulDecodeLeavesACodeword nsym n s t h ht
  obtain ⟨v, -, rfl⟩ := exec_success h ht
  obtain ⟨u, hexec, hu, hsyn⟩ := cleanWordTakesTheFastPath nsym n v.succeed h1 h2 hn hclean
  exact ⟨u, hexec, hu, hsyn⟩

/-! ### The stages as commands -/

theorem fitTo_self (p : List Byte) : fitTo p.length p = p := by
  rw [fitTo_eq_append_zeros (Nat.le_refl _), Nat.sub_self]
  exact List.append_nil p

/-- A buffer shows the entries that were stored in it, when they fit (10_state R38). -/
theorem slice_zeroFilled {b : Buf} {l : List Byte} (h : l.length ≤ b.size) : (zeroFilled b l).slice l.length = l :=
  (Memory.slice_eq_fitTo fun _ hi => zeroFilled_read_of_lt_size (Nat.lt_of_lt_of_le hi h)).trans (fitTo_self l)

/-- SYN shows the solver the syndromes of the word (R141, R153). -/
theorem slice_storeSyndromes (s : State) {nsym : Nat} (h2 : nsym ≤ 254) (c : List Byte) :
    (s.storeSyndromes (rsSynd c nsym)).syn.slice nsym = rsSynd c nsym := by
  have hslice := slice_zeroFilled (b := .syn) (l := rsSynd c nsym) (by rwa [rsSynd_length])
  rwa [rsSynd_length] at hslice

/-- The state after RS.SYND, RS.KEYEQ and RS.CHIEN, up to STATUS and INFO (R175). -/
def located (s : State) (nsym n : Nat) (lam : List Byte) (found : List Nat) : State :=
  ((s.storeSyndromes (rsSynd (s.cw.slice n) nsym)).storeLocator lam).storePositions found

section
variable {s : State} {nsym n : Nat} {lam : List Byte} {found : List Nat}

theorem located_loc_slice : (located s nsym n lam found).loc.slice 128 = fitTo 128 lam :=
  slice_storeLocator s lam

theorem evaluatorOf_located : evaluatorOf (located s nsym n lam found) nsym n =
    evaluatorPoly (rsSynd (s.cw.slice n) nsym) (fitTo 128 lam) nsym :=
  congrArg (evaluatorPoly _ · nsym) located_loc_slice

variable (h2 : nsym ≤ 254) (hc : rsChien (fitTo 128 lam) nsym n = .ok found)
include h2 hc

theorem located_positions : (located s nsym n lam found).listedPositions.map BitVec.toNat = found :=
  storePositions_listed h2 hc _

theorem located_inside : ∀ p ∈ (located s nsym n lam found).listedPositions, p.toNat < n := by
  obtain ⟨-, hinside, -⟩ := rsChien_ok hc
  rw [← located_positions (s := s) h2 hc] at hinside
  exact List.forall_mem_map.mp hinside

/-- The Forney stage as a command computes what it computes inside the decode. -/
theorem listedForney_located : listedForney (located s nsym n lam found) nsym n =
    forneyMagnitudes (evaluatorPoly (rsSynd (s.cw.slice n) nsym) (fitTo 128 lam) nsym) (fitTo 128 lam) found := by
  rw [listedForney, evaluatorOf_located, located_loc_slice, located_positions h2 hc]

/-- The correction loop as a command reaches the state the decode commits. -/
theorem applyListed_located {ms : List Byte} (hlen : ms.length = found.length) :
    (forneyStored (located s nsym n lam found) nsym n ms).applyListed = decoded s nsym n lam found ms := by
  obtain ⟨-, -, -, hcapacity⟩ := rsChien_ok hc
  have hmags : (forneyStored (located s nsym n lam found) nsym n ms).listedMagnitudes = ms := by
    have hnpos : (located s nsym n lam found).npos.toNat = ms.length := by
      rw [hlen]
      exact (storePositions_holds h2 hc _).1
    refine (congrArg (zeroFilled .mag ms).slice hnpos).trans (slice_zeroFilled ?_)
    change ms.length ≤ 127
    omega
  have hpos : (forneyStored (located s nsym n lam found) nsym n ms).listedPositions.map BitVec.toNat = found :=
    located_positions (s := s) h2 hc
  rw [State.applyListed, hmags, hpos, forneyStored, evaluatorOf_located]
  rfl

end

/-- Settles O42: each stage finds in the buffers what the decode's stage before it answered. -/
theorem decodeEqualsItsStages : Obligations.DecodeEqualsItsStages := by
  intro nsym n s t h ht hsz
  obtain ⟨⟨h1, h2⟩, hn, ⟨hzero, rfl⟩ | ⟨-, lam, found, ms, hstages, rfl⟩⟩ := exec_rsDecode_success h ht
  · exact absurd (hzero.symm.trans hsz) (by decide)
  · obtain ⟨hk, hc, hf, -⟩ := hstages
    rw [← slice_storeSyndromes s h2] at hk
    have hsearch := slice_storeLocator s lam ▸ hc
    have hstage := forneyStage_of_inside (s := (located s nsym n lam found).succeed) h1 h2 hn
      (located_inside (s := s) h2 hc)
    have hmagnitudes : listedForney (located s nsym n lam found).succeed nsym n = .ok ms :=
      (listedForney_located h2 hc).trans hf
    rw [hmagnitudes] at hstage
    have happly : exec (.rsApply n) (forneyStored (located s nsym n lam found) nsym n ms).succeed =
        .next (forneyStored (located s nsym n lam found) nsym n ms).applyListed.succeed :=
      exec_rsApply_of_inside (located_inside (s := s) h2 hc)
    rw [applyListed_located h2 hc (forneyMagnitudes_length hf)] at happly
    exact ⟨_, _, _, _, exec_rsSynd_of_range s h1 h2 hn, rfl,
      exec_rsKeyeq_of_ok (s := (s.storeSyndromes (rsSynd (s.cw.slice n) nsym)).succeed) h1 h2 hk, rfl,
      execRsChien_of_found h1 h2 hn hsearch, rfl, exec_rsForney_of_stage hstage, rfl, happly⟩

end Sys2Proof.Claims

/-!
PROOFS. No command reads R, FLAGS, STATUS or INFO (10_state R27, 60_exceptions R203): from a state that differs there, a
command's body answers the same state up to the registers it does not write (`exec_perturbed`).
-/

namespace Sys2Proof.Claims

open Sys2Proof Sys2Proof.Machine

section
variable {α β : Type} {g : β → β}

/-- Mapping the answer of a body is mapping that of its last part. -/
theorem bind_eq_map_bind {x : Except Cause α} {f f' : α → Except Cause β} (h : ∀ a, f' a = (f a).map g) :
    (x >>= f') = (x >>= f).map g := by
  cases x with
  | ok a => exact h a
  | error c => rfl

theorem ite_eq_map_ite {p : Prop} [Decidable p] {x x' y y' : Except Cause β} (hx : x' = x.map g) (hy : y' = y.map g) :
    (if p then x' else y') = (if p then x else y).map g := by
  split
  · exact hx
  · exact hy

end

/-- A state with other values in the registers no command reads. -/
def withRegisters (r : Byte) (flags : Flags) (status : Status) (info : Byte) (s : State) : State :=
  { s with r := r, flags := flags, status := status, info := info }

/-- What a command leaves of those registers: R and SZ are its own where it writes them. -/
def keepWritten (i : Instr) (r : Byte) (flags : Flags) (status : Status) (info : Byte) (u : State) : State :=
  withRegisters (bif writesR i then u.r else r) ⟨bif writesSz i then u.flags.sz else flags.sz, flags.rdy⟩ status info u

section
variable (s : State) (r : Byte) (flags : Flags) (status : Status) (info : Byte)

theorem forneyStage_perturbed (nsym n : Nat) : forneyStage (withRegisters r flags status info s) nsym n =
    (forneyStage s nsym n).map (keepWritten (.rsForney nsym n) r flags status info) :=
  bind_eq_map_bind fun _ => bind_eq_map_bind fun _ => bind_eq_map_bind fun _ => bind_eq_map_bind fun _ => rfl

theorem decodeStages_perturbed (nsym n : Nat) (syndromes : List Byte) :
    decodeStages (withRegisters r flags status info s) nsym n syndromes =
      (decodeStages s nsym n syndromes).map (keepWritten (.rsDecode nsym n) r flags status info) :=
  bind_eq_map_bind fun _ => bind_eq_map_bind fun _ => bind_eq_map_bind fun _ => ite_eq_map_ite rfl rfl

/-- The body of a command, at a state with other values in R, FLAGS, STATUS and INFO. -/
theorem exec_perturbed (i : Instr) : ∃ body body', exec i s = s.commit body ∧
    exec i (withRegisters r flags status info s) = (withRegisters r flags status info s).commit body' ∧
      body' = body.map (keepWritten i r flags status info) := by
  cases i with
  | nop => exact ⟨.ok s, .ok (withRegisters r flags status info s), rfl, rfl, rfl⟩
  | gfMul a b => exact ⟨.ok (s.setR _), .ok ((withRegisters r flags status info s).setR _), rfl, rfl, rfl⟩
  | gfPow a e => exact ⟨.ok (s.setR _), .ok ((withRegisters r flags status info s).setR _), rfl, rfl, rfl⟩
  | setNpos _ | gfDiv _ _ | gfInv _ | rsGen _ | rsApply _ => exact ⟨_, _, rfl, rfl, bind_eq_map_bind fun _ => rfl⟩
  | rsEncode _ _ | rsSynd _ _ | rsKeyeq _ =>
    exact ⟨_, _, rfl, rfl, bind_eq_map_bind fun _ => bind_eq_map_bind fun _ => rfl⟩
  | polyEval _ _ _ | polyEvald _ _ _ =>
    exact ⟨_, _, rfl, rfl, bind_eq_map_bind fun b => by cases b <;> exact bind_eq_map_bind fun _ => rfl⟩
  | bufRd _ _ | rsChien _ _ =>
    exact ⟨_, _, rfl, rfl, bind_eq_map_bind fun _ => bind_eq_map_bind fun _ => bind_eq_map_bind fun _ => rfl⟩
  | bufWr _ _ _ =>
    refine ⟨_, _, rfl, rfl, bind_eq_map_bind fun _ => bind_eq_map_bind fun b => bind_eq_map_bind fun _ => ?_⟩
    cases b <;> rfl
  | rsLocate _ _ =>
    exact ⟨_, _, rfl, rfl, bind_eq_map_bind fun _ => bind_eq_map_bind fun _ => bind_eq_map_bind fun _ =>
      bind_eq_map_bind fun _ => rfl⟩
  | rsForney nsym n => exact ⟨_, _, rfl, rfl, forneyStage_perturbed s r flags status info nsym n⟩
  | rsCorrect nsym n =>
    refine ⟨_, _, rfl, rfl, ?_⟩
    rw [forneyStage_perturbed]
    cases forneyStage s nsym n <;> rfl
  | rsDecode nsym n =>
    exact ⟨_, _, rfl, rfl, bind_eq_map_bind fun _ => bind_eq_map_bind fun _ =>
      ite_eq_map_ite rfl (decodeStages_perturbed s r flags status info nsym n _)⟩

end

/-- With R and FLAGS as they were, a commit does not see the perturbation: its own rows keep what they do not write. -/
theorem keepWritten_succeed {i : Instr} {s u : State} (h : exec i s = .next u.succeed) (status : Status) (info : Byte) :
    (keepWritten i s.r s.flags status info u).succeed = u.succeed := by
  obtain ⟨hr, -, hsz, hrdy, -⟩ := registersOthersKeep i s u.succeed h
  have keptR : (bif writesR i then u.r else s.r) = u.r := by
    cases hw : writesR i with
    | true => rfl
    | false => exact (hr hw).symm
  have keptSz : (bif writesSz i then u.flags.sz else s.flags.sz) = u.flags.sz := by
    cases hw : writesSz i with
    | true => rfl
    | false => exact (hsz hw).symm
  have keptRdy : s.flags.rdy = u.flags.rdy := hrdy.symm
  rw [keepWritten, keptR, keptSz, keptRdy]
  rfl

/-- Settles O54: the perturbed command answers the same state with its own R and SZ where the row writes them; where it
does not, both are as before. -/
theorem noCommandReadsROrFlagsOrTheOutcome : Obligations.NoCommandReadsROrFlagsOrTheOutcome := by
  refine ⟨fun i s status info => ?outcome, fun i s t r flags h => ?registers⟩
  case outcome =>
    obtain ⟨body, _, hexec, hperturbed, rfl⟩ := exec_perturbed s s.r s.flags status info i
    refine hperturbed.trans (Eq.trans ?_ hexec.symm)
    cases body with
    | error c => rfl
    | ok u => exact congrArg Host.Outcome.next (keepWritten_succeed hexec status info)
  case registers =>
    obtain ⟨body, _, hexec, hperturbed, rfl⟩ := exec_perturbed s r flags s.status s.info i
    rw [hexec] at h
    cases body with
    | error c =>
      cases h
      exact ⟨_, hperturbed, rfl, fun _ ht => absurd ht (Cause.status_ne_ok c), fun _ ht => absurd ht (Cause.status_ne_ok c)⟩
    | ok u =>
      cases h
      refine ⟨_, hperturbed, rfl, fun hw _ => ?_, fun hw _ => ?_⟩
      · exact (congrArg (bif · then u.r else r) hw : _)
      · exact (congrArg (bif · then u.flags.sz else flags.sz) hw : _)

end Sys2Proof.Claims

/-!
PROOFS. A command's result depends on its reads only (10_state R39, R40). Two bodies agree when both raise the same cause or
both answer states with the same written contents (`Agree`); the bodies of one command at two states that read alike do
(`exec_agrees`), because every check and every stage is a function of the contents read.
-/

namespace Sys2Proof.Claims

open Sys2Proof Sys2Proof.Machine

/-! ### Bodies that agree -/

/-- Both bodies raise the same cause, or both complete with values in relation. -/
def Agree {α β : Type} (P : α → β → Prop) : Except Cause α → Except Cause β → Prop
  | .ok a, .ok b => P a b
  | .error c, .error d => c = d
  | _, _ => False

section
variable {α β γ δ : Type} {P : γ → δ → Prop}

theorem agree_bind {Q : α → β → Prop} {x : Except Cause α} {y : Except Cause β} {f : α → Except Cause γ}
    {g : β → Except Cause δ} (hxy : Agree Q x y) (hfg : ∀ a b, Q a b → Agree P (f a) (g b)) :
    Agree P (x >>= f) (y >>= g) := by
  cases x with
  | ok a =>
    cases y with
    | ok b => exact hfg a b hxy
    | error d => exact hxy.elim
  | error c =>
    cases y with
    | ok b => exact hxy.elim
    | error d => exact hxy

/-- Two bodies whose first parts are the same computation. -/
theorem agree_bind_eq {x y : Except Cause α} {f : α → Except Cause γ} {g : α → Except Cause δ} (hxy : x = y)
    (hfg : ∀ a, x = .ok a → Agree P (f a) (g a)) : Agree P (x >>= f) (y >>= g) := by
  subst hxy
  cases x with
  | ok a => exact hfg a rfl
  | error c => exact rfl

theorem agree_imp {Q : γ → δ → Prop} (hQP : ∀ a b, Q a b → P a b) {x : Except Cause γ} {y : Except Cause δ}
    (h : Agree Q x y) : Agree P x y := by
  cases x with
  | ok a =>
    cases y with
    | ok b => exact hQP a b h
    | error d => exact h.elim
  | error c =>
    cases y with
    | ok b => exact h.elim
    | error d => exact h

theorem agree_ite {p q : Prop} [Decidable p] [Decidable q] (hpq : p ↔ q) {x y : Except Cause γ} {x' y' : Except Cause δ}
    (hx : p → Agree P x x') (hy : ¬ p → Agree P y y') : Agree P (if p then x else y) (if q then x' else y') := by
  by_cases hp : p
  · rw [if_pos hp, if_pos (hpq.mp hp)]; exact hx hp
  · rw [if_neg hp, if_neg (mt hpq.mpr hp)]; exact hy hp

end

/-- Commands whose bodies agree end with the same outcome, and related states where they succeed. -/
theorem commit_agree {P : State → State → Prop} {s s' t t' : State} {body body' : Except Cause State}
    (h : Agree P body body') (ht : s.commit body = .next t) (ht' : s'.commit body' = .next t') :
    t.status = t'.status ∧ t.info = t'.info ∧
      (t.status = .ok → ∃ u u', P u u' ∧ t = u.succeed ∧ t' = u'.succeed) := by
  cases body with
  | ok u =>
    cases body' with
    | ok u' => cases ht; cases ht'; exact ⟨rfl, rfl, fun _ => ⟨u, u', h, rfl, rfl⟩⟩
    | error d => exact h.elim
  | error c =>
    cases body' with
    | ok u' => exact h.elim
    | error d =>
      cases ht; cases ht'
      obtain rfl : c = d := h
      exact ⟨rfl, rfl, fun hok => absurd hok (Cause.status_ne_ok c)⟩

/-! ### What the reads determine -/

section
variable {s s' : State}

/-- A byte that two words share stays shared when the same magnitudes are applied to both. -/
theorem applyMagnitudes_read_congr {size : Nat} {m m' : Memory} (hm : m.wf size = true) (hm' : m'.wf size = true)
    {js : List Nat} (hj : ∀ j ∈ js, j < size) (ms : List Byte) {j : Nat} (h : m.read j = m'.read j) :
    (applyMagnitudes m js ms).read j = (applyMagnitudes m' js ms).read j := by
  rw [applyMagnitudes_read hm hj, applyMagnitudes_read hm' hj, h]

/-- The correction loop on lists that two states have in common. -/
theorem applyListed_reads_congr (hcw : s.cw.wf 256 = true) (hcw' : s'.cw.wf 256 = true)
    (hpos : s.listedPositions = s'.listedPositions) (hmag : s.listedMagnitudes = s'.listedMagnitudes)
    (hread : ∀ p ∈ s.listedPositions, s.cw.read p.toNat = s'.cw.read p.toNat) :
    (s.applyListed.listedPositions.map fun p => s.applyListed.cw.read p.toNat) =
      s'.applyListed.listedPositions.map fun p => s'.applyListed.cw.read p.toNat := by
  change s.listedPositions.map _ = s'.listedPositions.map _
  rw [← hpos]
  refine List.map_congr_left fun p hp => ?_
  rw [State.applyListed_cw, State.applyListed_cw, ← hpos, ← hmag]
  exact applyMagnitudes_read_congr hcw hcw' s.listedPositions_lt _ (hread p hp)

/-- A byte of a space is among the contents BUF.RD reads, or is a table entry. -/
theorem fetchByte_congr {buf idx : Nat} {sp : Space} (hsp : Space.ofId buf = some sp)
    (h : readContents (.bufRd buf idx) s = readContents (.bufRd buf idx) s') :
    s.fetchByte sp idx = s'.fetchByte sp idx := by
  cases sp with
  | data b =>
    simp only [readContents, hsp, List.cons.injEq, and_true] at h
    rw [State.fetchByte_data, State.fetchByte_data, h]
  | exp => rfl
  | log => rfl

theorem selectSpace_ok {id : Nat} {sp : Space} (h : selectSpace id = .ok sp) : Space.ofId id = some sp :=
  (selectSpace_yields id).1 sp h

theorem evaluable_ok {id : Nat} {b : Buf} (h : evaluable id = .ok b) : Space.ofId id = some (.data b) :=
  (evaluable_yields id).1 b h

/-- The Forney stages of two states with the same word, locator and positions. -/
theorem forneyStage_agree {nsym n : Nat} (hcw : s.cw.slice n = s'.cw.slice n) (hloc : s.loc.slice 128 = s'.loc.slice 128)
    (hpos : s.listedPositions = s'.listedPositions) :
    Agree (fun u u' => (∀ p ∈ s.listedPositions, p.toNat < n) ∧
      ∃ ms, u = forneyStored s nsym n ms ∧ u' = forneyStored s' nsym n ms)
      (forneyStage s nsym n) (forneyStage s' nsym n) := by
  refine agree_bind_eq rfl fun _ _ => agree_bind_eq rfl fun _ _ =>
    agree_bind_eq (congrArg (checkPositions · n) hpos) fun _ hcheck => agree_bind_eq ?_ fun ms _ => ?_
  · rw [hcw, hloc, hpos]
  · exact ⟨(checkPositions_yields _ n).1 _ hcheck, ms, rfl, rfl⟩

/-- What RS.FORNEY writes is the same then. -/
theorem forneyStored_written {nsym n : Nat} (hcw : s.cw.slice n = s'.cw.slice n)
    (hloc : s.loc.slice 128 = s'.loc.slice 128) (ms : List Byte) :
    writtenContents (.rsForney nsym n) (forneyStored s nsym n ms) =
      writtenContents (.rsForney nsym n) (forneyStored s' nsym n ms) := by
  have hom : evaluatorOf s nsym n = evaluatorOf s' nsym n := by rw [evaluatorOf, evaluatorOf, hcw, hloc]
  simp [writtenContents, forneyStored, hcw, hom]

/-- What RS.CORRECT writes is that, and the listed bytes of CW, which lie in the word it read. -/
theorem corrected_written (hs : s.wf = true) (hs' : s'.wf = true) {nsym n : Nat} (hcw : s.cw.slice n = s'.cw.slice n)
    (hloc : s.loc.slice 128 = s'.loc.slice 128) (hpos : s.listedPositions = s'.listedPositions) (hnpos : s.npos = s'.npos)
    (hinside : ∀ p ∈ s.listedPositions, p.toNat < n) (ms : List Byte) :
    writtenContents (.rsCorrect nsym n) (forneyStored s nsym n ms).applyListed =
      writtenContents (.rsCorrect nsym n) (forneyStored s' nsym n ms).applyListed := by
  have hmag : (forneyStored s nsym n ms).listedMagnitudes = (forneyStored s' nsym n ms).listedMagnitudes :=
    congrArg (fun count : Byte => (zeroFilled .mag ms).slice count.toNat) hnpos
  have hreads := applyListed_reads_congr (s := forneyStored s nsym n ms) (s' := forneyStored s' nsym n ms) (s.cw_wf hs)
    (s'.cw_wf hs') hpos hmag fun p hp => (Memory.slice_eq_iff ..).mp hcw _ (hinside p hp)
  exact congrArg₂ (fun (stored : List (List Byte)) listed => stored ++ [listed]) (forneyStored_written hcw hloc ms) hreads

/-! ### RS.DECODE -/

/-- What the fast path of RS.DECODE writes. -/
theorem clean_written {nsym n : Nat} (hcw : s.cw.slice n = s'.cw.slice n)
    (hzero : allZero (rsSynd (s.cw.slice n) nsym) = true) :
    writtenContents (.rsDecode nsym n) (s.storeClean (rsSynd (s.cw.slice n) nsym)) =
      writtenContents (.rsDecode nsym n) (s'.storeClean (rsSynd (s'.cw.slice n) nsym)) := by
  rw [hcw] at hzero
  simp [writtenContents, hcw, hzero]

section
variable (hs : s.wf = true) (hs' : s'.wf = true) {nsym n : Nat} (hcw : s.cw.slice n = s'.cw.slice n) {lam : List Byte}
  {found : List Nat} (hfound : rsChien (fitTo 128 lam) nsym n = .ok found)
include hs hs' hcw hfound

/-- The corrected words agree below `n`, where the words do. -/
theorem corrected_read_congr (ms : List Byte) {j : Nat} (hj : j < n) :
    (applyMagnitudes s.cw found ms).read j = (applyMagnitudes s'.cw found ms).read j :=
  applyMagnitudes_read_congr (s.buf_wf hs .cw) (s'.buf_wf hs' .cw) (lt_of_mem_rsChien hfound) ms
    ((Memory.slice_eq_iff ..).mp hcw j hj)

/-- What RS.DECODE writes when it corrects a word; the listed bytes of CW lie in the word it read. -/
theorem decoded_written (hnsym : nsym ≤ 254) (ms : List Byte) :
    writtenContents (.rsDecode nsym n) (decoded s nsym n lam found ms) =
      writtenContents (.rsDecode nsym n) (decoded s' nsym n lam found ms) := by
  have hsynd : rsSynd (s.cw.slice n) nsym = rsSynd (s'.cw.slice n) nsym := congrArg (rsSynd · nsym) hcw
  have hsyn : (decoded s nsym n lam found ms).syn = (decoded s' nsym n lam found ms).syn :=
    congrArg (zeroFilled .syn) hsynd
  have hsz : (decoded s nsym n lam found ms).flags.sz = (decoded s' nsym n lam found ms).flags.sz :=
    congrArg allZero hsynd
  have homg : (decoded s nsym n lam found ms).omg = (decoded s' nsym n lam found ms).omg :=
    congrArg (fun c => zeroFilled .omg (evaluatorPoly c (fitTo 128 lam) nsym)) hsynd
  have hreads : ((decoded s nsym n lam found ms).listedPositions.map fun p =>
        (decoded s nsym n lam found ms).cw.read p.toNat) =
      (decoded s' nsym n lam found ms).listedPositions.map fun p => (decoded s' nsym n lam found ms).cw.read p.toNat := by
    refine List.map_congr_left fun p hp => ?_
    have hmem : p.toNat ∈ found := by
      rw [← storePositions_listed hnsym hfound s]
      exact List.mem_map_of_mem hp
    obtain ⟨-, hinside, -⟩ := rsChien_ok hfound
    exact corrected_read_congr hs hs' hcw hfound ms (hinside _ hmem)
  rw [writtenContents, writtenContents, hreads, hsyn, hsz, homg]
  rfl

end

/-- The stages after a nonzero syndrome, on two words with the same bytes below `n`. -/
theorem decodeStages_agree (hs : s.wf = true) (hs' : s'.wf = true) {nsym n : Nat} (hcw : s.cw.slice n = s'.cw.slice n)
    (hnsym : nsym ≤ 254) :
    Agree (fun u u' => writtenContents (.rsDecode nsym n) u = writtenContents (.rsDecode nsym n) u')
      (decodeStages s nsym n (rsSynd (s.cw.slice n) nsym)) (decodeStages s' nsym n (rsSynd (s'.cw.slice n) nsym)) := by
  have hsynd : rsSynd (s.cw.slice n) nsym = rsSynd (s'.cw.slice n) nsym := congrArg (rsSynd · nsym) hcw
  refine agree_bind_eq (congrArg (rsKeyeq · nsym) hsynd) fun lam _ => agree_bind_eq rfl fun found hfound =>
    agree_bind_eq (by rw [hsynd]) fun ms _ => ?_
  have hslice : (applyMagnitudes s.cw found ms).slice n = (applyMagnitudes s'.cw found ms).slice n :=
    (Memory.slice_eq_iff ..).mpr fun _ => corrected_read_congr hs hs' hcw hfound ms
  exact agree_ite (by rw [hslice]) (fun _ => decoded_written hs hs' hcw hfound hnsym ms) fun _ => rfl

end

/-! ### The commands -/

/-- The bodies of one command at two states with the same contents in its reads column. -/
theorem exec_agrees {i : Instr} {s s' : State} (hs : s.wf = true) (hs' : s'.wf = true)
    (h : readContents i s = readContents i s') : ∃ body body', exec i s = s.commit body ∧ exec i s' = s'.commit body' ∧
      Agree (fun u u' => writtenContents i u = writtenContents i u') body body' := by
  cases i with
  | nop => exact ⟨.ok s, .ok s', rfl, rfl, rfl⟩
  | gfMul a b => exact ⟨.ok (s.setR _), .ok (s'.setR _), rfl, rfl, rfl⟩
  | gfPow a e => exact ⟨.ok (s.setR _), .ok (s'.setR _), rfl, rfl, rfl⟩
  | setNpos _ | gfDiv _ _ | gfInv _ | rsGen _ => exact ⟨_, _, rfl, rfl, agree_bind_eq rfl fun _ _ => rfl⟩
  | bufRd buf idx =>
    exact ⟨_, _, rfl, rfl, agree_bind_eq rfl fun sp hsp => agree_bind_eq rfl fun _ _ =>
      agree_bind_eq (fetchByte_congr (selectSpace_ok hsp) h) fun _ _ => rfl⟩
  | bufWr buf idx v =>
    refine ⟨_, _, rfl, rfl, agree_bind_eq rfl fun sp hsp => agree_bind_eq rfl fun b hb => agree_bind_eq rfl fun _ _ => ?_⟩
    have hid : Space.ofId buf = some (.data b) := (writable_yields sp).1 b hb ▸ selectSpace_ok hsp
    have hwritten (x : State) (hx : x.wf = true) : writtenContents (.bufWr buf idx v) (x.writeByte b idx v) = [[v]] := by
      simp [writtenContents, hid, State.readByte_writeByte (x.buf_wf hx b)]
    exact (hwritten s hs).trans (hwritten s' hs').symm
  | polyEval buf x len | polyEvald buf x len =>
    refine ⟨_, _, rfl, rfl, agree_bind_eq rfl fun b hb => agree_bind_eq rfl fun _ _ => ?_⟩
    simp only [readContents, evaluable_ok hb, List.cons.injEq, and_true] at h
    simp [Agree, writtenContents, h]
  | rsEncode nsym k =>
    refine ⟨_, _, rfl, rfl, agree_bind_eq rfl fun _ _ => agree_bind_eq rfl fun _ hk => ?_⟩
    have hlen : nsym + k ≤ 255 := (checkCodewordLength_yields nsym k).1 _ hk
    obtain ⟨hmessage, -⟩ := List.cons.inj h
    change [_, (Memory.slice (encoded s nsym k).cw _).drop k] = [_, (Memory.slice (encoded s' nsym k).cw _).drop k]
    rw [encoded_cw_slice hs hlen, encoded_cw_slice hs' hlen, hmessage]
    rfl
  | rsSynd nsym n =>
    obtain ⟨hword, -⟩ := List.cons.inj h
    refine ⟨_, _, rfl, rfl, agree_bind_eq rfl fun _ _ => agree_bind_eq rfl fun _ _ => ?_⟩
    rw [hword]
    rfl
  | rsKeyeq nsym =>
    obtain ⟨hsyn, -⟩ := List.cons.inj h
    exact ⟨_, _, rfl, rfl, agree_bind_eq rfl fun _ _ => agree_bind_eq (congrArg (rsKeyeq · nsym) hsyn) fun _ _ => rfl⟩
  | rsChien nsym n =>
    obtain ⟨hloc, -⟩ := List.cons.inj h
    exact ⟨_, _, rfl, rfl, agree_bind_eq rfl fun _ _ => agree_bind_eq rfl fun _ _ =>
      agree_bind_eq (congrArg (rsChien · nsym n) hloc) fun _ _ => rfl⟩
  | rsLocate nsym n =>
    obtain ⟨hsyn, -⟩ := List.cons.inj h
    exact ⟨_, _, rfl, rfl, agree_bind_eq rfl fun _ _ => agree_bind_eq rfl fun _ _ =>
      agree_bind_eq (congrArg (rsKeyeq · nsym) hsyn) fun _ _ => agree_bind_eq rfl fun _ _ => rfl⟩
  | rsForney nsym n =>
    simp only [readContents, List.cons.injEq, and_true] at h
    obtain ⟨hcw, hloc, hpos, -⟩ := h
    refine ⟨_, _, rfl, rfl, agree_imp ?_ (forneyStage_agree hcw hloc hpos)⟩
    rintro _ _ ⟨-, ms, rfl, rfl⟩
    exact forneyStored_written hcw hloc ms
  | rsApply n =>
    simp only [readContents, List.cons.injEq, and_true] at h
    obtain ⟨hpos, hmag, -, hread⟩ := h
    refine ⟨_, _, rfl, rfl, agree_bind_eq (congrArg (checkPositions · n) hpos) fun _ _ => ?_⟩
    rw [← hpos] at hread
    exact congrArg ([·]) (applyListed_reads_congr (s.cw_wf hs) (s'.cw_wf hs') hpos hmag
      (List.map_inj_left.mp hread))
  | rsCorrect nsym n =>
    simp only [readContents, List.cons.injEq, and_true] at h
    obtain ⟨hcw, hloc, hpos, hnpos⟩ := h
    refine ⟨_, _, rfl, rfl, agree_bind (forneyStage_agree hcw hloc hpos) ?_⟩
    rintro _ _ ⟨hinside, ms, rfl, rfl⟩
    exact corrected_written hs hs' hcw hloc hpos hnpos hinside ms
  | rsDecode nsym n =>
    obtain ⟨hword, -⟩ := List.cons.inj h
    refine ⟨_, _, rfl, rfl, agree_bind_eq rfl fun _ hnsym => agree_bind_eq rfl fun _ _ => ?_⟩
    exact agree_ite (by rw [hword]) (fun hzero => clean_written hword hzero)
      fun _ => decodeStages_agree hs hs' hword (range_of_checkNsym_ok hnsym).2

/-- Settles O53: the bodies agree, so their commits do. -/
theorem resultsDependOnlyOnTheReadSet : Obligations.ResultsDependOnlyOnTheReadSet := by
  intro i s s' t t' hs hs' hread ht ht'
  obtain ⟨body, body', hexec, hexec', hagree⟩ := exec_agrees hs hs' hread
  obtain ⟨hstatus, hinfo, hstates⟩ := commit_agree hagree (hexec.symm.trans ht) (hexec'.symm.trans ht')
  refine ⟨hstatus, hinfo, fun hok => ?_⟩
  obtain ⟨u, u', hwritten, rfl, rfl⟩ := hstates hok
  exact hwritten

end Sys2Proof.Claims
